-- ==== Sys2Proof/Word.lean ====
section
/-!
DEFINITION. The word types of the machine (00_scope.md R6, R8, R9): plain bit vectors, so that the library's
arithmetic modulo 2^32 and its lemmas apply.
-/

namespace Sys2Proof

/-- A register, pc, address or CSR value (R9). -/
abbrev Word := BitVec 32

/-- A byte of RAM or of a serial stream (R54, R57). -/
abbrev Byte := BitVec 8

/-- A counter (R26). -/
abbrev DWord := BitVec 64

/-- A register index field: five bits, so always 0 to 31 (R22, R104). -/
abbrev Reg := BitVec 5

/-- A CSR number (R29). -/
abbrev CsrNumber := BitVec 12

end Sys2Proof
end

