-- ==== Sys2Proof/Config.lean ====
section
/-!
DEFINITION. What whoever builds the machine chooses, and the one value the spec leaves open. The named parameters of
00_scope.md R7 are plain data that State carries and no step changes (log entry 1), so that a statement can hold for
every setting of them.
-/

namespace Sys2Proof

/-- The kinds of bus region (R3, R7). A RAM region's bytes are in State. -/
inductive RegionKind where
  | ram
  | serial
  deriving DecidableEq, Repr

/-- One entry of the bus's region list (R7, R51): the half-open range `[base, base + size)`. -/
structure Region where
  base : Word
  size : Word
  kind : RegionKind
  deriving DecidableEq, Repr

/-- P_REGIONS (R7): the board's map for an image of a given length (R61), or any other ordered list (a test bus). -/
inductive BusMap where
  | board (imageLength : Nat)
  | custom (regions : List Region)
  deriving DecidableEq, Repr

/-- P_CSRRS_OP (R7, R227): what CSRRS does to the old value. -/
inductive CsrrsOp where
  | and
  | or
  deriving DecidableEq, Repr

/-- The parameters a run keeps fixed (R7). -/
structure Params where
  bus : BusMap
  csrrsOp : CsrrsOp
  bgeStrict : Bool
  deriving DecidableEq, Repr

/-- One answer of the host to a serial load (R7, R57, R60). -/
inductive SerialAnswer where
  | byte (b : Byte)
  | endOfStream
  deriving DecidableEq, Repr

/-- What the host does once the listed answers are used up: every further load finds the end of the stream (R60), or
the host answers no more (R293). -/
inductive SerialTail where
  | ended
  | silent
  deriving DecidableEq, Repr

/-- P_SERIAL_IN (R7): no reader, or a reader with the answers it still gives, next one first. -/
inductive SerialIn where
  | noReader
  | reader (answers : List SerialAnswer) (after : SerialTail)
  deriving DecidableEq, Repr

/-- P_SERIAL_OUT (R7): no writer, or a writer with the bytes it has received, oldest first, and how many more the host
accepts (`none`: every one; R293). -/
inductive SerialOut where
  | noWriter
  | writer (sent : List Byte) (room : Option Nat)
  deriving DecidableEq, Repr

/-- P_RESET_PC on the board (R24, R281). -/
def Config.boardResetPc : Word := 0x100#32

/-- Base of the board's RAM region (R61). -/
def Config.boardRamBase : Word := 0x100#32

/-- The longest image the board takes (R7, R52). -/
def Config.maxImageLength : Nat := 0xFFFFFEFE

/-- Address of the board's serial port (R61). -/
def Config.boardSerialBase : Word := 0xFFFFFFFE#32

/-- FREE VALUE (R60, I4; log entry 6): the byte that the n-th load at the end of the serial stream reads. It has no
body, so nothing can be proved of it. -/
opaque Config.endOfStreamByte : Nat → Byte

end Sys2Proof
end

