-- ==== Sys2Proof/Machine/Memory.lean ====
section
/-!
DEFINITION. RAM as a list of (key, byte) cells in one canonical form: keys strictly rising, no cell that holds 0, which
is what an unlisted key reads as (log entry 4). A key is a physical address of one RAM region (`cellKey` in
Machine/Bus.lean).
-/

namespace Sys2Proof.Machine

/-- The byte at a key. -/
def readCell : List Host.Cell → Nat → Byte
  | [], _ => 0#8
  | (k', b) :: m, k => if k = k' then b else readCell m k

/-- The cells without a key. -/
def eraseCell (m : List Host.Cell) (k : Nat) : List Host.Cell := m.filter (fun c => c.1 != k)

/-- Put a cell before the first larger key. -/
def insertCell (k : Nat) (b : Byte) : List Host.Cell → List Host.Cell
  | [] => [(k, b)]
  | c :: m => if k < c.1 then (k, b) :: c :: m else c :: insertCell k b m

/-- Write the byte at a key; writing 0 removes the entry. -/
def writeCell (m : List Host.Cell) (k : Nat) (b : Byte) : List Host.Cell :=
  if b = 0#8 then eraseCell m k else insertCell k b (eraseCell m k)

/-- The little-endian value of `n` bytes from a key on (R54), `n ≤ 4`. -/
def readBytes (m : List Host.Cell) (k : Nat) : Nat → Word
  | 0 => 0#32
  | n + 1 => (readCell m k).setWidth 32 ||| readBytes m (k + 1) n <<< 8

/-- Store the low `n` bytes of a value from a key on, least significant first (R55). -/
def writeBytes (m : List Host.Cell) (k : Nat) : Nat → Word → List Host.Cell
  | 0, _ => m
  | n + 1, v => writeBytes (writeCell m k (v.setWidth 8)) (k + 1) n (v >>> 8)

/-- The canonical form. -/
def Memory.wf (m : List Host.Cell) : Bool :=
  decide (m.Pairwise (fun a b => a.1 < b.1)) && m.all (fun c => c.2 != 0#8)

/-- The cells of a byte string laid out from a key on (R76): bytes that are 0 stay unlisted. -/
def imageCells (k : Nat) : List Byte → List Host.Cell
  | [] => []
  | b :: bs => if b = 0#8 then imageCells (k + 1) bs else (k, b) :: imageCells (k + 1) bs

end Sys2Proof.Machine
end

