-- ==== Sys2Proof/Machine/Bus.lean ====
section
/-!
DEFINITION. The bus as configuration (20_memory.md R50 to R52, R61): which regions it holds, which configurations are
refused, and which region an address selects.
-/

namespace Sys2Proof.Machine

/-- The board's region list for an image of `length` bytes (R61). -/
def boardRegions (length : Nat) : List Region :=
  [⟨Config.boardRamBase, BitVec.ofNat 32 length, .ram⟩, ⟨Config.boardSerialBase, 1#32, .serial⟩]

/-- P_REGIONS in order (R51). -/
def busRegions : BusMap → List Region
  | .board length => boardRegions length
  | .custom regions => regions

/-- A region does not run past 2^32 (R52). -/
def regionFits (r : Region) : Bool := decide (r.base.toNat + r.size.toNat ≤ 2 ^ 32)

/-- The configurations that have a meaning (R52). -/
def busOk : BusMap → Bool
  | .board length => decide (length ≤ Config.maxImageLength)
  | .custom regions => regions.all regionFits

/-- `base ≤ A < base + size`, without wrap-around (R51). -/
def regionContains (r : Region) (a : Word) : Bool :=
  decide (r.base.toNat ≤ a.toNat) && decide (a.toNat < r.base.toNat + r.size.toNat)

/-- The first region that contains an address, with its index counted from `i` (R51). -/
def findRegion : List Region → Nat → Word → Option (Nat × Region)
  | [], _, _ => none
  | r :: rs, i, a => if regionContains r a then some (i, r) else findRegion rs (i + 1) a

/-- An access of `n` bytes at `a` ends inside the region that `a` selects: `o + n ≤ S` for the offset `o` (R54, R56). -/
def accessInside (r : Region) (a : Word) (n : Nat) : Bool :=
  decide (a.toNat + n ≤ r.base.toNat + r.size.toNat)

/-- The memory key of an address in the RAM region with index `bank`. Each region has a byte array of its own (R44,
R54); for the first region, the board's RAM, the key is the address. -/
def cellKey (bank : Nat) (a : Word) : Nat := bank * 2 ^ 32 + a.toNat

/-- The initial cells of the RAM regions, one byte string for each region in order (R76); a serial region's is
unused. -/
def initialCells (i : Nat) : List Region → List (List Byte) → List Host.Cell
  | r :: rs, bytes :: more =>
    (match r.kind with
      | .ram => imageCells (cellKey i r.base) (bytes.take r.size.toNat)
      | .serial => []) ++ initialCells (i + 1) rs more
  | _, _ => []

end Sys2Proof.Machine
end

