-- ==== Sys2Proof/Machine/State.lean ====
section
/-!
DEFINITION. The state (10_state.md R44, with the parameters of 00_scope.md R7 and the host's serial streams of R43(b)),
the reasons a step can stop, and the state after reset (70_reset_and_hazards.md R280).
-/

namespace Sys2Proof.Machine

/-- The state of the machine, all of it plain data. -/
structure State where
  /-- `x0` to `x31` (R20). The slot of `x0` is present but never read (R44). -/
  x : Vector Word 32
  /-- The address of the next instruction to fetch (R24); while `exec` runs, `faulting_PC` (R16). -/
  pc : Word
  /-- Steps taken (R26, R265). -/
  cycle : DWord
  /-- A copy of the attempt count (R26). -/
  time : DWord
  /-- Instructions completed (R26, R265). -/
  instret : DWord
  /-- Trap vector base (R31). -/
  mtvec : Word
  /-- Exception pc (R32). -/
  mepc : Word
  /-- Cause code (R33). -/
  mcause : Word
  /-- Trap value (R34). -/
  mtval : Word
  /-- Scratch (R35). -/
  mscratch : Word
  /-- The halt latch (R28). -/
  halted : Bool
  /-- The halt value (R28, R37). -/
  haltValue : Word
  /-- The bytes of the RAM regions (R44), in the canonical form of Machine/Memory.lean. -/
  mem : List Host.Cell
  /-- The parameters (R7), which no step changes (R43(c)). -/
  params : Params
  /-- P_SERIAL_IN: what the host still answers (R43(b), R57). -/
  serialIn : SerialIn
  /-- P_SERIAL_OUT: what the host has received (R43(b), R58). -/
  serialOut : SerialOut
  /-- The model's own: how many end-of-stream bytes were drawn (R60; log entry 6). -/
  eosDraws : Nat
  deriving DecidableEq, Repr

/-- Why the machine stops with no next state. -/
inductive Fault where
  /-- Raised by a load, store or fetch whose first byte is inside a RAM region and whose last is past its end: the
  model fault of R56 and R119(a). Safe: the spec gives no behaviour. -/
  | ramStraddle
  /-- Raised by a CSR write to a number that is not writable (R40, R119(b)); no instruction reaches it. Safe. -/
  | csrNotWritable
  /-- Raised by a step from a halted state: R111 gives it no step. Safe. -/
  | halted
  /-- Raised by a serial load or fetch that the host does not answer: the core has no step (R293). Safe. -/
  | awaitingSerialInput
  /-- Raised by a serial store that the host does not accept: the core has no step (R293). Safe. -/
  | awaitingSerialOutput
  deriving DecidableEq, Repr

/-- Why something is given no meaning. -/
inductive Refusal where
  /-- Raised by `exec` for an instruction whose meaning is not written yet. Safe. -/
  | notModelled (mnemonic : String)
  /-- Raised by a step under a region list that breaks R52, which the spec refuses before the run (R119(c)). Safe. -/
  | configuration
  deriving DecidableEq, Repr

/-- The state of R280 for given parameters, reset pc, initial bytes of each region, and serial streams. -/
def State.boot (params : Params) (resetPc : Word) (contents : List (List Byte)) (serialIn : SerialIn)
    (serialOut : SerialOut) : State where
  x := Vector.replicate 32 0#32
  pc := resetPc
  cycle := 0#64
  time := 0#64
  instret := 0#64
  mtvec := 0#32
  mepc := 0#32
  mcause := 0#32
  mtval := 0#32
  mscratch := 0#32
  halted := false
  haltValue := 0#32
  mem := initialCells 0 (busRegions params.bus) contents
  params := params
  serialIn := serialIn
  serialOut := serialOut
  eosDraws := 0

/-- The board with an image and serial streams (R61, R76, R281, R288), under the default settings of R7. -/
def State.board (image : List Byte) (serialIn : SerialIn) (serialOut : SerialOut) : State :=
  State.boot ⟨.board image.length, .and, false⟩ Config.boardResetPc [image] serialIn serialOut

/-- The machine right after reset: the board with the empty image (log entry 3), no reader, and a writer that accepts
every byte (log entry 5). -/
def State.reset : State := State.board [] .noReader (.writer [] none)

end Sys2Proof.Machine
end

