-- ==== Sys2Proof/Machine/Operands.lean ====
section
/-!
DEFINITION. The operand forms: registers (10_state.md R20 to R22), extended immediates (30_encoding.md R83 to R88), the
one addressing mode (45_load_store.md R200), and access widths with their extensions (00_scope.md R10, R12).
-/

namespace Sys2Proof.Machine

/-- Register indexes are in range (R104). -/
theorem reg_index_lt (r : Reg) : r.toNat < 32 := r.isLt

/-- `x[r]`: 0 for `x0` (R11, R21). -/
def State.reg (s : State) (r : Reg) : Word :=
  if r = 0#5 then 0#32 else s.x[r.toNat]'(reg_index_lt r)

/-- `x[r] <- v`: nothing for `x0` (R11, R21). -/
def State.setReg (s : State) (r : Reg) (v : Word) : State :=
  if r = 0#5 then s else { s with x := s.x.set r.toNat v (reg_index_lt r) }

/-- `sext_32` of a 12-bit immediate (R83, R84). -/
def imm12 (imm : BitVec 12) : Word := imm.signExtend 32

/-- `sext_32` of a displacement (R85, R87). -/
def displacement {n : Nat} (offset : BitVec n) : Word := offset.signExtend 32

/-- `imm20 << 12`, that is `w[31:12] ∥ 0x000` (R86, R170). -/
def upperImmediate (imm20 : BitVec 20) : Word := imm20 ++ 0#12

/-- The low five bits of a register, the only bits of a shift amount that count (R88, R152). -/
def shiftAmount (v : Word) : BitVec 5 := v.setWidth 5

/-- The effective address `x[rs1] + imm` modulo 2^32 (R69, R200). -/
def State.ea (s : State) (rs1 : Reg) (imm : BitVec 12) : Word := s.reg rs1 + imm12 imm

/-- The access widths (R67). -/
inductive Width where
  | byte
  | half
  | word
  deriving DecidableEq, Repr

/-- How many bytes an access moves (R67). -/
def Width.bytes : Width → Nat
  | .byte => 1
  | .half => 2
  | .word => 4

/-- `sext_32(v[7:0])` (R201). -/
def signByte (v : Word) : Word := (v.setWidth 8).signExtend 32

/-- `sext_32(v[15:0])` (R202). -/
def signHalf (v : Word) : Word := (v.setWidth 16).signExtend 32

/-- `zext_32(v[7:0])` (R204). -/
def zeroByte (v : Word) : Word := (v.setWidth 8).setWidth 32

/-- `zext_32(v[15:0])` (R205). -/
def zeroHalf (v : Word) : Word := (v.setWidth 16).setWidth 32

end Sys2Proof.Machine
end

