-- ==== Sys2Proof/Machine/Flags.lean ====
section
/-!
DEFINITION. The core has no flags (10_state.md R41): comparisons write 0 or 1 to a register or decide a branch. This file
holds those comparisons (00_scope.md R9) and the branch conditions, with P_BGE_STRICT where it applies
(44_control_transfer.md R185, R187).
-/

namespace Sys2Proof.Machine

/-- `a <s b` (R9). -/
def lessSigned (a b : Word) : Bool := decide (a.toInt < b.toInt)

/-- `a <u b` (R9). -/
def lessUnsigned (a b : Word) : Bool := decide (a.toNat < b.toNat)

/-- The 0 or 1 that a comparison writes (R131, R153). -/
def bitValue (c : Bool) : Word := if c then 1#32 else 0#32

/-- BGE's condition: ≥, or > under the strict setting (R185). -/
def atLeastSigned (strict : Bool) (a b : Word) : Bool :=
  if strict then decide (b.toInt < a.toInt) else decide (b.toInt ≤ a.toInt)

/-- BGEU's condition: ≥, or > under the strict setting (R187). -/
def atLeastUnsigned (strict : Bool) (a b : Word) : Bool :=
  if strict then decide (b.toNat < a.toNat) else decide (b.toNat ≤ a.toNat)

end Sys2Proof.Machine
end

