-- ==== Sys2Proof/Decode.lean ====
section
/-!
DEFINITION. Decoding (30_encoding.md R80 to R101): from a word, or from bytes in fetch order, to an instruction or the
name of what makes the word illegal; then the encoder, written from the same layouts. A word is laid out little-endian
(R63, R80).
-/

namespace Sys2Proof

/-! ### Fields (R81) -/

def opcodeField (w : Word) : BitVec 7 := w.extractLsb' 0 7
def rdField (w : Word) : Reg := w.extractLsb' 7 5
def funct3Field (w : Word) : BitVec 3 := w.extractLsb' 12 3
def rs1Field (w : Word) : Reg := w.extractLsb' 15 5
def rs2Field (w : Word) : Reg := w.extractLsb' 20 5
def funct7Field (w : Word) : BitVec 7 := w.extractLsb' 25 7

/-- The I-type field w[31:20] (R83), which is also the CSR number (R89) and the PRIV selector (R96). -/
def iField (w : Word) : BitVec 12 := w.extractLsb' 20 12

/-- The S-type field w[31:25] ∥ w[11:7] (R84). -/
def sField (w : Word) : BitVec 12 := w.extractLsb' 25 7 ++ w.extractLsb' 7 5

/-- The B-type displacement w[31] ∥ w[7] ∥ w[30:25] ∥ w[11:8] ∥ 0 (R85). -/
def bField (w : Word) : BitVec 13 :=
  w.extractLsb' 31 1 ++ w.extractLsb' 7 1 ++ w.extractLsb' 25 6 ++ w.extractLsb' 8 4 ++ 0#1

/-- The raw U-type field w[31:12] (R86). -/
def uField (w : Word) : BitVec 20 := w.extractLsb' 12 20

/-- The J-type displacement w[31] ∥ w[19:12] ∥ w[20] ∥ w[30:21] ∥ 0 (R87). -/
def jField (w : Word) : BitVec 21 :=
  w.extractLsb' 31 1 ++ w.extractLsb' 12 8 ++ w.extractLsb' 20 1 ++ w.extractLsb' 21 10 ++ 0#1

/-! ### Decoding -/

/-- Why a word is no instruction (R98, R251), or why bytes are none: fewer than four of them. -/
inductive Illegal where
  | opcode
  | funct3
  | funct7
  | priv
  | truncated
  deriving DecidableEq, Repr

/-- OP-IMM (R91): every word is legal; the shifts ignore w[31:25] but w[30] (R88). -/
def decodeOpImm (w : Word) : Except Illegal Instr :=
  let rd := rdField w
  let rs1 := rs1Field w
  if funct3Field w = 0#3 then .ok (.addi rd rs1 (iField w))
  else if funct3Field w = 2#3 then .ok (.slti rd rs1 (iField w))
  else if funct3Field w = 3#3 then .ok (.sltiu rd rs1 (iField w))
  else if funct3Field w = 4#3 then .ok (.xori rd rs1 (iField w))
  else if funct3Field w = 6#3 then .ok (.ori rd rs1 (iField w))
  else if funct3Field w = 7#3 then .ok (.andi rd rs1 (iField w))
  else if funct3Field w = 1#3 then .ok (.slli rd rs1 (rs2Field w))
  else if w.getLsbD 30 then .ok (.srai rd rs1 (rs2Field w))
  else .ok (.srli rd rs1 (rs2Field w))

/-- OP (R92, R160): funct7 is decoded strictly. -/
def decodeOp (w : Word) : Except Illegal Instr :=
  let rd := rdField w
  let rs1 := rs1Field w
  let rs2 := rs2Field w
  if funct7Field w = 0#7 then
    if funct3Field w = 0#3 then .ok (.add rd rs1 rs2)
    else if funct3Field w = 1#3 then .ok (.sll rd rs1 rs2)
    else if funct3Field w = 2#3 then .ok (.slt rd rs1 rs2)
    else if funct3Field w = 3#3 then .ok (.sltu rd rs1 rs2)
    else if funct3Field w = 4#3 then .ok (.xor rd rs1 rs2)
    else if funct3Field w = 5#3 then .ok (.srl rd rs1 rs2)
    else if funct3Field w = 6#3 then .ok (.or rd rs1 rs2)
    else .ok (.and rd rs1 rs2)
  else if funct7Field w = 0x20#7 then
    if funct3Field w = 0#3 then .ok (.sub rd rs1 rs2)
    else if funct3Field w = 5#3 then .ok (.sra rd rs1 rs2)
    else .error .funct7
  else .error .funct7

/-- BRANCH (R93). -/
def decodeBranch (w : Word) : Except Illegal Instr :=
  let rs1 := rs1Field w
  let rs2 := rs2Field w
  if funct3Field w = 0#3 then .ok (.beq rs1 rs2 (bField w))
  else if funct3Field w = 1#3 then .ok (.bne rs1 rs2 (bField w))
  else if funct3Field w = 4#3 then .ok (.blt rs1 rs2 (bField w))
  else if funct3Field w = 5#3 then .ok (.bge rs1 rs2 (bField w))
  else if funct3Field w = 6#3 then .ok (.bltu rs1 rs2 (bField w))
  else if funct3Field w = 7#3 then .ok (.bgeu rs1 rs2 (bField w))
  else .error .funct3

/-- LOAD (R94). -/
def decodeLoad (w : Word) : Except Illegal Instr :=
  let rd := rdField w
  let rs1 := rs1Field w
  if funct3Field w = 0#3 then .ok (.lb rd rs1 (iField w))
  else if funct3Field w = 1#3 then .ok (.lh rd rs1 (iField w))
  else if funct3Field w = 2#3 then .ok (.lw rd rs1 (iField w))
  else if funct3Field w = 4#3 then .ok (.lbu rd rs1 (iField w))
  else if funct3Field w = 5#3 then .ok (.lhu rd rs1 (iField w))
  else .error .funct3

/-- STORE (R95). -/
def decodeStore (w : Word) : Except Illegal Instr :=
  let rs1 := rs1Field w
  let rs2 := rs2Field w
  if funct3Field w = 0#3 then .ok (.sb rs1 rs2 (sField w))
  else if funct3Field w = 1#3 then .ok (.sh rs1 rs2 (sField w))
  else if funct3Field w = 2#3 then .ok (.sw rs1 rs2 (sField w))
  else .error .funct3

/-- SYSTEM (R96, R220, R223, R229): for funct3 000 only w[31:20] selects. -/
def decodeSystem (w : Word) : Except Illegal Instr :=
  if funct3Field w = 0#3 then
    if iField w = 0#12 then .ok .ecall
    else if iField w = 1#12 then .ok .ebreak
    else .error .priv
  else if funct3Field w = 1#3 then .ok (.csrrw (rdField w) (iField w) (rs1Field w))
  else if funct3Field w = 2#3 then .ok (.csrrs (rdField w) (iField w) (rs1Field w))
  else if funct3Field w = 3#3 then .ok (.csrrc (rdField w) (iField w) (rs1Field w))
  else .error .funct3

/-- The major opcodes (R90), the whole of the decoder (R101). -/
def decode (w : Word) : Except Illegal Instr :=
  if opcodeField w = 0b0010011#7 then decodeOpImm w
  else if opcodeField w = 0b0110011#7 then decodeOp w
  else if opcodeField w = 0b0110111#7 then .ok (.lui (rdField w) (uField w))
  else if opcodeField w = 0b0010111#7 then .ok (.auipc (rdField w) (uField w))
  else if opcodeField w = 0b1101111#7 then .ok (.jal (rdField w) (jField w))
  else if opcodeField w = 0b1100111#7 then
    if funct3Field w = 0#3 then .ok (.jalr (rdField w) (rs1Field w) (iField w)) else .error .funct3
  else if opcodeField w = 0b1100011#7 then decodeBranch w
  else if opcodeField w = 0b0000011#7 then decodeLoad w
  else if opcodeField w = 0b0100011#7 then decodeStore w
  else if opcodeField w = 0b1110011#7 then decodeSystem w
  else .error .opcode

/-- The word whose four bytes lie at rising addresses, first byte lowest (R54, R63). -/
def wordOfBytes (b0 b1 b2 b3 : Byte) : Word := b3 ++ b2 ++ b1 ++ b0

/-- The four bytes of a word at rising addresses (R63). -/
def bytesOfWord (w : Word) : List Byte :=
  [w.extractLsb' 0 8, w.extractLsb' 8 8, w.extractLsb' 16 8, w.extractLsb' 24 8]

/-- Decode the first instruction of a byte string and give back the rest (R80: four bytes each). -/
def decodeBytes : List Byte → Except Illegal (Instr × List Byte)
  | b0 :: b1 :: b2 :: b3 :: rest =>
    match decode (wordOfBytes b0 b1 b2 b3) with
    | .ok i => .ok (i, rest)
    | .error e => .error e
  | _ => .error .truncated

/-- The word of an opcode-table row: its low `nbits` bits, every bit above them zero. -/
def tableWord (nbits w : Nat) : Word := BitVec.ofNat 32 (w % 2 ^ nbits)

/-- The host's question about the opcode table: the instruction this decoder reads from a row's word. -/
def decodeTableWord (nbits w : Nat) : Option Instr :=
  match decodeBytes (bytesOfWord (tableWord nbits w)) with
  | .ok (i, _) => some i
  | .error _ => none

/-! ### Encoding: the six layouts (R82 to R87) -/

def encodeR (funct7 : BitVec 7) (rs2 rs1 : Reg) (funct3 : BitVec 3) (rd : Reg) (opcode : BitVec 7) : Word :=
  funct7 ++ rs2 ++ rs1 ++ funct3 ++ rd ++ opcode

def encodeI (imm : BitVec 12) (rs1 : Reg) (funct3 : BitVec 3) (rd : Reg) (opcode : BitVec 7) : Word :=
  imm ++ rs1 ++ funct3 ++ rd ++ opcode

def encodeS (imm : BitVec 12) (rs2 rs1 : Reg) (funct3 : BitVec 3) (opcode : BitVec 7) : Word :=
  imm.extractLsb' 5 7 ++ rs2 ++ rs1 ++ funct3 ++ imm.extractLsb' 0 5 ++ opcode

def encodeB (offset : BitVec 13) (rs2 rs1 : Reg) (funct3 : BitVec 3) (opcode : BitVec 7) : Word :=
  offset.extractLsb' 12 1 ++ offset.extractLsb' 5 6 ++ rs2 ++ rs1 ++ funct3 ++ offset.extractLsb' 1 4
    ++ offset.extractLsb' 11 1 ++ opcode

def encodeU (imm20 : BitVec 20) (rd : Reg) (opcode : BitVec 7) : Word :=
  imm20 ++ rd ++ opcode

def encodeJ (offset : BitVec 21) (rd : Reg) (opcode : BitVec 7) : Word :=
  offset.extractLsb' 20 1 ++ offset.extractLsb' 1 10 ++ offset.extractLsb' 11 1 ++ offset.extractLsb' 12 8
    ++ rd ++ opcode

/-- The word of an instruction (R90 to R97), with every ignored bit zero. -/
def encode : Instr → Word
  | .addi rd rs1 imm => encodeI imm rs1 0#3 rd 0b0010011#7
  | .slti rd rs1 imm => encodeI imm rs1 2#3 rd 0b0010011#7
  | .sltiu rd rs1 imm => encodeI imm rs1 3#3 rd 0b0010011#7
  | .xori rd rs1 imm => encodeI imm rs1 4#3 rd 0b0010011#7
  | .ori rd rs1 imm => encodeI imm rs1 6#3 rd 0b0010011#7
  | .andi rd rs1 imm => encodeI imm rs1 7#3 rd 0b0010011#7
  | .slli rd rs1 shamt => encodeR 0x00#7 shamt rs1 1#3 rd 0b0010011#7
  | .srli rd rs1 shamt => encodeR 0x00#7 shamt rs1 5#3 rd 0b0010011#7
  | .srai rd rs1 shamt => encodeR 0x20#7 shamt rs1 5#3 rd 0b0010011#7
  | .add rd rs1 rs2 => encodeR 0x00#7 rs2 rs1 0#3 rd 0b0110011#7
  | .sub rd rs1 rs2 => encodeR 0x20#7 rs2 rs1 0#3 rd 0b0110011#7
  | .sll rd rs1 rs2 => encodeR 0x00#7 rs2 rs1 1#3 rd 0b0110011#7
  | .slt rd rs1 rs2 => encodeR 0x00#7 rs2 rs1 2#3 rd 0b0110011#7
  | .sltu rd rs1 rs2 => encodeR 0x00#7 rs2 rs1 3#3 rd 0b0110011#7
  | .xor rd rs1 rs2 => encodeR 0x00#7 rs2 rs1 4#3 rd 0b0110011#7
  | .srl rd rs1 rs2 => encodeR 0x00#7 rs2 rs1 5#3 rd 0b0110011#7
  | .sra rd rs1 rs2 => encodeR 0x20#7 rs2 rs1 5#3 rd 0b0110011#7
  | .or rd rs1 rs2 => encodeR 0x00#7 rs2 rs1 6#3 rd 0b0110011#7
  | .and rd rs1 rs2 => encodeR 0x00#7 rs2 rs1 7#3 rd 0b0110011#7
  | .lui rd imm20 => encodeU imm20 rd 0b0110111#7
  | .auipc rd imm20 => encodeU imm20 rd 0b0010111#7
  | .jal rd offset => encodeJ offset rd 0b1101111#7
  | .jalr rd rs1 imm => encodeI imm rs1 0#3 rd 0b1100111#7
  | .beq rs1 rs2 offset => encodeB offset rs2 rs1 0#3 0b1100011#7
  | .bne rs1 rs2 offset => encodeB offset rs2 rs1 1#3 0b1100011#7
  | .blt rs1 rs2 offset => encodeB offset rs2 rs1 4#3 0b1100011#7
  | .bge rs1 rs2 offset => encodeB offset rs2 rs1 5#3 0b1100011#7
  | .bltu rs1 rs2 offset => encodeB offset rs2 rs1 6#3 0b1100011#7
  | .bgeu rs1 rs2 offset => encodeB offset rs2 rs1 7#3 0b1100011#7
  | .lb rd rs1 imm => encodeI imm rs1 0#3 rd 0b0000011#7
  | .lh rd rs1 imm => encodeI imm rs1 1#3 rd 0b0000011#7
  | .lw rd rs1 imm => encodeI imm rs1 2#3 rd 0b0000011#7
  | .lbu rd rs1 imm => encodeI imm rs1 4#3 rd 0b0000011#7
  | .lhu rd rs1 imm => encodeI imm rs1 5#3 rd 0b0000011#7
  | .sb rs1 rs2 imm => encodeS imm rs2 rs1 0#3 0b0100011#7
  | .sh rs1 rs2 imm => encodeS imm rs2 rs1 1#3 0b0100011#7
  | .sw rs1 rs2 imm => encodeS imm rs2 rs1 2#3 0b0100011#7
  | .ecall => encodeI 0#12 0#5 0#3 0#5 0b1110011#7
  | .ebreak => encodeI 1#12 0#5 0#3 0#5 0b1110011#7
  | .csrrw rd csr rs1 => encodeI csr rs1 1#3 rd 0b1110011#7
  | .csrrs rd csr rs1 => encodeI csr rs1 2#3 rd 0b1110011#7
  | .csrrc rd csr rs1 => encodeI csr rs1 3#3 rd 0b1110011#7

/-- The bytes of an instruction in fetch order (R63). -/
def encodeBytes (i : Instr) : List Byte := bytesOfWord (encode i)

/-! ### The opcode table -/

/-- A row of spec/opcode_table.json: a word belongs to it when its masked bits are the pattern. -/
structure OpcodeRow where
  pattern : Word
  mask : Word
  deriving DecidableEq, Repr

/-- The rows, copied from spec/opcode_table.json ("match" and "mask"). The decoder does not read them; the statements
compare it with them (R101). -/
def Mnemonic.row : Mnemonic → OpcodeRow
  | .addi => ⟨0x00000013#32, 0x0000707F#32⟩
  | .slti => ⟨0x00002013#32, 0x0000707F#32⟩
  | .sltiu => ⟨0x00003013#32, 0x0000707F#32⟩
  | .xori => ⟨0x00004013#32, 0x0000707F#32⟩
  | .ori => ⟨0x00006013#32, 0x0000707F#32⟩
  | .andi => ⟨0x00007013#32, 0x0000707F#32⟩
  | .slli => ⟨0x00001013#32, 0x0000707F#32⟩
  | .srli => ⟨0x00005013#32, 0x4000707F#32⟩
  | .srai => ⟨0x40005013#32, 0x4000707F#32⟩
  | .add => ⟨0x00000033#32, 0xFE00707F#32⟩
  | .sub => ⟨0x40000033#32, 0xFE00707F#32⟩
  | .sll => ⟨0x00001033#32, 0xFE00707F#32⟩
  | .slt => ⟨0x00002033#32, 0xFE00707F#32⟩
  | .sltu => ⟨0x00003033#32, 0xFE00707F#32⟩
  | .xor => ⟨0x00004033#32, 0xFE00707F#32⟩
  | .srl => ⟨0x00005033#32, 0xFE00707F#32⟩
  | .sra => ⟨0x40005033#32, 0xFE00707F#32⟩
  | .or => ⟨0x00006033#32, 0xFE00707F#32⟩
  | .and => ⟨0x00007033#32, 0xFE00707F#32⟩
  | .lui => ⟨0x00000037#32, 0x0000007F#32⟩
  | .auipc => ⟨0x00000017#32, 0x0000007F#32⟩
  | .jal => ⟨0x0000006F#32, 0x0000007F#32⟩
  | .jalr => ⟨0x00000067#32, 0x0000707F#32⟩
  | .beq => ⟨0x00000063#32, 0x0000707F#32⟩
  | .bne => ⟨0x00001063#32, 0x0000707F#32⟩
  | .blt => ⟨0x00004063#32, 0x0000707F#32⟩
  | .bge => ⟨0x00005063#32, 0x0000707F#32⟩
  | .bltu => ⟨0x00006063#32, 0x0000707F#32⟩
  | .bgeu => ⟨0x00007063#32, 0x0000707F#32⟩
  | .lb => ⟨0x00000003#32, 0x0000707F#32⟩
  | .lh => ⟨0x00001003#32, 0x0000707F#32⟩
  | .lw => ⟨0x00002003#32, 0x0000707F#32⟩
  | .lbu => ⟨0x00004003#32, 0x0000707F#32⟩
  | .lhu => ⟨0x00005003#32, 0x0000707F#32⟩
  | .sb => ⟨0x00000023#32, 0x0000707F#32⟩
  | .sh => ⟨0x00001023#32, 0x0000707F#32⟩
  | .sw => ⟨0x00002023#32, 0x0000707F#32⟩
  | .ecall => ⟨0x00000073#32, 0xFFF0707F#32⟩
  | .ebreak => ⟨0x00100073#32, 0xFFF0707F#32⟩
  | .csrrw => ⟨0x00001073#32, 0x0000707F#32⟩
  | .csrrs => ⟨0x00002073#32, 0x0000707F#32⟩
  | .csrrc => ⟨0x00003073#32, 0x0000707F#32⟩

/-- A word belongs to a row. -/
def OpcodeRow.covers (r : OpcodeRow) (w : Word) : Bool := w &&& r.mask == r.pattern

end Sys2Proof
end

