-- ==== Sys2Proof/Machine/Ops.lean ====
section
/-!
DEFINITION. The operations the instructions share: ending normally, taking an exception (60_exceptions.md R255), the bus
(20_memory.md R51 to R60), the CSR file (10_state.md R29 to R40), fetching (40_step.md R112), and placing an instruction
where the next fetch finds it. There is no return from an exception: the hardware has no such instruction (R259).
-/

namespace Sys2Proof.Machine

/-- Go on with the result of an operation, or stop where it stopped. -/
def andThen {α β : Type} (o : Host.Outcome α Fault Refusal) (f : α → Host.Outcome β Fault Refusal) :
    Host.Outcome β Fault Refusal :=
  match o with
  | .next a => f a
  | .fault r => .fault r
  | .refused r => .refused r

/-! ### Ending an instruction -/

/-- PC_after_fetch (R16, R113). -/
def State.pcAfterFetch (s : State) : Word := s.pc + 4#32

/-- Normal completion with the next pc given (R116, R265): all three counters go up by one, modulo 2^64. -/
def State.retireTo (s : State) (nextPc : Word) : State :=
  { s with pc := nextPc, cycle := s.cycle + 1#64, time := s.time + 1#64, instret := s.instret + 1#64 }

/-- Normal completion of an instruction that writes no pc (R113, R265). -/
def State.retire (s : State) : State := s.retireTo s.pcAfterFetch

/-- The exceptions (R250). -/
inductive ExceptionCause where
  | illegalInstruction
  | breakpoint
  | ecallFromM
  deriving DecidableEq, Repr

/-- The code written to mcause (R250). -/
def ExceptionCause.code : ExceptionCause → Word
  | .illegalInstruction => 2#32
  | .breakpoint => 3#32
  | .ecallFromM => 11#32

/-- mtvec as a read gives it: bits 1:0 are 0 (R31, R38). -/
def readMtvec (s : State) : Word := s.mtvec &&& 0xFFFFFFFC#32

/-- Trap entry (R255, R266), with the pc of `s` the faulting_PC. -/
def takeException (cause : ExceptionCause) (tval : Word) (s : State) : State :=
  { s with
    mtval := tval
    mepc := s.pc &&& 0xFFFFFFFE#32
    mcause := cause.code
    pc := readMtvec s
    cycle := s.cycle + 1#64
    time := s.time + 1#64 }

/-! ### The bus -/

/-- A serial load takes one answer of the host whatever its width (R57, R60, R293). -/
def serialLoad (s : State) : Host.Outcome (Byte × State) Fault Refusal :=
  match s.serialIn with
  | .noReader => .next (0#8, s)
  | .reader (.byte b :: answers) after => .next (b, { s with serialIn := .reader answers after })
  | .reader (.endOfStream :: answers) after =>
    .next (Config.endOfStreamByte s.eosDraws,
      { s with serialIn := .reader answers after, eosDraws := s.eosDraws + 1 })
  | .reader [] .ended => .next (Config.endOfStreamByte s.eosDraws, { s with eosDraws := s.eosDraws + 1 })
  | .reader [] .silent => .fault .awaitingSerialInput

/-- A serial store sends one byte (R58), when the host accepts it (R293). -/
def serialStore (b : Byte) (s : State) : Host.Outcome State Fault Refusal :=
  match s.serialOut with
  | .noWriter => .next s
  | .writer sent none => .next { s with serialOut := .writer (sent ++ [b]) none }
  | .writer sent (some (room + 1)) => .next { s with serialOut := .writer (sent ++ [b]) (some room) }
  | .writer _ (some 0) => .fault .awaitingSerialOutput

/-- The region an address selects (R51). -/
def State.region (s : State) (a : Word) : Option (Nat × Region) := findRegion (busRegions s.params.bus) 0 a

/-- `MemRead(a, n)` (R12, R51 to R60), the value zero-extended to 32 bits. -/
def busLoad (n : Width) (a : Word) (s : State) : Host.Outcome (Word × State) Fault Refusal :=
  match s.region a with
  | none => .next (0#32, s)
  | some (bank, r) =>
    match r.kind with
    | .ram =>
      if accessInside r a n.bytes then .next (readBytes s.mem (cellKey bank a) n.bytes, s) else .fault .ramStraddle
    | .serial => andThen (serialLoad s) fun p => .next (p.1.setWidth 32, p.2)

/-- `MemWrite(a, n, v)` (R12, R51 to R59). -/
def busStore (n : Width) (a v : Word) (s : State) : Host.Outcome State Fault Refusal :=
  match s.region a with
  | none => .next s
  | some (bank, r) =>
    match r.kind with
    | .ram =>
      if accessInside r a n.bytes then .next { s with mem := writeBytes s.mem (cellKey bank a) n.bytes v }
      else .fault .ramStraddle
    | .serial => serialStore (v.setWidth 8) s

/-- The fetch (R112): a word load at the pc, with a data load's effects. The pc is advanced when the instruction ends,
which nothing can tell from the order of R113 (log entry 2). -/
def fetch (s : State) : Host.Outcome (Word × State) Fault Refusal := busLoad .word s.pc s

/-! ### The CSR file -/

/-- The valid CSRs (R29, R30). -/
inductive Csr where
  | mtvec
  | mscratch
  | mepc
  | mcause
  | mtval
  | halt
  | cycle
  | time
  | instret
  | cycleh
  | timeh
  | instreth
  deriving DecidableEq, Repr

/-- The CSR a number names, if it is valid (R29, R30, R45). -/
def csrOfNumber (c : CsrNumber) : Option Csr :=
  if c = 0x305#12 then some .mtvec
  else if c = 0x340#12 then some .mscratch
  else if c = 0x341#12 then some .mepc
  else if c = 0x342#12 then some .mcause
  else if c = 0x343#12 then some .mtval
  else if c = 0x3FF#12 then some .halt
  else if c = 0xC00#12 then some .cycle
  else if c = 0xC01#12 then some .time
  else if c = 0xC02#12 then some .instret
  else if c = 0xC80#12 then some .cycleh
  else if c = 0xC81#12 then some .timeh
  else if c = 0xC82#12 then some .instreth
  else none

/-- `CSRRead` (R38); it has no side effect. -/
def csrRead (s : State) : Csr → Word
  | .mtvec => readMtvec s
  | .mscratch => s.mscratch
  | .mepc => s.mepc &&& 0xFFFFFFFE#32
  | .mcause => s.mcause
  | .mtval => s.mtval
  | .halt => s.haltValue
  | .cycle => s.cycle.extractLsb' 0 32
  | .time => s.time.extractLsb' 0 32
  | .instret => s.instret.extractLsb' 0 32
  | .cycleh => s.cycle.extractLsb' 32 32
  | .timeh => s.time.extractLsb' 32 32
  | .instreth => s.instret.extractLsb' 32 32

/-- `CSRWrite` to a valid CSR (R39); a counter is not writable (R40). -/
def csrWriteTo (c : Csr) (v : Word) (s : State) : Host.Outcome State Fault Refusal :=
  match c with
  | .mtvec => .next { s with mtvec := v &&& 0xFFFFFFFC#32 }
  | .mscratch => .next { s with mscratch := v }
  | .mepc => .next { s with mepc := v &&& 0xFFFFFFFE#32 }
  | .mcause => .next { s with mcause := v }
  | .mtval => .next { s with mtval := v }
  | .halt => .next { s with halted := true, haltValue := v }
  | .cycle => .fault .csrNotWritable
  | .time => .fault .csrNotWritable
  | .instret => .fault .csrNotWritable
  | .cycleh => .fault .csrNotWritable
  | .timeh => .fault .csrNotWritable
  | .instreth => .fault .csrNotWritable

/-- `CSRWrite` (R39): an invalid number is not writable either (R40). -/
def csrWrite (c : CsrNumber) (v : Word) (s : State) : Host.Outcome State Fault Refusal :=
  match csrOfNumber c with
  | some r => csrWriteTo r v s
  | none => .fault .csrNotWritable

/-- The read-only range that the second check of R224 tests. -/
def csrReadOnlyRange (c : CsrNumber) : Bool := decide (0xC00 ≤ c.toNat)

/-- The sequence of R225 after the checks of R224, for a number `csr` that names `c` and the instruction's
`f(old, s)`. -/
def csrSequence (csr : CsrNumber) (c : Csr) (rd rs1 : Reg) (f : Word → Word → Word) (s : State) :
    Host.Outcome State Fault Refusal :=
  let source := s.reg rs1
  let old := csrRead s c
  let s1 := s.setReg rd old
  if rs1 = 0#5 then .next s1.retire
  else andThen (csrWrite csr (f old source) s1) fun s2 => .next s2.retire

/-- CSRRW, CSRRS and CSRRC (R224, R225): `w` is the instruction's own word, the trap value of a failed check. -/
def csrAccess (w : Word) (csr : CsrNumber) (rd rs1 : Reg) (f : Word → Word → Word) (s : State) :
    Host.Outcome State Fault Refusal :=
  match csrOfNumber csr with
  | none => .next (takeException .illegalInstruction w s)
  | some c =>
    if csrReadOnlyRange csr && rs1 != 0#5 then .next (takeException .illegalInstruction w s)
    else csrSequence csr c rd rs1 f s

/-! ### Shapes of instructions -/

/-- An instruction that computes a value into `rd` and goes on to the next one. -/
def writeAndRetire (rd : Reg) (v : Word) (s : State) : Host.Outcome State Fault Refusal :=
  .next (s.setReg rd v).retire

/-- A jump: the link value into `rd`, then the target (R180, R181). -/
def linkAndJump (rd : Reg) (target : Word) (s : State) : Host.Outcome State Fault Refusal :=
  .next ((s.setReg rd s.pcAfterFetch).retireTo target)

/-- A branch: to faulting_PC + offset when the condition holds (R182 to R187). -/
def branchIf (taken : Bool) (offset : BitVec 13) (s : State) : Host.Outcome State Fault Refusal :=
  .next (s.retireTo (if taken then s.pc + displacement offset else s.pcAfterFetch))

/-- A load: one bus read, then `rd` (R200, R209). -/
def loadAndRetire (n : Width) (extend : Word → Word) (rd rs1 : Reg) (imm : BitVec 12) (s : State) :
    Host.Outcome State Fault Refusal :=
  andThen (busLoad n (s.ea rs1 imm) s) fun p => writeAndRetire rd (extend p.1) p.2

/-- A store: one bus write of the low bits of `x[rs2]` (R200, R206 to R208). -/
def storeAndRetire (n : Width) (rs1 rs2 : Reg) (imm : BitVec 12) (s : State) : Host.Outcome State Fault Refusal :=
  andThen (busStore n (s.ea rs1 imm) (s.reg rs2) s) fun s1 => .next s1.retire

/-! ### Placing an instruction for the next fetch (log entry 7) -/

/-- The first region at the pc is RAM and holds the four bytes of a fetch: its index. -/
def fetchBank (s : State) : Option Nat :=
  match s.region s.pc with
  | some (bank, r) => if r.kind = .ram ∧ accessInside r s.pc 4 = true then some bank else none
  | none => none

/-- A RAM region of four bytes at the pc, put before every other region; the regions after it keep their bytes. -/
def withFetchRegion (s : State) : State :=
  { s with
    params := { s.params with bus := .custom (⟨s.pc, 4#32, .ram⟩ :: busRegions s.params.bus) }
    mem := s.mem.map fun c => (c.1 + 2 ^ 32, c.2) }

/-- Room for a fetch at the pc: as it is where RAM is there, with the board's image made longer where the pc is inside
or just past it, and with a region of its own otherwise. -/
def withFetchRoom (s : State) : State :=
  match fetchBank s with
  | some _ => s
  | none =>
    match s.params.bus with
    | .board length =>
      let length' := s.pc.toNat + 4 - Config.boardRamBase.toNat
      if Config.boardRamBase.toNat ≤ s.pc.toNat ∧ s.pc.toNat ≤ Config.boardRamBase.toNat + length
          ∧ length' ≤ Config.maxImageLength then
        { s with params := { s.params with bus := .board length' } }
      else withFetchRegion s
    | .custom _ => withFetchRegion s

/-- A state that can take a step and whose pc leaves room for four bytes: not halted, the empty board in place of a
refused configuration, the board's reset pc in place of a pc in the last three bytes of the space. -/
def readyToFetch (s : State) : State :=
  { s with
    halted := false
    params := if busOk s.params.bus then s.params else { s.params with bus := .board 0 }
    pc := if s.pc.toNat + 4 ≤ 2 ^ 32 then s.pc else Config.boardResetPc }

/-- The state with a word stored where the next step fetches. -/
def placeWord (w : Word) (s : State) : State :=
  let s1 := withFetchRoom (readyToFetch s)
  match fetchBank s1 with
  | some bank => { s1 with mem := writeBytes s1.mem (cellKey bank s1.pc) 4 w }
  | none => s1

end Sys2Proof.Machine
end

