-- ==== Sys2Proof/Machine/ControlTransfer.lean ====
section
/-!
DEFINITION. JAL, JALR and the branches (44_control_transfer.md). `s.pc` is faulting_PC (R16). No target is checked for alignment
(R188) and there is no delay slot (R189). For a branch the docstring gives the condition under which
`pc <- faulting_PC + b_imm`.
-/

namespace Sys2Proof.Machine

/-- JAL (R180): `x[rd] <- PC_after_fetch; pc <- faulting_PC + j_imm`. -/
def execJal (rd : Reg) (offset : BitVec 21) (s : State) : Host.Outcome State Fault Refusal :=
  linkAndJump rd (s.pc + displacement offset) s

/-- JALR (R181): `t <- (x[rs1] + i_imm) & 0xFFFFFFFE; x[rd] <- PC_after_fetch; pc <- t`. -/
def execJalr (rd rs1 : Reg) (imm : BitVec 12) (s : State) : Host.Outcome State Fault Refusal :=
  linkAndJump rd (s.ea rs1 imm &&& 0xFFFFFFFE#32) s

/-- BEQ (R182): `a = b`. -/
def execBeq (rs1 rs2 : Reg) (offset : BitVec 13) (s : State) : Host.Outcome State Fault Refusal :=
  branchIf (decide (s.reg rs1 = s.reg rs2)) offset s

/-- BNE (R183): `a ≠ b`. -/
def execBne (rs1 rs2 : Reg) (offset : BitVec 13) (s : State) : Host.Outcome State Fault Refusal :=
  branchIf (decide (s.reg rs1 ≠ s.reg rs2)) offset s

/-- BLT (R184): `signed(a) < signed(b)`. -/
def execBlt (rs1 rs2 : Reg) (offset : BitVec 13) (s : State) : Host.Outcome State Fault Refusal :=
  branchIf (lessSigned (s.reg rs1) (s.reg rs2)) offset s

/-- BGE (R185): `signed(a) ≥ signed(b)`, or `>` under P_BGE_STRICT. -/
def execBge (rs1 rs2 : Reg) (offset : BitVec 13) (s : State) : Host.Outcome State Fault Refusal :=
  branchIf (atLeastSigned s.params.bgeStrict (s.reg rs1) (s.reg rs2)) offset s

/-- BLTU (R186): `unsigned(a) < unsigned(b)`. -/
def execBltu (rs1 rs2 : Reg) (offset : BitVec 13) (s : State) : Host.Outcome State Fault Refusal :=
  branchIf (lessUnsigned (s.reg rs1) (s.reg rs2)) offset s

/-- BGEU (R187): `unsigned(a) ≥ unsigned(b)`, or `>` under P_BGE_STRICT. -/
def execBgeu (rs1 rs2 : Reg) (offset : BitVec 13) (s : State) : Host.Outcome State Fault Refusal :=
  branchIf (atLeastUnsigned s.params.bgeStrict (s.reg rs1) (s.reg rs2)) offset s

end Sys2Proof.Machine
end

