-- ==== Sys2Proof/Machine/IntegerImmediate.lean ====
section
/-!
DEFINITION. OP-IMM (41_integer_immediate.md): each writes rd and goes on to the next instruction (R139: modulo 2^32, no overflow
detection).
-/

namespace Sys2Proof.Machine

/-- ADDI (R130): `x[rd] <- x[rs1] + imm`. -/
def execAddi (rd rs1 : Reg) (imm : BitVec 12) (s : State) : Host.Outcome State Fault Refusal :=
  writeAndRetire rd (s.reg rs1 + imm12 imm) s

/-- SLTI (R131): `x[rd] <- (signed(x[rs1]) < signed(imm)) ? 1 : 0`. -/
def execSlti (rd rs1 : Reg) (imm : BitVec 12) (s : State) : Host.Outcome State Fault Refusal :=
  writeAndRetire rd (bitValue (lessSigned (s.reg rs1) (imm12 imm))) s

/-- SLTIU (R132): `x[rd] <- (unsigned(x[rs1]) < unsigned(imm)) ? 1 : 0`, with the sign-extended immediate (R139). -/
def execSltiu (rd rs1 : Reg) (imm : BitVec 12) (s : State) : Host.Outcome State Fault Refusal :=
  writeAndRetire rd (bitValue (lessUnsigned (s.reg rs1) (imm12 imm))) s

/-- XORI (R133): `x[rd] <- x[rs1] ^ imm`. -/
def execXori (rd rs1 : Reg) (imm : BitVec 12) (s : State) : Host.Outcome State Fault Refusal :=
  writeAndRetire rd (s.reg rs1 ^^^ imm12 imm) s

/-- ORI (R134): `x[rd] <- x[rs1] | imm`. -/
def execOri (rd rs1 : Reg) (imm : BitVec 12) (s : State) : Host.Outcome State Fault Refusal :=
  writeAndRetire rd (s.reg rs1 ||| imm12 imm) s

/-- ANDI (R135): `x[rd] <- x[rs1] & imm`. -/
def execAndi (rd rs1 : Reg) (imm : BitVec 12) (s : State) : Host.Outcome State Fault Refusal :=
  writeAndRetire rd (s.reg rs1 &&& imm12 imm) s

/-- SLLI (R136): `x[rd] <- x[rs1] << shamt`. -/
def execSlli (rd rs1 : Reg) (shamt : BitVec 5) (s : State) : Host.Outcome State Fault Refusal :=
  writeAndRetire rd (s.reg rs1 <<< shamt.toNat) s

/-- SRLI (R137): `x[rd] <- x[rs1] >>u shamt`. -/
def execSrli (rd rs1 : Reg) (shamt : BitVec 5) (s : State) : Host.Outcome State Fault Refusal :=
  writeAndRetire rd (s.reg rs1 >>> shamt.toNat) s

/-- SRAI (R138): `x[rd] <- x[rs1] >>s shamt`. -/
def execSrai (rd rs1 : Reg) (shamt : BitVec 5) (s : State) : Host.Outcome State Fault Refusal :=
  writeAndRetire rd ((s.reg rs1).sshiftRight shamt.toNat) s

end Sys2Proof.Machine
end

