-- ==== Sys2Proof/Machine/IntegerRegister.lean ====
section
/-!
DEFINITION. OP (42_integer_register.md), with `a = x[rs1]` and `b = x[rs2]` read before rd is written (R115).
-/

namespace Sys2Proof.Machine

/-- ADD (R150): `x[rd] <- a + b`. -/
def execAdd (rd rs1 rs2 : Reg) (s : State) : Host.Outcome State Fault Refusal :=
  writeAndRetire rd (s.reg rs1 + s.reg rs2) s

/-- SUB (R151): `x[rd] <- a − b`. -/
def execSub (rd rs1 rs2 : Reg) (s : State) : Host.Outcome State Fault Refusal :=
  writeAndRetire rd (s.reg rs1 - s.reg rs2) s

/-- SLL (R152): `x[rd] <- a << (b & 0x1F)`. -/
def execSll (rd rs1 rs2 : Reg) (s : State) : Host.Outcome State Fault Refusal :=
  writeAndRetire rd (s.reg rs1 <<< (shiftAmount (s.reg rs2)).toNat) s

/-- SLT (R153): `x[rd] <- (signed(a) < signed(b)) ? 1 : 0`. -/
def execSlt (rd rs1 rs2 : Reg) (s : State) : Host.Outcome State Fault Refusal :=
  writeAndRetire rd (bitValue (lessSigned (s.reg rs1) (s.reg rs2))) s

/-- SLTU (R154): `x[rd] <- (unsigned(a) < unsigned(b)) ? 1 : 0`. -/
def execSltu (rd rs1 rs2 : Reg) (s : State) : Host.Outcome State Fault Refusal :=
  writeAndRetire rd (bitValue (lessUnsigned (s.reg rs1) (s.reg rs2))) s

/-- XOR (R155): `x[rd] <- a ^ b`. -/
def execXor (rd rs1 rs2 : Reg) (s : State) : Host.Outcome State Fault Refusal :=
  writeAndRetire rd (s.reg rs1 ^^^ s.reg rs2) s

/-- SRL (R156): `x[rd] <- a >>u (b & 0x1F)`. -/
def execSrl (rd rs1 rs2 : Reg) (s : State) : Host.Outcome State Fault Refusal :=
  writeAndRetire rd (s.reg rs1 >>> (shiftAmount (s.reg rs2)).toNat) s

/-- SRA (R157): `x[rd] <- a >>s (b & 0x1F)`. -/
def execSra (rd rs1 rs2 : Reg) (s : State) : Host.Outcome State Fault Refusal :=
  writeAndRetire rd ((s.reg rs1).sshiftRight (shiftAmount (s.reg rs2)).toNat) s

/-- OR (R158): `x[rd] <- a | b`. -/
def execOr (rd rs1 rs2 : Reg) (s : State) : Host.Outcome State Fault Refusal :=
  writeAndRetire rd (s.reg rs1 ||| s.reg rs2) s

/-- AND (R159): `x[rd] <- a & b`. -/
def execAnd (rd rs1 rs2 : Reg) (s : State) : Host.Outcome State Fault Refusal :=
  writeAndRetire rd (s.reg rs1 &&& s.reg rs2) s

end Sys2Proof.Machine
end

