-- ==== Sys2Proof/Machine/LoadStore.lean ====
section
/-!
DEFINITION. Loads and stores (45_load_store.md), with `ea = x[rs1] + imm` (R200). None raises an exception; a RAM access that runs
past its region is the model fault of R56.
-/

namespace Sys2Proof.Machine

/-- LB (R201): `x[rd] <- sext_32(MemRead(ea, 1)[7:0])`. -/
def execLb (rd rs1 : Reg) (imm : BitVec 12) (s : State) : Host.Outcome State Fault Refusal :=
  loadAndRetire .byte signByte rd rs1 imm s

/-- LH (R202): `x[rd] <- sext_32(MemRead(ea, 2)[15:0])`. -/
def execLh (rd rs1 : Reg) (imm : BitVec 12) (s : State) : Host.Outcome State Fault Refusal :=
  loadAndRetire .half signHalf rd rs1 imm s

/-- LW (R203): `x[rd] <- MemRead(ea, 4)`. -/
def execLw (rd rs1 : Reg) (imm : BitVec 12) (s : State) : Host.Outcome State Fault Refusal :=
  loadAndRetire .word id rd rs1 imm s

/-- LBU (R204): `x[rd] <- zext_32(MemRead(ea, 1)[7:0])`. -/
def execLbu (rd rs1 : Reg) (imm : BitVec 12) (s : State) : Host.Outcome State Fault Refusal :=
  loadAndRetire .byte zeroByte rd rs1 imm s

/-- LHU (R205): `x[rd] <- zext_32(MemRead(ea, 2)[15:0])`. -/
def execLhu (rd rs1 : Reg) (imm : BitVec 12) (s : State) : Host.Outcome State Fault Refusal :=
  loadAndRetire .half zeroHalf rd rs1 imm s

/-- SB (R206): `MemWrite(ea, 1, x[rs2][7:0])`. -/
def execSb (rs1 rs2 : Reg) (imm : BitVec 12) (s : State) : Host.Outcome State Fault Refusal :=
  storeAndRetire .byte rs1 rs2 imm s

/-- SH (R207): `MemWrite(ea, 2, x[rs2][15:0])`. -/
def execSh (rs1 rs2 : Reg) (imm : BitVec 12) (s : State) : Host.Outcome State Fault Refusal :=
  storeAndRetire .half rs1 rs2 imm s

/-- SW (R208): `MemWrite(ea, 4, x[rs2])`. -/
def execSw (rs1 rs2 : Reg) (imm : BitVec 12) (s : State) : Host.Outcome State Fault Refusal :=
  storeAndRetire .word rs1 rs2 imm s

end Sys2Proof.Machine
end

