-- ==== Sys2Proof/Machine/System.lean ====
section
/-!
DEFINITION. ECALL, EBREAK and the CSR instructions (46_system.md). A CSR instruction that fails its checks traps with its own
word (R224), which is `encode` of it, since a CSR instruction leaves no bit of its word open.
-/

namespace Sys2Proof.Machine

/-- What CSRRS computes from the old value and the source (R227), by P_CSRRS_OP. -/
def csrrsFunction : CsrrsOp → Word → Word → Word
  | .and => fun old source => old &&& source
  | .or => fun old source => old ||| source

/-- ECALL (R221): `raise EcallFromM(faulting_PC)`. -/
def execEcall (s : State) : Host.Outcome State Fault Refusal :=
  .next (takeException .ecallFromM s.pc s)

/-- EBREAK (R222): `raise Breakpoint(faulting_PC)`. -/
def execEbreak (s : State) : Host.Outcome State Fault Refusal :=
  .next (takeException .breakpoint s.pc s)

/-- CSRRW (R226): R224, then R225 with `f(old, s) = s`. -/
def execCsrrw (rd : Reg) (csr : CsrNumber) (rs1 : Reg) (s : State) : Host.Outcome State Fault Refusal :=
  csrAccess (encode (.csrrw rd csr rs1)) csr rd rs1 (fun _ source => source) s

/-- CSRRS (R227): R224, then R225 with `f(old, s) = old & s`, or `old | s` under P_CSRRS_OP = or. -/
def execCsrrs (rd : Reg) (csr : CsrNumber) (rs1 : Reg) (s : State) : Host.Outcome State Fault Refusal :=
  csrAccess (encode (.csrrs rd csr rs1)) csr rd rs1 (csrrsFunction s.params.csrrsOp) s

/-- CSRRC (R228): R224, then R225 with `f(old, s) = old & ~s`. -/
def execCsrrc (rd : Reg) (csr : CsrNumber) (rs1 : Reg) (s : State) : Host.Outcome State Fault Refusal :=
  csrAccess (encode (.csrrc rd csr rs1)) csr rd rs1 (fun old source => old &&& ~~~source) s

end Sys2Proof.Machine
end

