-- ==== Sys2Proof/Machine/UpperImmediate.lean ====
section
/-!
DEFINITION. LUI and AUIPC (43_upper_immediate.md). `s.pc` is faulting_PC (R16).
-/

namespace Sys2Proof.Machine

/-- LUI (R170): `x[rd] <- imm20 << 12`. -/
def execLui (rd : Reg) (imm20 : BitVec 20) (s : State) : Host.Outcome State Fault Refusal :=
  writeAndRetire rd (upperImmediate imm20) s

/-- AUIPC (R171): `x[rd] <- faulting_PC + (imm20 << 12)`. -/
def execAuipc (rd : Reg) (imm20 : BitVec 20) (s : State) : Host.Outcome State Fault Refusal :=
  writeAndRetire rd (s.pc + upperImmediate imm20) s

end Sys2Proof.Machine
end

