-- ==== Sys2Proof/Machine/Step.lean ====
section
/-!
DEFINITION. The step (40_step.md R110 to R117): a refused configuration has none (R52), a halted core has none (R111);
otherwise fetch, decode, and run the instruction or trap on an illegal word.
-/

namespace Sys2Proof.Machine

/-- Decode and dispatch a fetched word (R114): an illegal word traps with itself as the trap value (R98). -/
def runWord (w : Word) (s : State) : Host.Outcome State Fault Refusal :=
  match decode w with
  | .ok i => exec i s
  | .error _ => .next (takeException .illegalInstruction w s)

/-- One step (R117). -/
def step (s : State) : Host.Outcome State Fault Refusal :=
  if busOk s.params.bus then
    if s.halted then .fault .halted else andThen (fetch s) fun p => runWord p.1 p.2
  else .refused .configuration

/-- The state with an opcode-table word stored where the next step fetches (log entry 7). -/
def State.withFetchWord (s : State) (nbits w : Nat) : State := placeWord (tableWord nbits w) s

end Sys2Proof.Machine
end

