-- ==== Sys2Proof/Machine/Execute.lean ====
section
/-!
DEFINITION. `Execute` (40_step.md R121, 70_reset_and_hazards.md R286, R288): step until the halt latch is set, then hand
back the halt value. The source's loop has no limit; here the fuel bounds it, since a run may never end (R287).
-/

namespace Sys2Proof.Machine

/-- How a bounded run ends (R287): at the halt with its value, at a stop, or with the fuel used up. -/
inductive RunEnd where
  | halted (value : Word) (s : State)
  | fault (r : Fault)
  | refused (r : Refusal)
  | outOfFuel (s : State)
  deriving DecidableEq, Repr

/-- Step while not halted, at most `fuel` times (R121). -/
def execute : Nat → State → RunEnd
  | fuel, s =>
    if s.halted then .halted s.haltValue s
    else
      match fuel with
      | 0 => .outOfFuel s
      | fuel + 1 =>
        match step s with
        | .next t => execute fuel t
        | .fault r => .fault r
        | .refused r => .refused r

end Sys2Proof.Machine
end

