-- ==== Sys2Proof/Safety.lean ====
section
/-!
DEFINITION. The words the statements use: what a step leaves unchanged, what it writes, where an address lies, which
steps trap, and what every step keeps. Each is said from the spec's rules and through the model's reads, not through the
operations the meanings call.
-/

namespace Sys2Proof.Machine

/-! ### Frames -/

/-- Every register reads as before. -/
def SameRegs (s t : State) : Prop := ∀ r, t.reg r = s.reg r

/-- `x[rd] <- v` and no other register (R11, R21): x0 reads 0, also when it is `rd`. -/
def RegsAfterWrite (rd : Reg) (v : Word) (s t : State) : Prop :=
  ∀ r, t.reg r = if r = 0#5 then 0#32 else if r = rd then v else s.reg r

/-- The five trap registers (R27) are as before. -/
def SameTrapCsrs (s t : State) : Prop :=
  t.mtvec = s.mtvec ∧ t.mepc = s.mepc ∧ t.mcause = s.mcause ∧ t.mtval = s.mtval ∧ t.mscratch = s.mscratch

/-- The halt latch and value (R28) are as before. -/
def SameHalt (s t : State) : Prop := t.halted = s.halted ∧ t.haltValue = s.haltValue

/-- Every byte of RAM, in every region, reads as before. -/
def SameMemory (s t : State) : Prop := ∀ k, readCell t.mem k = readCell s.mem k

/-- The host's streams, and the model's draw counter, are as before. -/
def SameSerial (s t : State) : Prop :=
  t.serialIn = s.serialIn ∧ t.serialOut = s.serialOut ∧ t.eosDraws = s.eosDraws

/-- The counters after a normal completion (R265). -/
def CountersRetired (s t : State) : Prop :=
  t.cycle = s.cycle + 1#64 ∧ t.time = s.time + 1#64 ∧ t.instret = s.instret + 1#64

/-- The counters after a trap (R266). -/
def CountersTrapped (s t : State) : Prop :=
  t.cycle = s.cycle + 1#64 ∧ t.time = s.time + 1#64 ∧ t.instret = s.instret

/-- The instruction completes at `nextPc`; the trap registers, the halt latch, the streams and the parameters are as
before. -/
def CompletesAt (nextPc : Word) (s t : State) : Prop :=
  t.pc = nextPc ∧ CountersRetired s t ∧ SameTrapCsrs s t ∧ SameHalt s t ∧ SameSerial s t ∧ t.params = s.params

/-- The instruction completes at `nextPc`, `rd` holds `v`, and nothing else is changed. -/
def WritesRegister (rd : Reg) (v nextPc : Word) (s t : State) : Prop :=
  CompletesAt nextPc s t ∧ RegsAfterWrite rd v s t ∧ SameMemory s t

/-- The instruction completes at `nextPc` and changes nothing else. -/
def OnlyMoves (nextPc : Word) (s t : State) : Prop := CompletesAt nextPc s t ∧ SameRegs s t ∧ SameMemory s t

/-- RAM after the low `n` bytes of `v` are stored from key `k` on, least significant first (R55): those bytes, and no
other byte changed. -/
def MemoryAfterStore (k n : Nat) (v : Word) (s t : State) : Prop :=
  (∀ j, j < n → readCell t.mem (k + j) = v.extractLsb' (8 * j) 8) ∧
    ∀ k', (k' < k ∨ k + n ≤ k') → readCell t.mem k' = readCell s.mem k'

/-- Trap entry at the pc of `s` (R255): what it writes, and that it writes nothing else. -/
def TrapTaken (code tval : Word) (s t : State) : Prop :=
  t.mtval = tval ∧ t.mepc = s.pc &&& 0xFFFFFFFE#32 ∧ t.mcause = code ∧ t.pc = s.mtvec &&& 0xFFFFFFFC#32 ∧
    CountersTrapped s t ∧ SameRegs s t ∧ t.mtvec = s.mtvec ∧ t.mscratch = s.mscratch ∧ SameHalt s t ∧
    SameMemory s t ∧ SameSerial s t ∧ t.params = s.params

/-! ### Where an address lies -/

/-- No region contains the address (R53). -/
def Unmapped (s : State) (a : Word) : Prop := s.region a = none

/-- The `n` bytes from `a` on lie in the RAM region that `a` selects (R54); `k` is the key of the first one. -/
def InRam (s : State) (a : Word) (n k : Nat) : Prop :=
  ∃ bank r, s.region a = some (bank, r) ∧ r.kind = .ram ∧ a.toNat + n ≤ r.base.toNat + r.size.toNat ∧
    k = cellKey bank a

/-- The first byte lies in a RAM region and the last one past its end (R56). -/
def StraddlesRam (s : State) (a : Word) (n : Nat) : Prop :=
  ∃ bank r, s.region a = some (bank, r) ∧ r.kind = .ram ∧ r.base.toNat + r.size.toNat < a.toNat + n

/-- The address selects the serial port (R57). -/
def AtSerial (s : State) (a : Word) : Prop := ∃ bank r, s.region a = some (bank, r) ∧ r.kind = .serial

/-! ### The serial streams (log entry 5) -/

/-- The host's answer to a serial read at `s` is the byte `b`, and `u` is the state after it: no reader (R59), a byte
(R57), or the end of the stream, whose byte is the model's free value (R60, log entry 6). -/
def SerialAnswers (s : State) (b : Byte) (u : State) : Prop :=
  (s.serialIn = .noReader ∧ b = 0#8 ∧ u = s) ∨
    (∃ answers after, s.serialIn = .reader (.byte b :: answers) after ∧
      u = { s with serialIn := .reader answers after }) ∨
    (∃ answers after, s.serialIn = .reader (.endOfStream :: answers) after ∧
      b = Config.endOfStreamByte s.eosDraws ∧
      u = { s with serialIn := .reader answers after, eosDraws := s.eosDraws + 1 }) ∨
    (s.serialIn = .reader [] .ended ∧ b = Config.endOfStreamByte s.eosDraws ∧ u = { s with eosDraws := s.eosDraws + 1 })

/-- The host answers no serial read (R293). -/
def InputUnanswered (s : State) : Prop := s.serialIn = .reader [] .silent

/-- The host accepts no serial byte (R293). -/
def OutputUnanswered (s : State) : Prop := ∃ sent, s.serialOut = .writer sent (some 0)

/-! ### Accesses of an instruction -/

/-- The instruction loads `n` bytes at the address `a` (R200 to R205). -/
def LoadsAt (i : Instr) (s : State) (a : Word) (n : Nat) : Prop :=
  ∃ rd rs1 imm, a = s.ea rs1 imm ∧
    (i, n) ∈ [(Instr.lb rd rs1 imm, 1), (.lbu rd rs1 imm, 1), (.lh rd rs1 imm, 2), (.lhu rd rs1 imm, 2),
      (.lw rd rs1 imm, 4)]

/-- The instruction stores `n` bytes at the address `a` (R200, R206 to R208). -/
def StoresAt (i : Instr) (s : State) (a : Word) (n : Nat) : Prop :=
  ∃ rs1 rs2 imm, a = s.ea rs1 imm ∧
    (i, n) ∈ [(Instr.sb rs1 rs2 imm, 1), (.sh rs1 rs2 imm, 2), (.sw rs1 rs2 imm, 4)]

/-! ### CSRs -/

/-- The twelve valid numbers (R29). -/
def validCsrNumbers : List CsrNumber :=
  [0x305#12, 0x340#12, 0x341#12, 0x342#12, 0x343#12, 0x3FF#12, 0xC00#12, 0xC01#12, 0xC02#12, 0xC80#12, 0xC81#12,
    0xC82#12]

/-- The two checks of R224. -/
def csrAccessIllegal (csr : CsrNumber) (rs1 : Reg) : Bool :=
  !validCsrNumbers.contains csr || (decide (0xC00 ≤ csr.toNat) && rs1 != 0#5)

/-- The CSR file after `CSRWrite(csr, v)` (R39), for a writable number. -/
def CsrWritten (csr : CsrNumber) (v : Word) (s t : State) : Prop :=
  t.mtvec = (if csr = 0x305#12 then v &&& 0xFFFFFFFC#32 else s.mtvec) ∧
    t.mscratch = (if csr = 0x340#12 then v else s.mscratch) ∧
    t.mepc = (if csr = 0x341#12 then v &&& 0xFFFFFFFE#32 else s.mepc) ∧
    t.mcause = (if csr = 0x342#12 then v else s.mcause) ∧
    t.mtval = (if csr = 0x343#12 then v else s.mtval) ∧
    t.halted = (if csr = 0x3FF#12 then true else s.halted) ∧
    t.haltValue = (if csr = 0x3FF#12 then v else s.haltValue)

/-! ### Completing -/

/-- The instruction completes from every state: `rd` holds `v s`, the pc is the next word's, and nothing else changes. -/
def Computes (i : Instr) (rd : Reg) (v : State → Word) : Prop :=
  ∀ s, ∃ t, exec i s = .next t ∧ WritesRegister rd (v s) (s.pc + 4#32) s t

/-- The instruction completes from every state at faulting_PC + offset where the condition holds and at the next word
elsewhere, and changes nothing else. -/
def Branches (i : Instr) (offset : BitVec 13) (taken : State → Prop) : Prop :=
  ∀ s, ∃ t, exec i s = .next t ∧ (taken s → OnlyMoves (BitVec.ofInt 32 (s.pc.toInt + offset.toInt)) s t) ∧
    (¬ taken s → OnlyMoves (s.pc + 4#32) s t)

/-- The core can take a step: a configuration that R52 allows, and not halted (R111). -/
def Runnable (s : State) : Prop := busOk s.params.bus = true ∧ s.halted = false

/-- The four bytes at the pc, in RAM, are the word `w`, least significant byte first (R63, R112). -/
def WordAtPc (s : State) (w : Word) : Prop :=
  ∃ k, InRam s s.pc 4 k ∧
    w = wordOfBytes (readCell s.mem k) (readCell s.mem (k + 1)) (readCell s.mem (k + 2)) (readCell s.mem (k + 3))

/-- The step from `s` runs the word `w` at `u`, the state its fetch left: the instruction `w` decodes to, or the
illegal-instruction trap (R98, R114). -/
def RunsWord (w : Word) (s u : State) : Prop :=
  match decode w with
  | .ok i => step s = exec i u
  | .error _ => ∃ t, step s = .next t ∧ TrapTaken 2#32 w u t

/-- The word the step fetches is a CSR instruction that writes the CSR `csr` (R225). -/
def WritesCsrByName (s : State) (csr : CsrNumber) : Prop :=
  ∃ w u rd rs1, fetch s = .next (w, u) ∧ rs1 ≠ 0#5 ∧
    (decode w = .ok (.csrrw rd csr rs1) ∨ decode w = .ok (.csrrs rd csr rs1) ∨ decode w = .ok (.csrrc rd csr rs1))

/-! ### Which steps trap -/

/-- The instructions that raise an exception (R250, R251(d)). -/
def instrTraps : Instr → Bool
  | .addi _ _ _ => false
  | .slti _ _ _ => false
  | .sltiu _ _ _ => false
  | .xori _ _ _ => false
  | .ori _ _ _ => false
  | .andi _ _ _ => false
  | .slli _ _ _ => false
  | .srli _ _ _ => false
  | .srai _ _ _ => false
  | .add _ _ _ => false
  | .sub _ _ _ => false
  | .sll _ _ _ => false
  | .slt _ _ _ => false
  | .sltu _ _ _ => false
  | .xor _ _ _ => false
  | .srl _ _ _ => false
  | .sra _ _ _ => false
  | .or _ _ _ => false
  | .and _ _ _ => false
  | .lui _ _ => false
  | .auipc _ _ => false
  | .jal _ _ => false
  | .jalr _ _ _ => false
  | .beq _ _ _ => false
  | .bne _ _ _ => false
  | .blt _ _ _ => false
  | .bge _ _ _ => false
  | .bltu _ _ _ => false
  | .bgeu _ _ _ => false
  | .lb _ _ _ => false
  | .lh _ _ _ => false
  | .lw _ _ _ => false
  | .lbu _ _ _ => false
  | .lhu _ _ _ => false
  | .sb _ _ _ => false
  | .sh _ _ _ => false
  | .sw _ _ _ => false
  | .ecall => true
  | .ebreak => true
  | .csrrw _ csr rs1 => csrAccessIllegal csr rs1
  | .csrrs _ csr rs1 => csrAccessIllegal csr rs1
  | .csrrc _ csr rs1 => csrAccessIllegal csr rs1

/-- The step raises an exception: its word is illegal, or its instruction raises one (R251). -/
def stepTraps (s : State) : Bool :=
  match fetch s with
  | .next (w, _) =>
    match decode w with
    | .ok i => instrTraps i
    | .error _ => true
  | .fault _ => false
  | .refused _ => false

/-- How many of the first `n` steps raise an exception (R267). -/
def trapCount : Nat → State → Nat
  | 0, _ => 0
  | n + 1, s =>
    (if stepTraps s then 1 else 0) +
      match step s with
      | .next t => trapCount n t
      | .fault _ => 0
      | .refused _ => 0

/-! ### What every step keeps -/

/-- RAM is in its canonical form. -/
def MemoryCanonical (s : State) : Prop := Memory.wf s.mem = true

/-- Every listed cell is a byte of a RAM region (R44). -/
def CellsInRam (s : State) : Prop :=
  ∀ c ∈ s.mem, ∃ bank r, (busRegions s.params.bus)[bank]? = some r ∧ r.kind = .ram ∧ cellKey bank r.base ≤ c.1 ∧
    c.1 < cellKey bank r.base + r.size.toNat

/-- `pc[0] = 0` (R25). -/
def PcEven (s : State) : Prop := s.pc.getLsbD 0 = false

/-- The stored mtvec and mepc have their hardwired bits 0 (R31, R32). -/
def TrapCsrsAligned (s : State) : Prop :=
  s.mtvec.getLsbD 0 = false ∧ s.mtvec.getLsbD 1 = false ∧ s.mepc.getLsbD 0 = false

end Sys2Proof.Machine
end

