-- ==== Sys2Proof/Certificates/Slice0/Obligations.lean ====
section
/-!
DEFINITION. The statements, from the numbered rules of spec/. They use the words of Sys2Proof/Safety.lean: a frame names
every part of the state, so each says what an instruction changes and that it changes nothing else.
-/

open Sys2Proof Sys2Proof.Machine

/-! ### Encoding -/

/-- Decode after encode, on words and on bytes followed by anything (R80 to R97, 95_test_vectors.md L1.10). -/
def Obligations.DecodeInvertsEncode : Prop :=
  ∀ i : Instr, i.wf = true → ∀ rest : List Byte,
    decode (encode i) = .ok i ∧ decodeBytes (encodeBytes i ++ rest) = .ok (i, rest)

/-- Encode after decode, on every word but the shift-immediates and ECALL and EBREAK, whose encodings ignore bits
(R88, R96). -/
def Obligations.EncodeInvertsDecode : Prop :=
  ∀ (w : Word) (i : Instr), decode w = .ok i →
    ¬ (opcodeField w = 0b0010011#7 ∧ (funct3Field w = 1#3 ∨ funct3Field w = 5#3)) → i ≠ .ecall → i ≠ .ebreak →
    encode i = w

/-- A word belongs to a row of spec/opcode_table.json exactly when it decodes to an instruction of that row (R101). So
at most one row has a word, and no row means illegal. -/
def Obligations.TableRowIffDecodes : Prop :=
  ∀ (w : Word) (m : Mnemonic), m.row.covers w = true ↔ ∃ i, decode w = .ok i ∧ i.mnemonic = m

/-- What the decoder gives is well-formed: branch and jump displacements are even (R85, R87). -/
def Obligations.DecodedIsWellFormed : Prop := ∀ (w : Word) (i : Instr), decode w = .ok i → i.wf = true

/-- Each bit of each extended immediate is the instruction's bit that R83 to R87 name. -/
def Obligations.ImmediateFieldsAssemble : Prop :=
  ∀ (w : Word) (j : Nat), j < 32 →
    ((imm12 (iField w)).getLsbD j = if j ≤ 10 then w.getLsbD (j + 20) else w.getLsbD 31) ∧
    ((imm12 (sField w)).getLsbD j =
      if j ≤ 4 then w.getLsbD (j + 7) else if j ≤ 10 then w.getLsbD (j + 20) else w.getLsbD 31) ∧
    ((displacement (bField w)).getLsbD j =
      if j = 0 then false else if j ≤ 4 then w.getLsbD (j + 7) else if j ≤ 10 then w.getLsbD (j + 20)
      else if j = 11 then w.getLsbD 7 else w.getLsbD 31) ∧
    ((upperImmediate (uField w)).getLsbD j = if j ≤ 11 then false else w.getLsbD j) ∧
    ((displacement (jField w)).getLsbD j =
      if j = 0 then false else if j ≤ 10 then w.getLsbD (j + 20) else if j = 11 then w.getLsbD 20
      else if j ≤ 19 then w.getLsbD j else w.getLsbD 31)

/-- Words of the spec's examples, one or more of each family, decode to the instructions they stand for; the last two are
of no row (R101). The names of the two errors are the model's. -/
def Obligations.SampleWordsDecode : Prop :=
  decode 0xFFF00093#32 = .ok (.addi 1#5 0#5 0xFFF#12) ∧
  decode 0x40435293#32 = .ok (.srai 5#5 6#5 4#5) ∧
  decode 0x407302B3#32 = .ok (.sub 5#5 6#5 7#5) ∧
  decode 0x123452B7#32 = .ok (.lui 5#5 0x12345#20) ∧
  decode 0x010000EF#32 = .ok (.jal 1#5 16#21) ∧
  decode 0x005300E7#32 = .ok (.jalr 1#5 6#5 5#12) ∧
  decode 0xF07300E3#32 = .ok (.beq 6#5 7#5 0x1F00#13) ∧
  decode 0x00032283#32 = .ok (.lw 5#5 6#5 0#12) ∧
  decode 0xFE732E23#32 = .ok (.sw 6#5 7#5 0xFFC#12) ∧
  decode 0x000002F3#32 = .ok .ecall ∧
  decode 0x340090F3#32 = .ok (.csrrw 1#5 0x340#12 1#5) ∧
  decode 0x027302B3#32 = .error .funct7 ∧
  decode 0x30200073#32 = .error .priv

/-! ### The step -/

/-- When the bytes at the pc decode to an instruction, the step is `exec` of it at the same state (R112, R114). That
`exec` is given the state with its pc still faulting_PC, where R113 advances the pc before decode, is the model's (log
entry 2, DEDUCED): the instruction's own meaning moves the pc past its word. -/
def Obligations.StepRunsInstructionAtPc : Prop :=
  ∀ (s : State) (k : Nat) (i : Instr), Runnable s → InRam s s.pc 4 k →
    decodeBytes [readCell s.mem k, readCell s.mem (k + 1), readCell s.mem (k + 2), readCell s.mem (k + 3)]
      = .ok (i, []) →
    step s = exec i s

/-- A word that no row of the opcode table has traps as an illegal instruction with itself as the trap value; the words
with an unlisted major opcode are among them (R90, R98). -/
def Obligations.IllegalWordTraps : Prop :=
  (∀ (s : State) (w : Word), Runnable s → WordAtPc s w → (∀ m : Mnemonic, m.row.covers w = false) →
    ∃ t, step s = .next t ∧ TrapTaken 2#32 w s t) ∧
  (∀ w : Word,
    opcodeField w ∉ [0b0010011#7, 0b0110011#7, 0b0110111#7, 0b0010111#7, 0b1101111#7, 0b1100111#7, 0b1100011#7,
      0b0000011#7, 0b0100011#7, 0b1110011#7] → ∀ m : Mnemonic, m.row.covers w = false) ∧
  (∀ m : Mnemonic, m.row.covers 0#32 = false ∧ m.row.covers 0xFFFFFFFF#32 = false)

/-- A fetch from an address in no region reads 0 and traps with trap value 0 (R53, R112, R251). -/
def Obligations.UnmappedFetchTraps : Prop :=
  ∀ s : State, Runnable s → Unmapped s s.pc → ∃ t, step s = .next t ∧ TrapTaken 2#32 0#32 s t

/-- A fetch from the serial port takes one answer of the host and runs its byte, zero-extended, as the instruction word
(R57, R60, R68, R112); with no reader the word is 0 and traps. At the end of the stream the byte is the model's free value
(log entry 6), and the statement holds whatever that value is. The streams are held as log entry 5 says, and that `exec` is
given a state whose pc is still faulting_PC is the model's (log entry 2, DEDUCED). -/
def Obligations.SerialFetchRunsInputByte : Prop :=
  ∀ s : State, Runnable s → AtSerial s s.pc →
    (∀ (b : Byte) (u : State), SerialAnswers s b u → RunsWord (b.setWidth 32) s u) ∧
    (s.serialIn = .noReader → ∃ t, step s = .next t ∧ TrapTaken 2#32 0#32 s t)

/-- A halted core has no step (R111), and no other state stops for that reason. That the step answers a fault named
`halted` is the model's (log entry 8, DEDUCED), and so is that it looks at the configuration first (log entry 9,
DEDUCED). -/
def Obligations.HaltedCoreHasNoStep : Prop :=
  ∀ s : State, (s.halted = true → ∀ t, step s ≠ .next t) ∧
    (step s = .fault .halted ↔ busOk s.params.bus = true ∧ s.halted = true)

/-- The machine refuses exactly the configurations that break R52: a board image longer than 0xFFFFFEFE, or a region
past 2^32. The board's two regions do not overlap, and a region of size 0 contains no address. That `step` itself answers
the refusal, of a halted core too, is the model's (log entry 9, DEDUCED): the spec refuses before the run. -/
def Obligations.OnlyBadConfigurationIsRefused : Prop :=
  (∀ (s : State) (r : Refusal), step s = .refused r ↔
    r = .configuration ∧
      ((∃ length, s.params.bus = .board length ∧ 0xFFFFFEFE < length) ∨
        ∃ regions, s.params.bus = .custom regions ∧ ∃ q ∈ regions, 2 ^ 32 < q.base.toNat + q.size.toNat)) ∧
  (∀ (length : Nat) (a : Word), length ≤ 0xFFFFFEFE → ∀ p ∈ busRegions (.board length), ∀ q ∈ busRegions (.board length),
    regionContains p a = true → regionContains q a = true → p = q) ∧
  (∀ (r : Region) (a : Word), r.size = 0#32 → regionContains r a = false)

/-- A step stops with a fault only on a halted core (R111), on a fetch, load or store that straddles the end of a RAM
region (R119), and on a fetch or load from the serial port, or a store to it, that the host does not answer (R293); a CSR
write to a number that is not writable is never why (R40). That the halted core and the unanswered access are faults, and
their names, is the model's (log entry 8, DEDUCED); the streams are held as log entry 5 says. -/
def Obligations.StepFaultsOnlyWhereSpecStops : Prop :=
  ∀ (s : State) (r : Fault), step s = .fault r →
    (r = .halted ∧ s.halted = true) ∨
    (r = .ramStraddle ∧ StraddlesRam s s.pc 4) ∨
    (r = .awaitingSerialInput ∧ AtSerial s s.pc ∧ InputUnanswered s) ∨
    ∃ w u i a n, fetch s = .next (w, u) ∧ decode w = .ok i ∧
      ((r = .ramStraddle ∧ (LoadsAt i u a n ∨ StoresAt i u a n) ∧ StraddlesRam u a n) ∨
        (r = .awaitingSerialInput ∧ LoadsAt i u a n ∧ AtSerial u a ∧ InputUnanswered u) ∨
        (r = .awaitingSerialOutput ∧ StoresAt i u a n ∧ AtSerial u a ∧ OutputUnanswered u))

/-- Every instruction but the loads and stores answers a next state from every state: its normal completion, or the trap
it raises (R116). A model fault and a wait need a memory access (R119, R293), and no other exception exists (R252, R254). -/
def Obligations.NonMemoryInstructionsComplete : Prop :=
  ∀ (i : Instr) (s : State), i.mnemonic ∉ [.lb, .lh, .lw, .lbu, .lhu, .sb, .sh, .sw] → ∃ t, exec i s = .next t

/-! ### OP-IMM -/

/-- ADDI, SLTI and SLTIU (R130 to R132): encoding, value, and that nothing else changes. -/
def Obligations.ImmediateArithmeticResults : Prop :=
  ∀ (rd rs1 : Reg) (imm : BitVec 12),
    (decode (encodeI imm rs1 0#3 rd 0b0010011#7) = .ok (.addi rd rs1 imm) ∧
      Computes (.addi rd rs1 imm) rd fun s => BitVec.ofInt 32 ((s.reg rs1).toInt + imm.toInt)) ∧
    (decode (encodeI imm rs1 2#3 rd 0b0010011#7) = .ok (.slti rd rs1 imm) ∧
      Computes (.slti rd rs1 imm) rd fun s => if (s.reg rs1).toInt < imm.toInt then 1#32 else 0#32) ∧
    (decode (encodeI imm rs1 3#3 rd 0b0010011#7) = .ok (.sltiu rd rs1 imm) ∧
      Computes (.sltiu rd rs1 imm) rd fun s =>
        if (s.reg rs1).toNat < (BitVec.ofInt 32 imm.toInt).toNat then 1#32 else 0#32)

/-- XORI, ORI and ANDI (R133 to R135), bit by bit: bits 11 and above of the immediate operand are its bit 11. -/
def Obligations.ImmediateLogicResults : Prop :=
  ∀ (rd rs1 : Reg) (imm : BitVec 12),
    (decode (encodeI imm rs1 4#3 rd 0b0010011#7) = .ok (.xori rd rs1 imm) ∧
      Computes (.xori rd rs1 imm) rd fun s =>
        BitVec.ofFnLE fun j : Fin 32 => xor ((s.reg rs1).getLsbD j) (imm.getLsbD (min j 11))) ∧
    (decode (encodeI imm rs1 6#3 rd 0b0010011#7) = .ok (.ori rd rs1 imm) ∧
      Computes (.ori rd rs1 imm) rd fun s =>
        BitVec.ofFnLE fun j : Fin 32 => (s.reg rs1).getLsbD j || imm.getLsbD (min j 11)) ∧
    (decode (encodeI imm rs1 7#3 rd 0b0010011#7) = .ok (.andi rd rs1 imm) ∧
      Computes (.andi rd rs1 imm) rd fun s =>
        BitVec.ofFnLE fun j : Fin 32 => (s.reg rs1).getLsbD j && imm.getLsbD (min j 11))

/-- SLLI, SRLI and SRAI (R136 to R138): whatever w[31:25] holds, but for w[30] of the right shifts, the word is legal and
shifts by w[24:20]. `high` is w[31:25], so its bit 5 is w[30]. -/
def Obligations.ImmediateShiftResults : Prop :=
  ∀ (rd rs1 : Reg) (shamt : BitVec 5) (high : BitVec 7),
    (decode (encodeR high shamt rs1 1#3 rd 0b0010011#7) = .ok (.slli rd rs1 shamt) ∧
      Computes (.slli rd rs1 shamt) rd fun s => BitVec.ofNat 32 ((s.reg rs1).toNat * 2 ^ shamt.toNat)) ∧
    (high.getLsbD 5 = false →
      decode (encodeR high shamt rs1 5#3 rd 0b0010011#7) = .ok (.srli rd rs1 shamt)) ∧
    (Computes (.srli rd rs1 shamt) rd fun s => BitVec.ofNat 32 ((s.reg rs1).toNat / 2 ^ shamt.toNat)) ∧
    (high.getLsbD 5 = true →
      decode (encodeR high shamt rs1 5#3 rd 0b0010011#7) = .ok (.srai rd rs1 shamt)) ∧
    (Computes (.srai rd rs1 shamt) rd fun s => BitVec.ofInt 32 ((s.reg rs1).toInt / 2 ^ shamt.toNat))

/-! ### OP -/

/-- ADD and SUB (R150, R151). -/
def Obligations.RegisterAddSubResults : Prop :=
  ∀ rd rs1 rs2 : Reg,
    (decode (encodeR 0#7 rs2 rs1 0#3 rd 0b0110011#7) = .ok (.add rd rs1 rs2) ∧
      Computes (.add rd rs1 rs2) rd fun s => BitVec.ofInt 32 ((s.reg rs1).toInt + (s.reg rs2).toInt)) ∧
    (decode (encodeR 0x20#7 rs2 rs1 0#3 rd 0b0110011#7) = .ok (.sub rd rs1 rs2) ∧
      Computes (.sub rd rs1 rs2) rd fun s => BitVec.ofInt 32 ((s.reg rs1).toInt - (s.reg rs2).toInt))

/-- SLT and SLTU (R153, R154). -/
def Obligations.RegisterCompareResults : Prop :=
  ∀ rd rs1 rs2 : Reg,
    (decode (encodeR 0#7 rs2 rs1 2#3 rd 0b0110011#7) = .ok (.slt rd rs1 rs2) ∧
      Computes (.slt rd rs1 rs2) rd fun s => if (s.reg rs1).toInt < (s.reg rs2).toInt then 1#32 else 0#32) ∧
    (decode (encodeR 0#7 rs2 rs1 3#3 rd 0b0110011#7) = .ok (.sltu rd rs1 rs2) ∧
      Computes (.sltu rd rs1 rs2) rd fun s => if (s.reg rs1).toNat < (s.reg rs2).toNat then 1#32 else 0#32)

/-- XOR, OR and AND (R155, R158, R159), bit by bit. -/
def Obligations.RegisterLogicResults : Prop :=
  ∀ rd rs1 rs2 : Reg,
    (decode (encodeR 0#7 rs2 rs1 4#3 rd 0b0110011#7) = .ok (.xor rd rs1 rs2) ∧
      Computes (.xor rd rs1 rs2) rd fun s =>
        BitVec.ofFnLE fun j : Fin 32 => xor ((s.reg rs1).getLsbD j) ((s.reg rs2).getLsbD j)) ∧
    (decode (encodeR 0#7 rs2 rs1 6#3 rd 0b0110011#7) = .ok (.or rd rs1 rs2) ∧
      Computes (.or rd rs1 rs2) rd fun s =>
        BitVec.ofFnLE fun j : Fin 32 => (s.reg rs1).getLsbD j || (s.reg rs2).getLsbD j) ∧
    (decode (encodeR 0#7 rs2 rs1 7#3 rd 0b0110011#7) = .ok (.and rd rs1 rs2) ∧
      Computes (.and rd rs1 rs2) rd fun s =>
        BitVec.ofFnLE fun j : Fin 32 => (s.reg rs1).getLsbD j && (s.reg rs2).getLsbD j)

/-- SLL, SRL and SRA (R152, R156, R157): only the low five bits of x[rs2] count. -/
def Obligations.RegisterShiftResults : Prop :=
  ∀ rd rs1 rs2 : Reg,
    (decode (encodeR 0#7 rs2 rs1 1#3 rd 0b0110011#7) = .ok (.sll rd rs1 rs2) ∧
      Computes (.sll rd rs1 rs2) rd fun s => BitVec.ofNat 32 ((s.reg rs1).toNat * 2 ^ ((s.reg rs2).toNat % 32))) ∧
    (decode (encodeR 0#7 rs2 rs1 5#3 rd 0b0110011#7) = .ok (.srl rd rs1 rs2) ∧
      Computes (.srl rd rs1 rs2) rd fun s => BitVec.ofNat 32 ((s.reg rs1).toNat / 2 ^ ((s.reg rs2).toNat % 32))) ∧
    (decode (encodeR 0x20#7 rs2 rs1 5#3 rd 0b0110011#7) = .ok (.sra rd rs1 rs2) ∧
      Computes (.sra rd rs1 rs2) rd fun s => BitVec.ofInt 32 ((s.reg rs1).toInt / 2 ^ ((s.reg rs2).toNat % 32)))

/-! ### Upper immediates and control transfer -/

/-- LUI and AUIPC (R170, R171): the base is the instruction's own address. -/
def Obligations.UpperImmediateResults : Prop :=
  ∀ (rd : Reg) (imm20 : BitVec 20),
    (decode (encodeU imm20 rd 0b0110111#7) = .ok (.lui rd imm20) ∧
      Computes (.lui rd imm20) rd fun _ => BitVec.ofNat 32 (imm20.toNat * 2 ^ 12)) ∧
    (decode (encodeU imm20 rd 0b0010111#7) = .ok (.auipc rd imm20) ∧
      Computes (.auipc rd imm20) rd fun s => BitVec.ofNat 32 (s.pc.toNat + imm20.toNat * 2 ^ 12))

/-- JAL and JALR (R180, R181): the link value is PC_after_fetch, and JALR's target comes from the old x[rs1] with bit 0
cleared, also when `rd` is `rs1`. A JALR-opcode word with another funct3 traps as illegal with itself as the trap
value. -/
def Obligations.JumpResults : Prop :=
  (∀ (rd : Reg) (offset : BitVec 21),
    (evenOffset offset = true → decode (encodeJ offset rd 0b1101111#7) = .ok (.jal rd offset)) ∧
    ∀ s, ∃ t, exec (.jal rd offset) s = .next t ∧
      WritesRegister rd (s.pc + 4#32) (BitVec.ofInt 32 (s.pc.toInt + offset.toInt)) s t) ∧
  (∀ (rd rs1 : Reg) (imm : BitVec 12),
    decode (encodeI imm rs1 0#3 rd 0b1100111#7) = .ok (.jalr rd rs1 imm) ∧
    ∀ s, ∃ t, exec (.jalr rd rs1 imm) s = .next t ∧
      WritesRegister rd (s.pc + 4#32)
        (BitVec.ofNat 32 (2 * ((BitVec.ofInt 32 ((s.reg rs1).toInt + imm.toInt)).toNat / 2))) s t) ∧
  (∀ (s : State) (w : Word), Runnable s → WordAtPc s w → opcodeField w = 0b1100111#7 → funct3Field w ≠ 0#3 →
    ∃ t, step s = .next t ∧ TrapTaken 2#32 w s t)

/-- BEQ and BNE (R182, R183). -/
def Obligations.EqualityBranchResults : Prop :=
  ∀ (rs1 rs2 : Reg) (offset : BitVec 13),
    (evenOffset offset = true → decode (encodeB offset rs2 rs1 0#3 0b1100011#7) = .ok (.beq rs1 rs2 offset)) ∧
    (Branches (.beq rs1 rs2 offset) offset fun s => s.reg rs1 = s.reg rs2) ∧
    (evenOffset offset = true → decode (encodeB offset rs2 rs1 1#3 0b1100011#7) = .ok (.bne rs1 rs2 offset)) ∧
    (Branches (.bne rs1 rs2 offset) offset fun s => s.reg rs1 ≠ s.reg rs2)

/-- BLT and BLTU (R184, R186). -/
def Obligations.LessThanBranchResults : Prop :=
  ∀ (rs1 rs2 : Reg) (offset : BitVec 13),
    (evenOffset offset = true → decode (encodeB offset rs2 rs1 4#3 0b1100011#7) = .ok (.blt rs1 rs2 offset)) ∧
    (Branches (.blt rs1 rs2 offset) offset fun s => (s.reg rs1).toInt < (s.reg rs2).toInt) ∧
    (evenOffset offset = true → decode (encodeB offset rs2 rs1 6#3 0b1100011#7) = .ok (.bltu rs1 rs2 offset)) ∧
    (Branches (.bltu rs1 rs2 offset) offset fun s => (s.reg rs1).toNat < (s.reg rs2).toNat)

/-- BGE and BGEU (R185, R187), under both settings of P_BGE_STRICT. -/
def Obligations.GreaterOrEqualBranchResults : Prop :=
  ∀ (rs1 rs2 : Reg) (offset : BitVec 13),
    (evenOffset offset = true → decode (encodeB offset rs2 rs1 5#3 0b1100011#7) = .ok (.bge rs1 rs2 offset)) ∧
    (Branches (.bge rs1 rs2 offset) offset fun s =>
      (s.params.bgeStrict = false ∧ (s.reg rs1).toInt ≥ (s.reg rs2).toInt) ∨
        (s.params.bgeStrict = true ∧ (s.reg rs1).toInt > (s.reg rs2).toInt)) ∧
    (evenOffset offset = true → decode (encodeB offset rs2 rs1 7#3 0b1100011#7) = .ok (.bgeu rs1 rs2 offset)) ∧
    (Branches (.bgeu rs1 rs2 offset) offset fun s =>
      (s.params.bgeStrict = false ∧ (s.reg rs1).toNat ≥ (s.reg rs2).toNat) ∨
        (s.params.bgeStrict = true ∧ (s.reg rs1).toNat > (s.reg rs2).toNat))

/-! ### Loads and stores -/

/-- Loads from RAM (R54, R201 to R205): the bytes from x[rs1] + imm on, least significant first, extended; any alignment
(R65). -/
def Obligations.LoadsFromRam : Prop :=
  ∀ (s : State) (rd rs1 : Reg) (imm : BitVec 12) (k : Nat),
    (InRam s (s.ea rs1 imm) 1 k →
      ∀ p ∈ [(Instr.lb rd rs1 imm, (readCell s.mem k).signExtend 32),
        (Instr.lbu rd rs1 imm, (readCell s.mem k).setWidth 32)],
        ∃ t, exec p.1 s = .next t ∧ WritesRegister rd p.2 (s.pc + 4#32) s t) ∧
    (InRam s (s.ea rs1 imm) 2 k →
      ∀ p ∈ [(Instr.lh rd rs1 imm, (readCell s.mem (k + 1) ++ readCell s.mem k).signExtend 32),
        (Instr.lhu rd rs1 imm, (readCell s.mem (k + 1) ++ readCell s.mem k).setWidth 32)],
        ∃ t, exec p.1 s = .next t ∧ WritesRegister rd p.2 (s.pc + 4#32) s t) ∧
    (InRam s (s.ea rs1 imm) 4 k →
      ∃ t, exec (.lw rd rs1 imm) s = .next t ∧
        WritesRegister rd (readCell s.mem (k + 3) ++ readCell s.mem (k + 2) ++ readCell s.mem (k + 1) ++
          readCell s.mem k) (s.pc + 4#32) s t)

/-- The address of a load or store is x[rs1] plus the signed displacement, modulo 2^32, and one in no region loads 0
(R53, R69, R200). -/
def Obligations.LoadsFromUnmapped : Prop :=
  ∀ (s : State) (rd rs1 : Reg) (imm : BitVec 12),
    s.ea rs1 imm = BitVec.ofInt 32 ((s.reg rs1).toInt + imm.toInt) ∧
    (Unmapped s (BitVec.ofInt 32 ((s.reg rs1).toInt + imm.toInt)) →
      ∀ i ∈ [Instr.lb rd rs1 imm, .lh rd rs1 imm, .lw rd rs1 imm, .lbu rd rs1 imm, .lhu rd rs1 imm],
        ∃ t, exec i s = .next t ∧ WritesRegister rd 0#32 (s.pc + 4#32) s t)

/-- Loads from the serial port (R57, R59, R60, R209): one answer for each load whatever its width, a byte that LB
sign-extends and every other load zero-extends, also when `rd` is x0; no reader gives 0. At the end of the stream the byte
is the model's free value (log entry 6), and the statement holds whatever that value is. The stream is held as log entry 5
says. -/
def Obligations.LoadsFromSerial : Prop :=
  ∀ (s : State) (rd rs1 : Reg) (imm : BitVec 12), AtSerial s (s.ea rs1 imm) →
    ∀ (b : Byte) (u : State), SerialAnswers s b u →
      ∀ p ∈ [(Instr.lb rd rs1 imm, b.signExtend 32), (Instr.lh rd rs1 imm, b.setWidth 32),
        (Instr.lw rd rs1 imm, b.setWidth 32), (Instr.lbu rd rs1 imm, b.setWidth 32),
        (Instr.lhu rd rs1 imm, b.setWidth 32)],
        ∃ t, exec p.1 s = .next t ∧ WritesRegister rd p.2 (s.pc + 4#32) u t

/-- Stores to RAM (R55, R206 to R208): the low bytes of x[rs2] from x[rs1] + imm on, least significant first, and no other
byte; any alignment (R65). -/
def Obligations.StoresToRam : Prop :=
  ∀ (s : State) (rs1 rs2 : Reg) (imm : BitVec 12) (k : Nat),
    ∀ p ∈ [(Instr.sb rs1 rs2 imm, 1), (Instr.sh rs1 rs2 imm, 2), (Instr.sw rs1 rs2 imm, 4)],
      InRam s (s.ea rs1 imm) p.2 k →
      ∃ t, exec p.1 s = .next t ∧ CompletesAt (s.pc + 4#32) s t ∧ SameRegs s t ∧
        MemoryAfterStore k p.2 (s.reg rs2) s t

/-- A store to an address in no region changes nothing (R53). -/
def Obligations.StoresToUnmapped : Prop :=
  ∀ (s : State) (rs1 rs2 : Reg) (imm : BitVec 12), Unmapped s (s.ea rs1 imm) →
    ∀ i ∈ [Instr.sb rs1 rs2 imm, .sh rs1 rs2 imm, .sw rs1 rs2 imm],
      ∃ t, exec i s = .next t ∧ OnlyMoves (s.pc + 4#32) s t

/-- A store of any width to the serial port sends the low byte of x[rs2]; with no writer it changes nothing (R58, R59).
That a writer may have a count of bytes it still accepts, which a store takes one from, is the model's (log entry 5, DESIGN
CHOICE). -/
def Obligations.StoresToSerial : Prop :=
  ∀ (s : State) (rs1 rs2 : Reg) (imm : BitVec 12), AtSerial s (s.ea rs1 imm) →
    ∀ u : State,
      ((s.serialOut = .noWriter ∧ u = s) ∨
        (∃ sent, s.serialOut = .writer sent none ∧
          u = { s with serialOut := .writer (sent ++ [(s.reg rs2).extractLsb' 0 8]) none }) ∨
        (∃ sent room, s.serialOut = .writer sent (some (room + 1)) ∧
          u = { s with serialOut := .writer (sent ++ [(s.reg rs2).extractLsb' 0 8]) (some room) })) →
      ∀ i ∈ [Instr.sb rs1 rs2 imm, .sh rs1 rs2 imm, .sw rs1 rs2 imm],
        ∃ t, exec i s = .next t ∧ OnlyMoves (s.pc + 4#32) u t

/-- A RAM access that runs past its region's end is a model fault, in a load, a store and a fetch (R56, R119). A byte
access cannot: its first byte is its last. -/
def Obligations.RamStraddleFaults : Prop :=
  (∀ (s : State) (rd rs1 : Reg) (imm : BitVec 12),
    ∀ p ∈ [(Instr.lh rd rs1 imm, 2), (Instr.lw rd rs1 imm, 4), (Instr.lhu rd rs1 imm, 2)],
      StraddlesRam s (s.ea rs1 imm) p.2 → exec p.1 s = .fault .ramStraddle) ∧
  (∀ (s : State) (rs1 rs2 : Reg) (imm : BitVec 12),
    ∀ p ∈ [(Instr.sh rs1 rs2 imm, 2), (Instr.sw rs1 rs2 imm, 4)],
      StraddlesRam s (s.ea rs1 imm) p.2 → exec p.1 s = .fault .ramStraddle) ∧
  (∀ s : State, Runnable s → StraddlesRam s s.pc 4 → step s = .fault .ramStraddle) ∧
  (∀ (s : State) (a : Word), ¬ StraddlesRam s a 1)

/-- A serial access that the host does not answer has no next state (R293): a fetch (R112), a load and a store. The two
named faults are the model's (log entry 8, DEDUCED), and so is how State holds a host that answers no more (log entry 5,
DESIGN CHOICE). -/
def Obligations.UnansweredSerialAccessStops : Prop :=
  (∀ s : State, Runnable s → AtSerial s s.pc → InputUnanswered s → step s = .fault .awaitingSerialInput) ∧
  (∀ (s : State) (rd rs1 : Reg) (imm : BitVec 12), AtSerial s (s.ea rs1 imm) → InputUnanswered s →
    ∀ i ∈ [Instr.lb rd rs1 imm, .lh rd rs1 imm, .lw rd rs1 imm, .lbu rd rs1 imm, .lhu rd rs1 imm],
      exec i s = .fault .awaitingSerialInput) ∧
  (∀ (s : State) (rs1 rs2 : Reg) (imm : BitVec 12), AtSerial s (s.ea rs1 imm) → OutputUnanswered s →
    ∀ i ∈ [Instr.sb rs1 rs2 imm, .sh rs1 rs2 imm, .sw rs1 rs2 imm], exec i s = .fault .awaitingSerialOutput)

/-! ### System -/

/-- ECALL (R221) takes cause 11 and EBREAK (R222) cause 3, each with its own address as the trap value, by the trap entry
of R255; their rd and rs1 fields are ignored. -/
def Obligations.EcallAndEbreakTrap : Prop :=
  (∀ rd rs1 : Reg, decode (encodeI 0#12 rs1 0#3 rd 0b1110011#7) = .ok .ecall ∧
    decode (encodeI 1#12 rs1 0#3 rd 0b1110011#7) = .ok .ebreak) ∧
  (∀ s : State, ∃ t, exec .ecall s = .next t ∧ TrapTaken 11#32 s.pc s t) ∧
  (∀ s : State, ∃ t, exec .ebreak s = .next t ∧ TrapTaken 3#32 s.pc s t)

/-- With rs1 = x0 the three CSR instructions read any of the twelve CSRs and write none (R36, R38, R225). A counter gives
its value before this instruction's increment. -/
def Obligations.CsrReadsWithX0 : Prop :=
  ∀ (s : State) (rd : Reg),
    ∀ p ∈ [(0x305#12, s.mtvec &&& 0xFFFFFFFC#32), (0x340#12, s.mscratch), (0x341#12, s.mepc &&& 0xFFFFFFFE#32),
      (0x342#12, s.mcause), (0x343#12, s.mtval), (0x3FF#12, s.haltValue),
      (0xC00#12, BitVec.ofNat 32 s.cycle.toNat), (0xC80#12, BitVec.ofNat 32 (s.cycle.toNat / 2 ^ 32)),
      (0xC01#12, BitVec.ofNat 32 s.time.toNat), (0xC81#12, BitVec.ofNat 32 (s.time.toNat / 2 ^ 32)),
      (0xC02#12, BitVec.ofNat 32 s.instret.toNat), (0xC82#12, BitVec.ofNat 32 (s.instret.toNat / 2 ^ 32))],
      ∀ i ∈ [Instr.csrrw rd p.1 0#5, .csrrs rd p.1 0#5, .csrrc rd p.1 0#5],
        ∃ t, exec i s = .next t ∧ WritesRegister rd p.2 (s.pc + 4#32) s t

/-- With rs1 ≠ x0 on a writable CSR: `rd` gets the old value, the CSR gets the old x[rs1] (CSRRW, R226), the AND or, under
P_CSRRS_OP = or, the OR with it (CSRRS, R227), or the old value with its bits cleared (CSRRC, R228); the write is R39's, and
nothing else changes. -/
def Obligations.CsrWrites : Prop :=
  ∀ (s : State) (rd rs1 : Reg), rs1 ≠ 0#5 →
    ∀ p ∈ [(0x305#12, s.mtvec &&& 0xFFFFFFFC#32), (0x340#12, s.mscratch), (0x341#12, s.mepc &&& 0xFFFFFFFE#32),
      (0x342#12, s.mcause), (0x343#12, s.mtval), (0x3FF#12, s.haltValue)],
      ∀ q ∈ [(Instr.csrrw rd p.1 rs1, s.reg rs1),
        (Instr.csrrs rd p.1 rs1, if s.params.csrrsOp = .and then p.2 &&& s.reg rs1 else p.2 ||| s.reg rs1),
        (Instr.csrrc rd p.1 rs1, p.2 &&& ~~~ s.reg rs1)],
        ∃ t, exec q.1 s = .next t ∧ CsrWritten p.1 q.2 s t ∧ RegsAfterWrite rd p.2 s t ∧ t.pc = s.pc + 4#32 ∧
          CountersRetired s t ∧ SameMemory s t ∧ SameSerial s t ∧ t.params = s.params

/-- A CSR instruction that names an invalid CSR, or a number of the read-only range with an rs1 other than x0, traps as
illegal with its own word, and writes nothing (R224). -/
def Obligations.IllegalCsrAccessTraps : Prop :=
  ∀ (w : Word) (rd : Reg) (csr : CsrNumber) (rs1 : Reg) (s : State),
    ∀ i ∈ [Instr.csrrw rd csr rs1, .csrrs rd csr rs1, .csrrc rd csr rs1],
      decode w = .ok i →
      (csr ∉ validCsrNumbers ∨ (0xC00 ≤ csr.toNat ∧ csr.toNat ≤ 0xFFF ∧ rs1 ≠ 0#5)) →
      ∃ t, exec i s = .next t ∧ TrapTaken 2#32 w s t

/-- A CSR instruction with an rs1 other than x0 on 0x3FF halts the core with the value it writes, completing as usual:
`rd` gets the old halt value, the pc is PC_after_fetch, the counters go up. There is no step after it (R111). With
rs1 = x0 it does not halt (R230). That the step after it answers a fault named `halted` is the model's (log entry 8,
DEDUCED). -/
def Obligations.HaltingWriteEndsTheRun : Prop :=
  ∀ (s : State) (w : Word) (rd rs1 : Reg), Runnable s → WordAtPc s w →
    ∀ q ∈ [(Instr.csrrw rd 0x3FF#12 rs1, s.reg rs1),
      (Instr.csrrs rd 0x3FF#12 rs1,
        if s.params.csrrsOp = .and then s.haltValue &&& s.reg rs1 else s.haltValue ||| s.reg rs1),
      (Instr.csrrc rd 0x3FF#12 rs1, s.haltValue &&& ~~~ s.reg rs1)],
      decode w = .ok q.1 →
      ∃ t, step s = .next t ∧ t.pc = s.pc + 4#32 ∧ CountersRetired s t ∧ RegsAfterWrite rd s.haltValue s t ∧
        SameTrapCsrs s t ∧ SameMemory s t ∧ SameSerial s t ∧ t.params = s.params ∧
        (rs1 ≠ 0#5 → t.halted = true ∧ t.haltValue = q.2 ∧ step t = .fault .halted) ∧
        (rs1 = 0#5 → t.halted = false ∧ t.haltValue = s.haltValue)

/-- A handler returns with a CSRRS read of mepc and a JALR: after a trap at an even pc it resumes at that pc plus the
immediate, so 0 runs the trapping instruction again and 4 goes on after it; nothing else is restored or changed (R259). -/
def Obligations.HandlerReturnsThroughMepc : Prop :=
  ∀ (s t : State) (i : Instr) (rd : Reg) (imm : BitVec 12), PcEven s → instrTraps i = true → exec i s = .next t →
    rd ≠ 0#5 → imm.getLsbD 0 = false →
    ∃ u, exec (.csrrs rd 0x341#12 0#5) t = .next u ∧ ∃ v, exec (.jalr 0#5 rd imm) u = .next v ∧
      v.pc = BitVec.ofInt 32 (s.pc.toInt + imm.toInt) ∧ RegsAfterWrite rd s.pc s v ∧ SameTrapCsrs t v ∧ SameHalt s v ∧
      SameMemory s v ∧ SameSerial s v

/-! ### The bus -/

/-- The region that answers is the first in the list whose half-open range contains the address (R51). -/
def Obligations.FirstRegionAnswers : Prop :=
  ∀ (regions : List Region) (a : Word),
    (∀ (bank : Nat) (r : Region), findRegion regions 0 a = some (bank, r) ↔
      regions[bank]? = some r ∧ (r.base.toNat ≤ a.toNat ∧ a.toNat < r.base.toNat + r.size.toNat) ∧
        ∀ j < bank, ∀ q, regions[j]? = some q → ¬ (q.base.toNat ≤ a.toNat ∧ a.toNat < q.base.toNat + q.size.toNat)) ∧
    (findRegion regions 0 a = none ↔
      ∀ q ∈ regions, ¬ (q.base.toNat ≤ a.toNat ∧ a.toNat < q.base.toNat + q.size.toNat))

/-- The board's map for an image of `length` bytes (R61, R62). A byte's key is its address (log entry 4). -/
def Obligations.BoardMap : Prop :=
  ∀ (s : State) (length : Nat) (a : Word), length ≤ 0xFFFFFEFE → s.params.bus = .board length →
    (a.toNat ≤ 0xFF → Unmapped s a) ∧
    (0x100 ≤ a.toNat → a.toNat < 0x100 + length → InRam s a 1 a.toNat) ∧
    (0x100 + length ≤ a.toNat → a.toNat ≤ 0xFFFFFFFD → Unmapped s a) ∧
    (a.toNat = 0xFFFFFFFE → AtSerial s a) ∧
    (a.toNat = 0xFFFFFFFF → Unmapped s a)

/-- A load of the width and address of a store just done gives the stored bits back, sign- or zero-extended (R54, R55,
95_test_vectors.md L1.10). -/
def Obligations.StoreThenLoad : Prop :=
  ∀ (s : State) (rd rs1 rs2 : Reg) (imm : BitVec 12) (k : Nat),
    ∀ p ∈ [(Instr.sb rs1 rs2 imm, 1, Instr.lbu rd rs1 imm, ((s.reg rs2).setWidth 8).setWidth 32),
      (Instr.sb rs1 rs2 imm, 1, Instr.lb rd rs1 imm, ((s.reg rs2).setWidth 8).signExtend 32),
      (Instr.sh rs1 rs2 imm, 2, Instr.lhu rd rs1 imm, ((s.reg rs2).setWidth 16).setWidth 32),
      (Instr.sh rs1 rs2 imm, 2, Instr.lh rd rs1 imm, ((s.reg rs2).setWidth 16).signExtend 32),
      (Instr.sw rs1 rs2 imm, 4, Instr.lw rd rs1 imm, s.reg rs2)],
      InRam s (s.ea rs1 imm) p.2.1 k →
      ∃ t, exec p.1 s = .next t ∧ ∃ u, exec p.2.2.1 t = .next u ∧ RegsAfterWrite rd p.2.2.2 s u

/-- A word stored where the next fetch reads is the word the next fetch gives (R74). -/
def Obligations.StoreSeenByNextFetch : Prop :=
  ∀ (s : State) (rs1 rs2 : Reg) (imm : BitVec 12) (k : Nat), s.ea rs1 imm = s.pc + 4#32 →
    InRam s (s.ea rs1 imm) 4 k → ∃ t, exec (.sw rs1 rs2 imm) s = .next t ∧ fetch t = .next (s.reg rs2, t)

/-! ### Reset -/

/-- The state before the first step (R280, R76): on the board, for every image and every serial stream. -/
def Obligations.ResetState : Prop :=
  ∀ (image : List Byte) (input : SerialIn) (output : SerialOut), image.length ≤ 0xFFFFFEFE →
    let s := State.board image input output
    (∀ r, s.reg r = 0#32) ∧ s.pc = 0x100#32 ∧ s.mtvec = 0#32 ∧ s.mscratch = 0#32 ∧ s.mepc = 0#32 ∧ s.mcause = 0#32 ∧
      s.mtval = 0#32 ∧ s.cycle = 0#64 ∧ s.time = 0#64 ∧ s.instret = 0#64 ∧ s.halted = false ∧ s.haltValue = 0#32 ∧
      (∀ (j : Nat) (h : j < image.length), readCell s.mem (0x100 + j) = image[j]) ∧ Runnable s

/-- What every step keeps holds at reset, with any image that the board takes (R76, R280). The spec gives the reset values
of the pc, mtvec and mepc. The list of cells and its canonical form, which MemoryCanonical and CellsInRam speak of, is the
model's (log entry 4, DESIGN CHOICE), and so are the image and the streams of State.reset (log entries 3 and 5, DESIGN
CHOICE). -/
def Obligations.InvariantsHoldAtReset : Prop :=
  (MemoryCanonical State.reset ∧ CellsInRam State.reset ∧ PcEven State.reset ∧ TrapCsrsAligned State.reset) ∧
  ∀ (image : List Byte) (input : SerialIn) (output : SerialOut), image.length ≤ 0xFFFFFEFE →
    MemoryCanonical (State.board image input output) ∧ CellsInRam (State.board image input output) ∧
      PcEven (State.board image input output) ∧ TrapCsrsAligned (State.board image input output)

/-! ### What every step keeps -/

/-- RAM stays in its canonical form. The form, and the list of cells it is a form of, is wholly the model's (log entry 4,
DESIGN CHOICE): the spec has byte arrays, and the files cited are where it describes them. -/
def Obligations.StepKeepsMemoryCanonical : Prop :=
  ∀ s t : State, MemoryCanonical s → step s = .next t → MemoryCanonical t

/-- No step lists a byte outside the RAM regions, since only an access inside one writes (R43(c), R44, R53, R56). The list
of cells is the model's (log entry 4, DESIGN CHOICE). -/
def Obligations.StepKeepsCellsInRam : Prop := ∀ s t : State, CellsInRam s → step s = .next t → CellsInRam t

/-- The pc stays even (R25). -/
def Obligations.StepKeepsPcEven : Prop := ∀ s t : State, PcEven s → step s = .next t → PcEven t

/-- The hardwired bits of mtvec and mepc stay 0 (R31, R32). -/
def Obligations.StepKeepsTrapCsrsAligned : Prop :=
  ∀ s t : State, TrapCsrsAligned s → step s = .next t → TrapCsrsAligned t

/-! ### Whole-machine rules -/

/-- Every step adds 1 to cycle and time; instret goes up exactly when the step did not trap (R265, R266). -/
def Obligations.StepCounters : Prop :=
  ∀ s t : State, step s = .next t →
    t.cycle = s.cycle + 1#64 ∧ t.time = s.time + 1#64 ∧
      t.instret = if stepTraps s then s.instret else s.instret + 1#64

/-- In every run from reset, cycle = time = instret + the number of steps that trapped, modulo 2^64 (R267): from the
reset state of any parameters, image, reset pc and serial streams. -/
def Obligations.CounterIdentity : Prop :=
  ∀ (params : Params) (resetPc : Word) (contents : List (List Byte)) (input : SerialIn) (output : SerialOut) (n : Nat)
    (t : State),
    Host.Core.run Sys2Proof.core n (State.boot params resetPc contents input output) = .next t →
    t.cycle = t.time ∧
      t.cycle = t.instret + BitVec.ofNat 64 (trapCount n (State.boot params resetPc contents input output))

/-- A step that traps does what R255 says, from the state its fetch left: one of the three causes with its trap value. -/
def Obligations.TrappingStepEntersTheHandler : Prop :=
  ∀ s t : State, step s = .next t → stepTraps s = true →
    ∃ w u, fetch s = .next (w, u) ∧
      (TrapTaken 2#32 w u t ∨ (decode w = .ok .ebreak ∧ TrapTaken 3#32 s.pc u t) ∨
        (decode w = .ok .ecall ∧ TrapTaken 11#32 s.pc u t))

/-- Only a CSR instruction that writes 0x3FF sets the halt latch, and nothing clears it (R28, R39). -/
def Obligations.OnlyCsrWriteHalts : Prop :=
  ∀ s t : State, step s = .next t → (t.halted = true ↔ WritesCsrByName s 0x3FF#12)

/-- Only a store changes a byte of RAM (R55, R118, R255). -/
def Obligations.OnlyStoresChangeRam : Prop :=
  ∀ (s t : State) (k : Nat), step s = .next t → readCell t.mem k ≠ readCell s.mem k →
    ∃ w u i, fetch s = .next (w, u) ∧ decode w = .ok i ∧
      (i.mnemonic = .sb ∨ i.mnemonic = .sh ∨ i.mnemonic = .sw)

/-- Only a CSR instruction that names it changes mtvec, and only one that names it changes mscratch; no trap does (R35,
R255, R257). -/
def Obligations.OnlyCsrWriteChangesTrapVector : Prop :=
  ∀ s t : State, step s = .next t →
    (t.mtvec ≠ s.mtvec → WritesCsrByName s 0x305#12) ∧ (t.mscratch ≠ s.mscratch → WritesCsrByName s 0x340#12)

/-- No step changes the parameters: the region list (R43(c)) and, as parameters of a model (R7), the two switches. That
State holds them is the model's (log entry 1, DESIGN CHOICE). -/
def Obligations.ParametersNeverChange : Prop := ∀ s t : State, step s = .next t → t.params = s.params

/-- A step sends at most one byte to the serial port, after what was sent before, and only a store sends one (R58). What
was sent is held as log entry 5 says. -/
def Obligations.SerialOutputOnlyGrows : Prop :=
  ∀ s t : State, step s = .next t →
    t.serialOut = s.serialOut ∨
      ((∃ sent room b room', s.serialOut = .writer sent room ∧ t.serialOut = .writer (sent ++ [b]) room') ∧
        ∃ w u i, fetch s = .next (w, u) ∧ decode w = .ok i ∧
          (i.mnemonic = .sb ∨ i.mnemonic = .sh ∨ i.mnemonic = .sw))

/-- A trap vector in no region is a loop without end: once the pc is there, every number of steps leads to the same pc
with cause 2 and trap value 0, cycle and time count the steps and instret stands still (R261). -/
def Obligations.UnmappedVectorLoops : Prop :=
  ∀ s : State, Runnable s → s.pc = s.mtvec &&& 0xFFFFFFFC#32 → Unmapped s s.pc →
    ∀ n : Nat, ∃ t, Host.Core.run Sys2Proof.core (n + 1) s = .next t ∧ t.pc = s.pc ∧ t.mepc = s.pc ∧ t.mcause = 2#32 ∧
      t.mtval = 0#32 ∧ t.halted = false ∧ t.cycle = s.cycle + BitVec.ofNat 64 (n + 1) ∧
      t.time = s.time + BitVec.ofNat 64 (n + 1) ∧ t.instret = s.instret ∧ SameRegs s t ∧ SameMemory s t

/-- `Execute` ends exactly at the first halted state, reached by steps from states that are not halted, with its halt
value (R121, R286). The bound `k ≤ fuel` is the model's: the spec's loop has no limit (log entry 10, DESIGN CHOICE). -/
def Obligations.ExecuteEndsAtFirstHalt : Prop :=
  ∀ (fuel : Nat) (s t : State) (v : Word), execute fuel s = .halted v t ↔
    v = t.haltValue ∧ t.halted = true ∧ ∃ k, k ≤ fuel ∧ Host.Core.run Sys2Proof.core k s = .next t ∧
      ∀ j, j < k → ∃ u, Host.Core.run Sys2Proof.core j s = .next u ∧ u.halted = false
end

