-- ==== Sys2Proof/Laws/Memory.lean ====
section
/-!
SUPPORT. The laws of RAM: a read after a write, with no premise on the form of the list, and that every operation keeps
the canonical form.
-/

namespace Sys2Proof.Machine

/-! ### Reading after a change -/

theorem readCell_eraseCell (m : List Host.Cell) (k j : Nat) :
    readCell (eraseCell m k) j = if j = k then 0#8 else readCell m j := by
  induction m with
  | nil => simp [eraseCell, readCell]
  | cons c m ih =>
    simp only [eraseCell] at ih
    by_cases h : c.1 = k <;> by_cases hj : j = c.1 <;> by_cases hk : j = k <;>
      simp_all [eraseCell, readCell]

theorem readCell_insertCell (m : List Host.Cell) (k j : Nat) (b : Byte) (hne : ∀ c ∈ m, c.1 ≠ k) :
    readCell (insertCell k b m) j = if j = k then b else readCell m j := by
  induction m with
  | nil => simp [insertCell, readCell]
  | cons c m ih =>
    have ih' := ih (fun d hd => hne d (List.mem_cons_of_mem _ hd))
    have hc := hne c (by simp)
    unfold insertCell
    split
    · simp [readCell]
    · simp only [readCell, ih']
      by_cases hj : j = c.1
      · subst hj; simp [hc]
      · simp [hj]

theorem eraseCell_ne (m : List Host.Cell) (k : Nat) : ∀ c ∈ eraseCell m k, c.1 ≠ k := by
  intro c hc
  simpa using (List.mem_filter.mp hc).2

/-- A read after a write: the byte written at its key, the byte before elsewhere. -/
@[simp] theorem readCell_writeCell (m : List Host.Cell) (k j : Nat) (b : Byte) :
    readCell (writeCell m k b) j = if j = k then b else readCell m j := by
  unfold writeCell
  split
  · next h => rw [readCell_eraseCell, h]
  · rw [readCell_insertCell _ _ _ _ (eraseCell_ne m k), readCell_eraseCell]
    by_cases h : j = k <;> simp [h]

/-- A stored byte string leaves every other byte alone. -/
theorem readCell_writeBytes_other (m : List Host.Cell) (k n : Nat) (v : Word) (j : Nat) (h : j < k ∨ k + n ≤ j) :
    readCell (writeBytes m k n v) j = readCell m j := by
  induction n generalizing m k v with
  | zero => rfl
  | succ n ih =>
    rw [writeBytes, ih _ _ _ (by omega), readCell_writeCell, if_neg (by omega)]

/-- A stored byte string reads back byte by byte. -/
theorem readCell_writeBytes (m : List Host.Cell) (k n : Nat) (v : Word) (i : Nat) (h : i < n) :
    readCell (writeBytes m k n v) (k + i) = v.extractLsb' (8 * i) 8 := by
  induction n generalizing m k v i with
  | zero => omega
  | succ n ih =>
    rw [writeBytes]
    cases i with
    | zero =>
      rw [readCell_writeBytes_other _ _ _ _ _ (by omega), readCell_writeCell]
      ext j hj
      simp
    | succ i =>
      have := ih (writeCell m k (v.setWidth 8)) (k + 1) (v >>> 8) i (by omega)
      rw [show k + (i + 1) = k + 1 + i by omega, this]
      ext j hj
      simp
      congr 1
      omega

/-- The bits of a little-endian read. -/
theorem readBytes_getLsbD (m : List Host.Cell) (k n j : Nat) (hj : j < 32) :
    (readBytes m k n).getLsbD j = (decide (j < 8 * n) && (readCell m (k + j / 8)).getLsbD (j % 8)) := by
  induction n generalizing k j with
  | zero => simp [readBytes]
  | succ n ih =>
    rw [readBytes]
    by_cases h : j < 8
    · simp [h, hj, Nat.div_eq_of_lt h, Nat.mod_eq_of_lt h]
      omega
    · have h1 : (readCell m k).getLsbD j = false := BitVec.getLsbD_of_ge _ _ (by omega)
      have h2 : j / 8 = (j - 8) / 8 + 1 := by omega
      have h3 : (j - 8) % 8 = j % 8 := by omega
      have h4 : k + 1 + (j - 8) / 8 = k + j / 8 := by omega
      have h5 : (j - 8 < 8 * n) ↔ (j < 8 * (n + 1)) := by omega
      have h6 := ih (k + 1) (j - 8) (by omega)
      rw [BitVec.getLsbD_eq_getElem (show j - 8 < 32 by omega)] at h6
      simp [h, hj, h1, h6, h3, h4, h5]

/-- A little-endian read after a store of the same width gives the stored bits back. -/
theorem readBytes_writeBytes (m : List Host.Cell) (k n : Nat) (v : Word) (j : Nat) (hj : j < 32) :
    (readBytes (writeBytes m k n v) k n).getLsbD j = (decide (j < 8 * n) && v.getLsbD j) := by
  rw [readBytes_getLsbD _ _ _ _ hj]
  by_cases h : j < 8 * n
  · rw [readCell_writeBytes _ _ _ _ _ (by omega)]
    simp [Nat.mod_lt]
    congr 2
    omega
  · simp [h]

/-- A little-endian read depends on its own bytes alone. -/
theorem readBytes_congr (m m' : List Host.Cell) (k n : Nat) (h : ∀ i, i < n → readCell m (k + i) = readCell m' (k + i)) :
    readBytes m k n = readBytes m' k n := by
  induction n generalizing k with
  | zero => rfl
  | succ n ih =>
    rw [readBytes, readBytes, ih (k + 1) (fun i hi => by have := h (i + 1) (by omega); rwa [show k + 1 + i = k + (i + 1) by omega])]
    have := h 0 (by omega)
    rw [Nat.add_zero] at this
    rw [this]

/-! ### The canonical form -/

theorem Memory.wf_iff (m : List Host.Cell) :
    Memory.wf m = true ↔ m.Pairwise (fun a b => a.1 < b.1) ∧ ∀ c ∈ m, c.2 ≠ 0#8 := by
  simp [Memory.wf]

theorem Memory.wf_eraseCell (m : List Host.Cell) (k : Nat) (h : Memory.wf m = true) :
    Memory.wf (eraseCell m k) = true := by
  rw [Memory.wf_iff] at *
  exact ⟨h.1.filter _, fun c hc => h.2 c (List.mem_filter.mp hc).1⟩

theorem mem_insertCell (m : List Host.Cell) (k : Nat) (b : Byte) (c : Host.Cell) :
    c ∈ insertCell k b m ↔ c = (k, b) ∨ c ∈ m := by
  induction m with
  | nil => simp [insertCell]
  | cons d m ih =>
    unfold insertCell
    split
    · simp
    · simp [ih]
      tauto

theorem insertCell_sorted (m : List Host.Cell) (k : Nat) (b : Byte) (h : m.Pairwise (fun a b => a.1 < b.1))
    (hk : ∀ c ∈ m, c.1 ≠ k) : (insertCell k b m).Pairwise (fun a b => a.1 < b.1) := by
  induction m with
  | nil => simp [insertCell]
  | cons d m ih =>
    rw [List.pairwise_cons] at h
    unfold insertCell
    split
    · next hlt =>
      refine List.pairwise_cons.mpr ⟨fun c hc => ?_, List.pairwise_cons.mpr h⟩
      rcases List.mem_cons.mp hc with rfl | hc
      · exact hlt
      · exact hlt.trans (h.1 c hc)
    · next hge =>
      refine List.pairwise_cons.mpr ⟨fun c hc => ?_, ih h.2 fun c hc => hk c (List.mem_cons_of_mem _ hc)⟩
      rcases (mem_insertCell m k b c).mp hc with rfl | hc
      · have := hk d (by simp)
        show d.1 < k
        omega
      · exact h.1 c hc

theorem Memory.wf_writeCell (m : List Host.Cell) (k : Nat) (b : Byte) (h : Memory.wf m = true) :
    Memory.wf (writeCell m k b) = true := by
  unfold writeCell
  split
  · exact Memory.wf_eraseCell m k h
  · next hb =>
    have he := (Memory.wf_iff _).mp (Memory.wf_eraseCell m k h)
    refine (Memory.wf_iff _).mpr ⟨insertCell_sorted _ _ _ he.1 (eraseCell_ne m k), fun c hc => ?_⟩
    rcases (mem_insertCell _ _ _ _).mp hc with rfl | hc
    · exact hb
    · exact he.2 c hc

/-- Every store keeps the canonical form. -/
theorem Memory.wf_writeBytes (m : List Host.Cell) (k n : Nat) (v : Word) (h : Memory.wf m = true) :
    Memory.wf (writeBytes m k n v) = true := by
  induction n generalizing m k v with
  | zero => exact h
  | succ n ih => exact ih _ _ _ (Memory.wf_writeCell _ _ _ h)

/-- The keys of memory after a write are the written one and keys from before. -/
theorem mem_writeCell (m : List Host.Cell) (k : Nat) (b : Byte) (c : Host.Cell) (h : c ∈ writeCell m k b) :
    c.1 = k ∨ c ∈ m := by
  unfold writeCell at h
  split at h
  · exact .inr (List.mem_filter.mp h).1
  · rcases (mem_insertCell _ _ _ _).mp h with rfl | h
    · exact .inl rfl
    · exact .inr (List.mem_filter.mp h).1

theorem mem_writeBytes (m : List Host.Cell) (k n : Nat) (v : Word) (c : Host.Cell) (h : c ∈ writeBytes m k n v) :
    (k ≤ c.1 ∧ c.1 < k + n) ∨ c ∈ m := by
  induction n generalizing m k v with
  | zero => exact .inr h
  | succ n ih =>
    rcases ih _ _ _ h with h | h
    · exact .inl ⟨by omega, by omega⟩
    · rcases mem_writeCell _ _ _ _ h with h | h
      · exact .inl ⟨by omega, by omega⟩
      · exact .inr h

/-! ### An image -/

theorem mem_imageCells (k : Nat) (bs : List Byte) (c : Host.Cell) (h : c ∈ imageCells k bs) :
    k ≤ c.1 ∧ c.1 < k + bs.length ∧ c.2 ≠ 0#8 := by
  induction bs generalizing k with
  | nil => simp [imageCells] at h
  | cons b bs ih =>
    unfold imageCells at h
    split at h
    · have := ih _ h
      exact ⟨by omega, by simp; omega, this.2.2⟩
    · next hb =>
      rcases List.mem_cons.mp h with rfl | h
      · exact ⟨le_refl _, by simp, hb⟩
      · have := ih _ h
        exact ⟨by omega, by simp; omega, this.2.2⟩

theorem imageCells_sorted (k : Nat) (bs : List Byte) : (imageCells k bs).Pairwise (fun a b => a.1 < b.1) := by
  induction bs generalizing k with
  | nil => simp [imageCells]
  | cons b bs ih =>
    unfold imageCells
    split
    · exact ih _
    · exact List.pairwise_cons.mpr ⟨fun c hc => (mem_imageCells _ _ _ hc).1, ih _⟩

theorem Memory.wf_imageCells (k : Nat) (bs : List Byte) : Memory.wf (imageCells k bs) = true :=
  (Memory.wf_iff _).mpr ⟨imageCells_sorted k bs, fun c hc => (mem_imageCells k bs c hc).2.2⟩

theorem readCell_of_forall_ne (m : List Host.Cell) (k : Nat) (h : ∀ c ∈ m, c.1 ≠ k) : readCell m k = 0#8 := by
  induction m with
  | nil => rfl
  | cons c m ih =>
    have hc := h c (by simp)
    simp only [readCell]
    rw [if_neg (Ne.symm hc)]
    exact ih fun d hd => h d (List.mem_cons_of_mem _ hd)

/-- An image reads back byte by byte (R76). -/
theorem readCell_imageCells (k : Nat) (bs : List Byte) (i : Nat) (h : i < bs.length) :
    readCell (imageCells k bs) (k + i) = bs[i] := by
  induction bs generalizing k i with
  | nil => simp at h
  | cons b bs ih =>
    have hr : ∀ i (h : i < bs.length), readCell (imageCells (k + 1) bs) (k + (i + 1)) = bs[i] := fun i h => by
      have := ih (k + 1) i h
      rwa [show k + 1 + i = k + (i + 1) by omega] at this
    have h0 : readCell (imageCells (k + 1) bs) k = 0#8 :=
      readCell_of_forall_ne _ _ fun c hc => by have := (mem_imageCells _ _ _ hc).1; omega
    unfold imageCells
    cases i with
    | zero =>
      split
      · next hb => simp [hb, h0]
      · simp [readCell]
    | succ i =>
      split
      · simp [hr i (by simpa using h)]
      · simp [readCell, hr i (by simpa using h)]

end Sys2Proof.Machine
end

