-- ==== Sys2Proof/Laws/State.lean ====
section
/-!
SUPPORT. The small lemmas of State: what each shared update leaves in each field, so that no later proof unfolds one.
-/

namespace Sys2Proof.Machine

/-! ### Writing a register -/

@[simp] theorem setReg_pc (s : State) (r : Reg) (v : Word) : (s.setReg r v).pc = s.pc := by
  unfold State.setReg; split <;> rfl

@[simp] theorem setReg_cycle (s : State) (r : Reg) (v : Word) : (s.setReg r v).cycle = s.cycle := by
  unfold State.setReg; split <;> rfl

@[simp] theorem setReg_time (s : State) (r : Reg) (v : Word) : (s.setReg r v).time = s.time := by
  unfold State.setReg; split <;> rfl

@[simp] theorem setReg_instret (s : State) (r : Reg) (v : Word) : (s.setReg r v).instret = s.instret := by
  unfold State.setReg; split <;> rfl

@[simp] theorem setReg_mtvec (s : State) (r : Reg) (v : Word) : (s.setReg r v).mtvec = s.mtvec := by
  unfold State.setReg; split <;> rfl

@[simp] theorem setReg_mepc (s : State) (r : Reg) (v : Word) : (s.setReg r v).mepc = s.mepc := by
  unfold State.setReg; split <;> rfl

@[simp] theorem setReg_mcause (s : State) (r : Reg) (v : Word) : (s.setReg r v).mcause = s.mcause := by
  unfold State.setReg; split <;> rfl

@[simp] theorem setReg_mtval (s : State) (r : Reg) (v : Word) : (s.setReg r v).mtval = s.mtval := by
  unfold State.setReg; split <;> rfl

@[simp] theorem setReg_mscratch (s : State) (r : Reg) (v : Word) : (s.setReg r v).mscratch = s.mscratch := by
  unfold State.setReg; split <;> rfl

@[simp] theorem setReg_halted (s : State) (r : Reg) (v : Word) : (s.setReg r v).halted = s.halted := by
  unfold State.setReg; split <;> rfl

@[simp] theorem setReg_haltValue (s : State) (r : Reg) (v : Word) : (s.setReg r v).haltValue = s.haltValue := by
  unfold State.setReg; split <;> rfl

@[simp] theorem setReg_mem (s : State) (r : Reg) (v : Word) : (s.setReg r v).mem = s.mem := by
  unfold State.setReg; split <;> rfl

@[simp] theorem setReg_params (s : State) (r : Reg) (v : Word) : (s.setReg r v).params = s.params := by
  unfold State.setReg; split <;> rfl

@[simp] theorem setReg_serialIn (s : State) (r : Reg) (v : Word) : (s.setReg r v).serialIn = s.serialIn := by
  unfold State.setReg; split <;> rfl

@[simp] theorem setReg_serialOut (s : State) (r : Reg) (v : Word) : (s.setReg r v).serialOut = s.serialOut := by
  unfold State.setReg; split <;> rfl

@[simp] theorem setReg_eosDraws (s : State) (r : Reg) (v : Word) : (s.setReg r v).eosDraws = s.eosDraws := by
  unfold State.setReg; split <;> rfl

/-- `x[rd] <- v`, read back (R11, R21). -/
@[simp] theorem setReg_reg (s : State) (rd r : Reg) (v : Word) :
    (s.setReg rd v).reg r = if r = 0#5 then 0#32 else if r = rd then v else s.reg r := by
  unfold State.setReg State.reg
  by_cases hr : r = 0#5
  · simp [hr]
  · by_cases hd : rd = 0#5
    · subst hd; simp [hr]
    · simp only [hr, hd, if_false, Vector.getElem_set]
      by_cases h : r = rd
      · simp [h]
      · have hne : rd.toNat ≠ r.toNat := fun e => h (BitVec.eq_of_toNat_eq e.symm)
        simp only [h, hne, if_false]

@[simp] theorem reg_zero (s : State) : s.reg 0#5 = 0#32 := rfl

/-- Reading a register reads the register file alone. -/
theorem reg_congr {s t : State} (h : t.x = s.x) (r : Reg) : t.reg r = s.reg r := by
  unfold State.reg; rw [h]

/-! ### Normal completion -/

@[simp] theorem retireTo_x (s : State) (p : Word) : (s.retireTo p).x = s.x := rfl

@[simp] theorem retireTo_pc (s : State) (p : Word) : (s.retireTo p).pc = p := rfl

@[simp] theorem retireTo_cycle (s : State) (p : Word) : (s.retireTo p).cycle = s.cycle + 1#64 := rfl

@[simp] theorem retireTo_time (s : State) (p : Word) : (s.retireTo p).time = s.time + 1#64 := rfl

@[simp] theorem retireTo_instret (s : State) (p : Word) : (s.retireTo p).instret = s.instret + 1#64 := rfl

@[simp] theorem retireTo_mtvec (s : State) (p : Word) : (s.retireTo p).mtvec = s.mtvec := rfl

@[simp] theorem retireTo_mepc (s : State) (p : Word) : (s.retireTo p).mepc = s.mepc := rfl

@[simp] theorem retireTo_mcause (s : State) (p : Word) : (s.retireTo p).mcause = s.mcause := rfl

@[simp] theorem retireTo_mtval (s : State) (p : Word) : (s.retireTo p).mtval = s.mtval := rfl

@[simp] theorem retireTo_mscratch (s : State) (p : Word) : (s.retireTo p).mscratch = s.mscratch := rfl

@[simp] theorem retireTo_halted (s : State) (p : Word) : (s.retireTo p).halted = s.halted := rfl

@[simp] theorem retireTo_haltValue (s : State) (p : Word) : (s.retireTo p).haltValue = s.haltValue := rfl

@[simp] theorem retireTo_mem (s : State) (p : Word) : (s.retireTo p).mem = s.mem := rfl

@[simp] theorem retireTo_params (s : State) (p : Word) : (s.retireTo p).params = s.params := rfl

@[simp] theorem retireTo_serialIn (s : State) (p : Word) : (s.retireTo p).serialIn = s.serialIn := rfl

@[simp] theorem retireTo_serialOut (s : State) (p : Word) : (s.retireTo p).serialOut = s.serialOut := rfl

@[simp] theorem retireTo_eosDraws (s : State) (p : Word) : (s.retireTo p).eosDraws = s.eosDraws := rfl

@[simp] theorem retireTo_reg (s : State) (p : Word) (r : Reg) : (s.retireTo p).reg r = s.reg r := rfl

@[simp] theorem retire_x (s : State) : s.retire.x = s.x := rfl

@[simp] theorem retire_pc (s : State) : s.retire.pc = s.pc + 4#32 := rfl

@[simp] theorem retire_cycle (s : State) : s.retire.cycle = s.cycle + 1#64 := rfl

@[simp] theorem retire_time (s : State) : s.retire.time = s.time + 1#64 := rfl

@[simp] theorem retire_instret (s : State) : s.retire.instret = s.instret + 1#64 := rfl

@[simp] theorem retire_mtvec (s : State) : s.retire.mtvec = s.mtvec := rfl

@[simp] theorem retire_mepc (s : State) : s.retire.mepc = s.mepc := rfl

@[simp] theorem retire_mcause (s : State) : s.retire.mcause = s.mcause := rfl

@[simp] theorem retire_mtval (s : State) : s.retire.mtval = s.mtval := rfl

@[simp] theorem retire_mscratch (s : State) : s.retire.mscratch = s.mscratch := rfl

@[simp] theorem retire_halted (s : State) : s.retire.halted = s.halted := rfl

@[simp] theorem retire_haltValue (s : State) : s.retire.haltValue = s.haltValue := rfl

@[simp] theorem retire_mem (s : State) : s.retire.mem = s.mem := rfl

@[simp] theorem retire_params (s : State) : s.retire.params = s.params := rfl

@[simp] theorem retire_serialIn (s : State) : s.retire.serialIn = s.serialIn := rfl

@[simp] theorem retire_serialOut (s : State) : s.retire.serialOut = s.serialOut := rfl

@[simp] theorem retire_eosDraws (s : State) : s.retire.eosDraws = s.eosDraws := rfl

@[simp] theorem retire_reg (s : State) (r : Reg) : s.retire.reg r = s.reg r := rfl

/-! ### Taking an exception -/

@[simp] theorem takeException_x (cause : ExceptionCause) (tval : Word) (s : State) :
    (takeException cause tval s).x = s.x := rfl

@[simp] theorem takeException_pc (cause : ExceptionCause) (tval : Word) (s : State) :
    (takeException cause tval s).pc = s.mtvec &&& 0xFFFFFFFC#32 := rfl

@[simp] theorem takeException_cycle (cause : ExceptionCause) (tval : Word) (s : State) :
    (takeException cause tval s).cycle = s.cycle + 1#64 := rfl

@[simp] theorem takeException_time (cause : ExceptionCause) (tval : Word) (s : State) :
    (takeException cause tval s).time = s.time + 1#64 := rfl

@[simp] theorem takeException_instret (cause : ExceptionCause) (tval : Word) (s : State) :
    (takeException cause tval s).instret = s.instret := rfl

@[simp] theorem takeException_mtvec (cause : ExceptionCause) (tval : Word) (s : State) :
    (takeException cause tval s).mtvec = s.mtvec := rfl

@[simp] theorem takeException_mepc (cause : ExceptionCause) (tval : Word) (s : State) :
    (takeException cause tval s).mepc = s.pc &&& 0xFFFFFFFE#32 := rfl

@[simp] theorem takeException_mcause (cause : ExceptionCause) (tval : Word) (s : State) :
    (takeException cause tval s).mcause = cause.code := rfl

@[simp] theorem takeException_mtval (cause : ExceptionCause) (tval : Word) (s : State) :
    (takeException cause tval s).mtval = tval := rfl

@[simp] theorem takeException_mscratch (cause : ExceptionCause) (tval : Word) (s : State) :
    (takeException cause tval s).mscratch = s.mscratch := rfl

@[simp] theorem takeException_halted (cause : ExceptionCause) (tval : Word) (s : State) :
    (takeException cause tval s).halted = s.halted := rfl

@[simp] theorem takeException_haltValue (cause : ExceptionCause) (tval : Word) (s : State) :
    (takeException cause tval s).haltValue = s.haltValue := rfl

@[simp] theorem takeException_mem (cause : ExceptionCause) (tval : Word) (s : State) :
    (takeException cause tval s).mem = s.mem := rfl

@[simp] theorem takeException_params (cause : ExceptionCause) (tval : Word) (s : State) :
    (takeException cause tval s).params = s.params := rfl

@[simp] theorem takeException_serialIn (cause : ExceptionCause) (tval : Word) (s : State) :
    (takeException cause tval s).serialIn = s.serialIn := rfl

@[simp] theorem takeException_serialOut (cause : ExceptionCause) (tval : Word) (s : State) :
    (takeException cause tval s).serialOut = s.serialOut := rfl

@[simp] theorem takeException_eosDraws (cause : ExceptionCause) (tval : Word) (s : State) :
    (takeException cause tval s).eosDraws = s.eosDraws := rfl

@[simp] theorem takeException_reg (cause : ExceptionCause) (tval : Word) (s : State) (r : Reg) :
    (takeException cause tval s).reg r = s.reg r := rfl

/-! ### Going on after an operation -/

@[simp] theorem andThen_next {α β : Type} (a : α) (f : α → Host.Outcome β Fault Refusal) :
    andThen (.next a) f = f a := rfl

@[simp] theorem andThen_fault {α β : Type} (r : Fault) (f : α → Host.Outcome β Fault Refusal) :
    andThen (.fault r) f = .fault r := rfl

@[simp] theorem andThen_refused {α β : Type} (r : Refusal) (f : α → Host.Outcome β Fault Refusal) :
    andThen (.refused r) f = .refused r := rfl

/-- What follows answers a next state exactly when both parts do. -/
theorem andThen_eq_next {α β : Type} (o : Host.Outcome α Fault Refusal) (f : α → Host.Outcome β Fault Refusal) (b : β) :
    andThen o f = .next b ↔ ∃ a, o = .next a ∧ f a = .next b := by
  cases o <;> simp

theorem andThen_eq_fault {α β : Type} (o : Host.Outcome α Fault Refusal) (f : α → Host.Outcome β Fault Refusal)
    (r : Fault) : andThen o f = .fault r ↔ o = .fault r ∨ ∃ a, o = .next a ∧ f a = .fault r := by
  cases o <;> simp

theorem andThen_eq_refused {α β : Type} (o : Host.Outcome α Fault Refusal) (f : α → Host.Outcome β Fault Refusal)
    (r : Refusal) : andThen o f = .refused r ↔ o = .refused r ∨ ∃ a, o = .next a ∧ f a = .refused r := by
  cases o <;> simp

end Sys2Proof.Machine
end

