-- ==== Sys2Proof/Laws/Bus.lean ====
section
/-!
SUPPORT. What a bus access can do, said once: which region answers, what a load gives and changes, what a store changes,
and when either stops.
-/

namespace Sys2Proof.Machine

/-! ### The region list -/

/-- The region found stands in the list at its index and contains the address. -/
theorem findRegion_some (rs : List Region) (i : Nat) (a : Word) (bank : Nat) (r : Region)
    (h : findRegion rs i a = some (bank, r)) :
    i ≤ bank ∧ rs[bank - i]? = some r ∧ regionContains r a = true := by
  induction rs generalizing i with
  | nil => simp [findRegion] at h
  | cons q rs ih =>
    unfold findRegion at h
    split at h
    · next hq =>
      injection h with h
      injection h with h1 h2
      subst h1 h2
      exact ⟨le_refl _, by simp, hq⟩
    · have := ih (i + 1) h
      refine ⟨by omega, ?_, this.2.2⟩
      rw [show bank - i = bank - (i + 1) + 1 by omega, List.getElem?_cons_succ]
      exact this.2.1

/-- No region is found exactly when none contains the address. -/
theorem findRegion_none (rs : List Region) (i : Nat) (a : Word) :
    findRegion rs i a = none ↔ ∀ r ∈ rs, regionContains r a = false := by
  induction rs generalizing i with
  | nil => simp [findRegion]
  | cons q rs ih =>
    unfold findRegion
    split
    · next hq => simp [hq]
    · next hq => simp [ih, hq]

theorem regionContains_iff (r : Region) (a : Word) :
    regionContains r a = true ↔ r.base.toNat ≤ a.toNat ∧ a.toNat < r.base.toNat + r.size.toNat := by
  simp [regionContains]

theorem accessInside_iff (r : Region) (a : Word) (n : Nat) :
    accessInside r a n = true ↔ a.toNat + n ≤ r.base.toNat + r.size.toNat := by
  simp [accessInside]

/-! ### The serial port -/

/-- A serial load changes only the input stream and the draw counter. -/
theorem serialLoad_frame {s t : State} {b : Byte} (h : serialLoad s = .next (b, t)) :
    ∃ input draws, t = { s with serialIn := input, eosDraws := draws } := by
  unfold serialLoad at h
  split at h <;> simp only [Host.Outcome.next.injEq, Prod.mk.injEq, reduceCtorEq] at h
  all_goals exact ⟨_, _, h.2.symm⟩

/-- A serial load stops only where the host does not answer. -/
theorem serialLoad_fault {s : State} {r : Fault} (h : serialLoad s = .fault r) :
    r = .awaitingSerialInput ∧ s.serialIn = .reader [] .silent := by
  unfold serialLoad at h
  split at h <;> simp_all

theorem serialLoad_not_refused (s : State) (r : Refusal) : serialLoad s ≠ .refused r := by
  unfold serialLoad
  split <;> simp

/-- A serial store changes only the output stream. -/
theorem serialStore_frame {s t : State} {b : Byte} (h : serialStore b s = .next t) :
    ∃ output, t = { s with serialOut := output } := by
  unfold serialStore at h
  split at h <;> simp only [Host.Outcome.next.injEq, reduceCtorEq] at h
  · exact ⟨s.serialOut, h.symm⟩
  · exact ⟨_, h.symm⟩
  · exact ⟨_, h.symm⟩

theorem serialStore_fault {s : State} {b : Byte} {r : Fault} (h : serialStore b s = .fault r) :
    r = .awaitingSerialOutput ∧ ∃ sent, s.serialOut = .writer sent (some 0) := by
  unfold serialStore at h
  split at h <;> simp_all

theorem serialStore_not_refused (s : State) (b : Byte) (r : Refusal) : serialStore b s ≠ .refused r := by
  unfold serialStore
  split <;> simp

/-! ### Loads -/

theorem busLoad_unmapped {s : State} {a : Word} (n : Width) (h : Unmapped s a) : busLoad n a s = .next (0#32, s) := by
  unfold busLoad; rw [h]

theorem busLoad_ram {s : State} {a : Word} {n : Width} {k : Nat} (h : InRam s a n.bytes k) :
    busLoad n a s = .next (readBytes s.mem k n.bytes, s) := by
  obtain ⟨bank, r, hr, hk, hi, rfl⟩ := h
  unfold busLoad
  simp only [hr, hk, (accessInside_iff _ _ _).mpr hi, if_true]

theorem busLoad_straddle {s : State} {a : Word} {n : Width} (h : StraddlesRam s a n.bytes) :
    busLoad n a s = .fault .ramStraddle := by
  obtain ⟨bank, r, hr, hk, hi⟩ := h
  have : accessInside r a n.bytes = false := by rw [← Bool.not_eq_true, accessInside_iff]; omega
  unfold busLoad
  simp only [hr, hk, this]
  rfl

theorem busLoad_serial {s : State} {a : Word} (n : Width) (h : AtSerial s a) :
    busLoad n a s = andThen (serialLoad s) fun p => .next (p.1.setWidth 32, p.2) := by
  obtain ⟨bank, r, hr, hk⟩ := h
  unfold busLoad
  simp only [hr, hk]

/-- Every address is unmapped, in RAM with room, at a RAM region's end, or at the serial port. -/
theorem address_cases (s : State) (a : Word) (n : Nat) :
    Unmapped s a ∨ (∃ k, InRam s a n k) ∨ StraddlesRam s a n ∨ AtSerial s a := by
  rcases h : s.region a with _ | ⟨bank, r⟩
  · exact .inl h
  · rcases hk : r.kind
    · by_cases hi : a.toNat + n ≤ r.base.toNat + r.size.toNat
      · exact .inr (.inl ⟨_, bank, r, h, hk, hi, rfl⟩)
      · exact .inr (.inr (.inl ⟨bank, r, h, hk, by omega⟩))
    · exact .inr (.inr (.inr ⟨bank, r, h, hk⟩))

/-- What a load that answers has done. -/
theorem busLoad_next {s t : State} {n : Width} {a v : Word} (h : busLoad n a s = .next (v, t)) :
    (Unmapped s a ∧ v = 0#32 ∧ t = s) ∨ (∃ k, InRam s a n.bytes k ∧ v = readBytes s.mem k n.bytes ∧ t = s) ∨
      (AtSerial s a ∧ ∃ b, serialLoad s = .next (b, t) ∧ v = b.setWidth 32) := by
  rcases address_cases s a n.bytes with hu | ⟨k, hr⟩ | hs | hs
  · rw [busLoad_unmapped n hu] at h
    cases h
    exact .inl ⟨hu, rfl, rfl⟩
  · rw [busLoad_ram hr] at h
    cases h
    exact .inr (.inl ⟨k, hr, rfl, rfl⟩)
  · rw [busLoad_straddle hs] at h
    cases h
  · rw [busLoad_serial n hs, andThen_eq_next] at h
    obtain ⟨⟨b, u⟩, hb, hv⟩ := h
    cases hv
    exact .inr (.inr ⟨hs, b, hb, rfl⟩)

/-- A load changes only the input stream and the draw counter. -/
theorem busLoad_frame {s t : State} {n : Width} {a v : Word} (h : busLoad n a s = .next (v, t)) :
    ∃ input draws, t = { s with serialIn := input, eosDraws := draws } := by
  rcases busLoad_next h with ⟨_, _, rfl⟩ | ⟨_, _, _, rfl⟩ | ⟨_, _, hb, _⟩
  · exact ⟨t.serialIn, t.eosDraws, rfl⟩
  · exact ⟨t.serialIn, t.eosDraws, rfl⟩
  · exact serialLoad_frame hb

/-- When a load stops. -/
theorem busLoad_fault {s : State} {n : Width} {a : Word} {r : Fault} (h : busLoad n a s = .fault r) :
    (r = .ramStraddle ∧ StraddlesRam s a n.bytes) ∨
      (r = .awaitingSerialInput ∧ AtSerial s a ∧ s.serialIn = .reader [] .silent) := by
  rcases address_cases s a n.bytes with hu | ⟨k, hr⟩ | hs | hs
  · rw [busLoad_unmapped n hu] at h; cases h
  · rw [busLoad_ram hr] at h; cases h
  · rw [busLoad_straddle hs] at h; cases h; exact .inl ⟨rfl, hs⟩
  · rw [busLoad_serial n hs, andThen_eq_fault] at h
    rcases h with h | ⟨p, _, h⟩
    · exact .inr ⟨(serialLoad_fault h).1, hs, (serialLoad_fault h).2⟩
    · cases h

theorem busLoad_not_refused (s : State) (n : Width) (a : Word) (r : Refusal) : busLoad n a s ≠ .refused r := by
  intro h
  rcases address_cases s a n.bytes with hu | ⟨k, hr⟩ | hs | hs
  · rw [busLoad_unmapped n hu] at h; cases h
  · rw [busLoad_ram hr] at h; cases h
  · rw [busLoad_straddle hs] at h; cases h
  · rw [busLoad_serial n hs, andThen_eq_refused] at h
    rcases h with h | ⟨p, _, h⟩
    · exact serialLoad_not_refused _ _ h
    · cases h

/-! ### Stores -/

theorem busStore_unmapped {s : State} {a : Word} (n : Width) (v : Word) (h : Unmapped s a) :
    busStore n a v s = .next s := by
  unfold busStore; rw [h]

theorem busStore_ram {s : State} {a : Word} {n : Width} {k : Nat} (v : Word) (h : InRam s a n.bytes k) :
    busStore n a v s = .next { s with mem := writeBytes s.mem k n.bytes v } := by
  obtain ⟨bank, r, hr, hk, hi, rfl⟩ := h
  unfold busStore
  simp only [hr, hk, (accessInside_iff _ _ _).mpr hi, if_true]

theorem busStore_straddle {s : State} {a : Word} {n : Width} (v : Word) (h : StraddlesRam s a n.bytes) :
    busStore n a v s = .fault .ramStraddle := by
  obtain ⟨bank, r, hr, hk, hi⟩ := h
  have : accessInside r a n.bytes = false := by rw [← Bool.not_eq_true, accessInside_iff]; omega
  unfold busStore
  simp only [hr, hk, this]
  rfl

theorem busStore_serial {s : State} {a : Word} (n : Width) (v : Word) (h : AtSerial s a) :
    busStore n a v s = serialStore (v.setWidth 8) s := by
  obtain ⟨bank, r, hr, hk⟩ := h
  unfold busStore
  simp only [hr, hk]

/-- What a store that answers has done. -/
theorem busStore_next {s t : State} {n : Width} {a v : Word} (h : busStore n a v s = .next t) :
    (Unmapped s a ∧ t = s) ∨ (∃ k, InRam s a n.bytes k ∧ t = { s with mem := writeBytes s.mem k n.bytes v }) ∨
      (AtSerial s a ∧ serialStore (v.setWidth 8) s = .next t) := by
  rcases address_cases s a n.bytes with hu | ⟨k, hr⟩ | hs | hs
  · rw [busStore_unmapped n v hu] at h
    cases h
    exact .inl ⟨hu, rfl⟩
  · rw [busStore_ram v hr] at h
    cases h
    exact .inr (.inl ⟨k, hr, rfl⟩)
  · rw [busStore_straddle v hs] at h
    cases h
  · rw [busStore_serial n v hs] at h
    exact .inr (.inr ⟨hs, h⟩)

/-- A store changes only RAM and the output stream. -/
theorem busStore_frame {s t : State} {n : Width} {a v : Word} (h : busStore n a v s = .next t) :
    ∃ mem output, t = { s with mem := mem, serialOut := output } := by
  rcases busStore_next h with ⟨_, rfl⟩ | ⟨_, _, rfl⟩ | ⟨_, hs⟩
  · exact ⟨t.mem, t.serialOut, rfl⟩
  · exact ⟨_, s.serialOut, rfl⟩
  · obtain ⟨o, rfl⟩ := serialStore_frame hs
    exact ⟨s.mem, o, rfl⟩

/-- When a store stops. -/
theorem busStore_fault {s : State} {n : Width} {a v : Word} {r : Fault} (h : busStore n a v s = .fault r) :
    (r = .ramStraddle ∧ StraddlesRam s a n.bytes) ∨
      (r = .awaitingSerialOutput ∧ AtSerial s a ∧ ∃ sent, s.serialOut = .writer sent (some 0)) := by
  rcases address_cases s a n.bytes with hu | ⟨k, hr⟩ | hs | hs
  · rw [busStore_unmapped n v hu] at h; cases h
  · rw [busStore_ram v hr] at h; cases h
  · rw [busStore_straddle v hs] at h; cases h; exact .inl ⟨rfl, hs⟩
  · rw [busStore_serial n v hs] at h
    exact .inr ⟨(serialStore_fault h).1, hs, (serialStore_fault h).2⟩

theorem busStore_not_refused (s : State) (n : Width) (a v : Word) (r : Refusal) : busStore n a v s ≠ .refused r := by
  intro h
  rcases address_cases s a n.bytes with hu | ⟨k, hr⟩ | hs | hs
  · rw [busStore_unmapped n v hu] at h; cases h
  · rw [busStore_ram v hr] at h; cases h
  · rw [busStore_straddle v hs] at h; cases h
  · rw [busStore_serial n v hs] at h
    exact serialStore_not_refused _ _ _ h

/-- Every bus store keeps the canonical form. -/
theorem busStore_keeps_wf {s t : State} {n : Width} {a v : Word} (h : busStore n a v s = .next t)
    (hw : Memory.wf s.mem = true) : Memory.wf t.mem = true := by
  rcases busStore_next h with ⟨_, rfl⟩ | ⟨_, _, rfl⟩ | ⟨_, hs⟩
  · exact hw
  · exact Memory.wf_writeBytes _ _ _ _ hw
  · obtain ⟨o, rfl⟩ := serialStore_frame hs
    exact hw

/-! ### Memory at reset -/

theorem mem_initialCells (i : Nat) (rs : List Region) (contents : List (List Byte)) (c : Host.Cell)
    (h : c ∈ initialCells i rs contents) :
    c.2 ≠ 0#8 ∧ ∃ bank r, rs[bank]? = some r ∧ r.kind = .ram ∧ cellKey (i + bank) r.base ≤ c.1 ∧
      c.1 < cellKey (i + bank) r.base + r.size.toNat := by
  induction rs generalizing i contents with
  | nil => simp [initialCells] at h
  | cons r rs ih =>
    cases contents with
    | nil => simp [initialCells] at h
    | cons bytes more =>
      rw [initialCells, List.mem_append] at h
      rcases h with h | h
      · rcases hk : r.kind
        · rw [hk] at h
          have := mem_imageCells _ _ _ h
          have hl : (bytes.take r.size.toNat).length ≤ r.size.toNat := by simp
          exact ⟨this.2.2, 0, r, by simp, hk, by simpa using this.1, by simp only [Nat.add_zero]; omega⟩
        · rw [hk] at h
          simp at h
      · obtain ⟨h0, bank, q, hq, hk, h1, h2⟩ := ih (i + 1) more h
        rw [show i + 1 + bank = i + (bank + 1) by omega] at h1 h2
        exact ⟨h0, bank + 1, q, by simpa using hq, hk, h1, h2⟩

/-- The board's initial memory is the image from 0x100 on (R61, R76). -/
theorem board_mem (image : List Byte) (input : SerialIn) (output : SerialOut) (h : image.length ≤ Config.maxImageLength) :
    (State.board image input output).mem = imageCells 0x100 image := by
  have hm : image.length < 2 ^ 32 := by unfold Config.maxImageLength at h; omega
  have hmod : image.length % 4294967296 = image.length := Nat.mod_eq_of_lt hm
  simp [State.board, State.boot, busRegions, boardRegions, initialCells, cellKey, Config.boardRamBase, hmod]

/-- Reset memory has the canonical form. -/
theorem reset_mem_wf : Memory.wf State.reset.mem = true := by decide

end Sys2Proof.Machine
end

