-- ==== Sys2Proof/Laws/Encoding.lean ====
section
/-!
SUPPORT. The fields of each layout, read back (30_encoding.md R81 to R87).
-/

namespace Sys2Proof

/-- A field of a concatenation that lies in its low part. -/
theorem extractLsb'_append_low {m n : Nat} (a : BitVec m) (b : BitVec n) (start len : Nat) (h : start + len ≤ n) :
    (a ++ b).extractLsb' start len = b.extractLsb' start len := by
  ext j hj
  simp [BitVec.getLsbD_append]
  omega

/-- A field of a concatenation that lies in its high part. -/
theorem extractLsb'_append_high {m n : Nat} (a : BitVec m) (b : BitVec n) (start len : Nat) (h : n ≤ start) :
    (a ++ b).extractLsb' start len = a.extractLsb' (start - n) len := by
  ext j hj
  have h1 : ¬ start + j < n := by omega
  have h2 : start + j - n = start - n + j := by omega
  simp [BitVec.getLsbD_append, h1, h2]

/-- The whole of a value is a field of it. -/
theorem extractLsb'_whole {n : Nat} (a : BitVec n) : a.extractLsb' 0 n = a := by
  ext j hj
  simp

/-! ### Layout R -/

@[simp] theorem opcodeField_encodeR (f7 : BitVec 7) (b a : Reg) (f3 : BitVec 3) (d : Reg) (op : BitVec 7) :
    opcodeField (encodeR f7 b a f3 d op) = op :=
  (extractLsb'_append_low (f7 ++ b ++ a ++ f3 ++ d) (op) 0 7 (by decide)).trans <|
  extractLsb'_whole (op)

@[simp] theorem rdField_encodeR (f7 : BitVec 7) (b a : Reg) (f3 : BitVec 3) (d : Reg) (op : BitVec 7) :
    rdField (encodeR f7 b a f3 d op) = d :=
  (extractLsb'_append_high (f7 ++ b ++ a ++ f3 ++ d) (op) 7 5 (by decide)).trans <|
  (extractLsb'_append_low (f7 ++ b ++ a ++ f3) (d) 0 5 (by decide)).trans <|
  extractLsb'_whole (d)

@[simp] theorem funct3Field_encodeR (f7 : BitVec 7) (b a : Reg) (f3 : BitVec 3) (d : Reg) (op : BitVec 7) :
    funct3Field (encodeR f7 b a f3 d op) = f3 :=
  (extractLsb'_append_high (f7 ++ b ++ a ++ f3 ++ d) (op) 12 3 (by decide)).trans <|
  (extractLsb'_append_high (f7 ++ b ++ a ++ f3) (d) 5 3 (by decide)).trans <|
  (extractLsb'_append_low (f7 ++ b ++ a) (f3) 0 3 (by decide)).trans <|
  extractLsb'_whole (f3)

@[simp] theorem rs1Field_encodeR (f7 : BitVec 7) (b a : Reg) (f3 : BitVec 3) (d : Reg) (op : BitVec 7) :
    rs1Field (encodeR f7 b a f3 d op) = a :=
  (extractLsb'_append_high (f7 ++ b ++ a ++ f3 ++ d) (op) 15 5 (by decide)).trans <|
  (extractLsb'_append_high (f7 ++ b ++ a ++ f3) (d) 8 5 (by decide)).trans <|
  (extractLsb'_append_high (f7 ++ b ++ a) (f3) 3 5 (by decide)).trans <|
  (extractLsb'_append_low (f7 ++ b) (a) 0 5 (by decide)).trans <|
  extractLsb'_whole (a)

@[simp] theorem rs2Field_encodeR (f7 : BitVec 7) (b a : Reg) (f3 : BitVec 3) (d : Reg) (op : BitVec 7) :
    rs2Field (encodeR f7 b a f3 d op) = b :=
  (extractLsb'_append_high (f7 ++ b ++ a ++ f3 ++ d) (op) 20 5 (by decide)).trans <|
  (extractLsb'_append_high (f7 ++ b ++ a ++ f3) (d) 13 5 (by decide)).trans <|
  (extractLsb'_append_high (f7 ++ b ++ a) (f3) 8 5 (by decide)).trans <|
  (extractLsb'_append_high (f7 ++ b) (a) 5 5 (by decide)).trans <|
  (extractLsb'_append_low (f7) (b) 0 5 (by decide)).trans <|
  extractLsb'_whole (b)

@[simp] theorem funct7Field_encodeR (f7 : BitVec 7) (b a : Reg) (f3 : BitVec 3) (d : Reg) (op : BitVec 7) :
    funct7Field (encodeR f7 b a f3 d op) = f7 :=
  (extractLsb'_append_high (f7 ++ b ++ a ++ f3 ++ d) (op) 25 7 (by decide)).trans <|
  (extractLsb'_append_high (f7 ++ b ++ a ++ f3) (d) 18 7 (by decide)).trans <|
  (extractLsb'_append_high (f7 ++ b ++ a) (f3) 13 7 (by decide)).trans <|
  (extractLsb'_append_high (f7 ++ b) (a) 10 7 (by decide)).trans <|
  (extractLsb'_append_high (f7) (b) 5 7 (by decide)).trans <|
  extractLsb'_whole (f7)

/-! ### Layout I -/

@[simp] theorem opcodeField_encodeI (imm : BitVec 12) (a : Reg) (f3 : BitVec 3) (d : Reg) (op : BitVec 7) :
    opcodeField (encodeI imm a f3 d op) = op :=
  (extractLsb'_append_low (imm ++ a ++ f3 ++ d) (op) 0 7 (by decide)).trans <|
  extractLsb'_whole (op)

@[simp] theorem rdField_encodeI (imm : BitVec 12) (a : Reg) (f3 : BitVec 3) (d : Reg) (op : BitVec 7) :
    rdField (encodeI imm a f3 d op) = d :=
  (extractLsb'_append_high (imm ++ a ++ f3 ++ d) (op) 7 5 (by decide)).trans <|
  (extractLsb'_append_low (imm ++ a ++ f3) (d) 0 5 (by decide)).trans <|
  extractLsb'_whole (d)

@[simp] theorem funct3Field_encodeI (imm : BitVec 12) (a : Reg) (f3 : BitVec 3) (d : Reg) (op : BitVec 7) :
    funct3Field (encodeI imm a f3 d op) = f3 :=
  (extractLsb'_append_high (imm ++ a ++ f3 ++ d) (op) 12 3 (by decide)).trans <|
  (extractLsb'_append_high (imm ++ a ++ f3) (d) 5 3 (by decide)).trans <|
  (extractLsb'_append_low (imm ++ a) (f3) 0 3 (by decide)).trans <|
  extractLsb'_whole (f3)

@[simp] theorem rs1Field_encodeI (imm : BitVec 12) (a : Reg) (f3 : BitVec 3) (d : Reg) (op : BitVec 7) :
    rs1Field (encodeI imm a f3 d op) = a :=
  (extractLsb'_append_high (imm ++ a ++ f3 ++ d) (op) 15 5 (by decide)).trans <|
  (extractLsb'_append_high (imm ++ a ++ f3) (d) 8 5 (by decide)).trans <|
  (extractLsb'_append_high (imm ++ a) (f3) 3 5 (by decide)).trans <|
  (extractLsb'_append_low (imm) (a) 0 5 (by decide)).trans <|
  extractLsb'_whole (a)

@[simp] theorem iField_encodeI (imm : BitVec 12) (a : Reg) (f3 : BitVec 3) (d : Reg) (op : BitVec 7) :
    iField (encodeI imm a f3 d op) = imm :=
  (extractLsb'_append_high (imm ++ a ++ f3 ++ d) (op) 20 12 (by decide)).trans <|
  (extractLsb'_append_high (imm ++ a ++ f3) (d) 13 12 (by decide)).trans <|
  (extractLsb'_append_high (imm ++ a) (f3) 8 12 (by decide)).trans <|
  (extractLsb'_append_high (imm) (a) 5 12 (by decide)).trans <|
  extractLsb'_whole (imm)

/-! ### Layout S -/

@[simp] theorem opcodeField_encodeS (imm : BitVec 12) (b a : Reg) (f3 : BitVec 3) (op : BitVec 7) :
    opcodeField (encodeS imm b a f3 op) = op :=
  (extractLsb'_append_low (imm.extractLsb' 5 7 ++ b ++ a ++ f3 ++ imm.extractLsb' 0 5) (op) 0 7 (by decide)).trans <|
  extractLsb'_whole (op)

@[simp] theorem funct3Field_encodeS (imm : BitVec 12) (b a : Reg) (f3 : BitVec 3) (op : BitVec 7) :
    funct3Field (encodeS imm b a f3 op) = f3 :=
  (extractLsb'_append_high (imm.extractLsb' 5 7 ++ b ++ a ++ f3 ++ imm.extractLsb' 0 5) (op) 12 3 (by decide)).trans <|
  (extractLsb'_append_high (imm.extractLsb' 5 7 ++ b ++ a ++ f3) (imm.extractLsb' 0 5) 5 3 (by decide)).trans <|
  (extractLsb'_append_low (imm.extractLsb' 5 7 ++ b ++ a) (f3) 0 3 (by decide)).trans <|
  extractLsb'_whole (f3)

@[simp] theorem rs1Field_encodeS (imm : BitVec 12) (b a : Reg) (f3 : BitVec 3) (op : BitVec 7) :
    rs1Field (encodeS imm b a f3 op) = a :=
  (extractLsb'_append_high (imm.extractLsb' 5 7 ++ b ++ a ++ f3 ++ imm.extractLsb' 0 5) (op) 15 5 (by decide)).trans <|
  (extractLsb'_append_high (imm.extractLsb' 5 7 ++ b ++ a ++ f3) (imm.extractLsb' 0 5) 8 5 (by decide)).trans <|
  (extractLsb'_append_high (imm.extractLsb' 5 7 ++ b ++ a) (f3) 3 5 (by decide)).trans <|
  (extractLsb'_append_low (imm.extractLsb' 5 7 ++ b) (a) 0 5 (by decide)).trans <|
  extractLsb'_whole (a)

@[simp] theorem rs2Field_encodeS (imm : BitVec 12) (b a : Reg) (f3 : BitVec 3) (op : BitVec 7) :
    rs2Field (encodeS imm b a f3 op) = b :=
  (extractLsb'_append_high (imm.extractLsb' 5 7 ++ b ++ a ++ f3 ++ imm.extractLsb' 0 5) (op) 20 5 (by decide)).trans <|
  (extractLsb'_append_high (imm.extractLsb' 5 7 ++ b ++ a ++ f3) (imm.extractLsb' 0 5) 13 5 (by decide)).trans <|
  (extractLsb'_append_high (imm.extractLsb' 5 7 ++ b ++ a) (f3) 8 5 (by decide)).trans <|
  (extractLsb'_append_high (imm.extractLsb' 5 7 ++ b) (a) 5 5 (by decide)).trans <|
  (extractLsb'_append_low (imm.extractLsb' 5 7) (b) 0 5 (by decide)).trans <|
  extractLsb'_whole (b)

/-! ### Layout B -/

@[simp] theorem opcodeField_encodeB (offset : BitVec 13) (b a : Reg) (f3 : BitVec 3) (op : BitVec 7) :
    opcodeField (encodeB offset b a f3 op) = op :=
  (extractLsb'_append_low (offset.extractLsb' 12 1 ++ offset.extractLsb' 5 6 ++ b ++ a ++ f3 ++ offset.extractLsb' 1 4 ++ offset.extractLsb' 11 1) (op) 0 7 (by decide)).trans <|
  extractLsb'_whole (op)

@[simp] theorem funct3Field_encodeB (offset : BitVec 13) (b a : Reg) (f3 : BitVec 3) (op : BitVec 7) :
    funct3Field (encodeB offset b a f3 op) = f3 :=
  (extractLsb'_append_high (offset.extractLsb' 12 1 ++ offset.extractLsb' 5 6 ++ b ++ a ++ f3 ++ offset.extractLsb' 1 4 ++ offset.extractLsb' 11 1) (op) 12 3 (by decide)).trans <|
  (extractLsb'_append_high (offset.extractLsb' 12 1 ++ offset.extractLsb' 5 6 ++ b ++ a ++ f3 ++ offset.extractLsb' 1 4) (offset.extractLsb' 11 1) 5 3 (by decide)).trans <|
  (extractLsb'_append_high (offset.extractLsb' 12 1 ++ offset.extractLsb' 5 6 ++ b ++ a ++ f3) (offset.extractLsb' 1 4) 4 3 (by decide)).trans <|
  (extractLsb'_append_low (offset.extractLsb' 12 1 ++ offset.extractLsb' 5 6 ++ b ++ a) (f3) 0 3 (by decide)).trans <|
  extractLsb'_whole (f3)

@[simp] theorem rs1Field_encodeB (offset : BitVec 13) (b a : Reg) (f3 : BitVec 3) (op : BitVec 7) :
    rs1Field (encodeB offset b a f3 op) = a :=
  (extractLsb'_append_high (offset.extractLsb' 12 1 ++ offset.extractLsb' 5 6 ++ b ++ a ++ f3 ++ offset.extractLsb' 1 4 ++ offset.extractLsb' 11 1) (op) 15 5 (by decide)).trans <|
  (extractLsb'_append_high (offset.extractLsb' 12 1 ++ offset.extractLsb' 5 6 ++ b ++ a ++ f3 ++ offset.extractLsb' 1 4) (offset.extractLsb' 11 1) 8 5 (by decide)).trans <|
  (extractLsb'_append_high (offset.extractLsb' 12 1 ++ offset.extractLsb' 5 6 ++ b ++ a ++ f3) (offset.extractLsb' 1 4) 7 5 (by decide)).trans <|
  (extractLsb'_append_high (offset.extractLsb' 12 1 ++ offset.extractLsb' 5 6 ++ b ++ a) (f3) 3 5 (by decide)).trans <|
  (extractLsb'_append_low (offset.extractLsb' 12 1 ++ offset.extractLsb' 5 6 ++ b) (a) 0 5 (by decide)).trans <|
  extractLsb'_whole (a)

@[simp] theorem rs2Field_encodeB (offset : BitVec 13) (b a : Reg) (f3 : BitVec 3) (op : BitVec 7) :
    rs2Field (encodeB offset b a f3 op) = b :=
  (extractLsb'_append_high (offset.extractLsb' 12 1 ++ offset.extractLsb' 5 6 ++ b ++ a ++ f3 ++ offset.extractLsb' 1 4 ++ offset.extractLsb' 11 1) (op) 20 5 (by decide)).trans <|
  (extractLsb'_append_high (offset.extractLsb' 12 1 ++ offset.extractLsb' 5 6 ++ b ++ a ++ f3 ++ offset.extractLsb' 1 4) (offset.extractLsb' 11 1) 13 5 (by decide)).trans <|
  (extractLsb'_append_high (offset.extractLsb' 12 1 ++ offset.extractLsb' 5 6 ++ b ++ a ++ f3) (offset.extractLsb' 1 4) 12 5 (by decide)).trans <|
  (extractLsb'_append_high (offset.extractLsb' 12 1 ++ offset.extractLsb' 5 6 ++ b ++ a) (f3) 8 5 (by decide)).trans <|
  (extractLsb'_append_high (offset.extractLsb' 12 1 ++ offset.extractLsb' 5 6 ++ b) (a) 5 5 (by decide)).trans <|
  (extractLsb'_append_low (offset.extractLsb' 12 1 ++ offset.extractLsb' 5 6) (b) 0 5 (by decide)).trans <|
  extractLsb'_whole (b)

/-! ### Layout U -/

@[simp] theorem opcodeField_encodeU (imm20 : BitVec 20) (d : Reg) (op : BitVec 7) :
    opcodeField (encodeU imm20 d op) = op :=
  (extractLsb'_append_low (imm20 ++ d) (op) 0 7 (by decide)).trans <|
  extractLsb'_whole (op)

@[simp] theorem rdField_encodeU (imm20 : BitVec 20) (d : Reg) (op : BitVec 7) :
    rdField (encodeU imm20 d op) = d :=
  (extractLsb'_append_high (imm20 ++ d) (op) 7 5 (by decide)).trans <|
  (extractLsb'_append_low (imm20) (d) 0 5 (by decide)).trans <|
  extractLsb'_whole (d)

@[simp] theorem uField_encodeU (imm20 : BitVec 20) (d : Reg) (op : BitVec 7) :
    uField (encodeU imm20 d op) = imm20 :=
  (extractLsb'_append_high (imm20 ++ d) (op) 12 20 (by decide)).trans <|
  (extractLsb'_append_high (imm20) (d) 5 20 (by decide)).trans <|
  extractLsb'_whole (imm20)

/-! ### Layout J -/

@[simp] theorem opcodeField_encodeJ (offset : BitVec 21) (d : Reg) (op : BitVec 7) :
    opcodeField (encodeJ offset d op) = op :=
  (extractLsb'_append_low (offset.extractLsb' 20 1 ++ offset.extractLsb' 1 10 ++ offset.extractLsb' 11 1 ++ offset.extractLsb' 12 8 ++ d) (op) 0 7 (by decide)).trans <|
  extractLsb'_whole (op)

@[simp] theorem rdField_encodeJ (offset : BitVec 21) (d : Reg) (op : BitVec 7) :
    rdField (encodeJ offset d op) = d :=
  (extractLsb'_append_high (offset.extractLsb' 20 1 ++ offset.extractLsb' 1 10 ++ offset.extractLsb' 11 1 ++ offset.extractLsb' 12 8 ++ d) (op) 7 5 (by decide)).trans <|
  (extractLsb'_append_low (offset.extractLsb' 20 1 ++ offset.extractLsb' 1 10 ++ offset.extractLsb' 11 1 ++ offset.extractLsb' 12 8) (d) 0 5 (by decide)).trans <|
  extractLsb'_whole (d)

/-! ### The immediates put back together -/

theorem encodeS_high (imm : BitVec 12) (b a : Reg) (f3 : BitVec 3) (op : BitVec 7) :
    (encodeS imm b a f3 op).extractLsb' 25 7 = imm.extractLsb' 5 7 :=
  (extractLsb'_append_high (imm.extractLsb' 5 7 ++ b ++ a ++ f3 ++ imm.extractLsb' 0 5) (op) 25 7 (by decide)).trans <|
  (extractLsb'_append_high (imm.extractLsb' 5 7 ++ b ++ a ++ f3) (imm.extractLsb' 0 5) 18 7 (by decide)).trans <|
  (extractLsb'_append_high (imm.extractLsb' 5 7 ++ b ++ a) (f3) 13 7 (by decide)).trans <|
  (extractLsb'_append_high (imm.extractLsb' 5 7 ++ b) (a) 10 7 (by decide)).trans <|
  (extractLsb'_append_high (imm.extractLsb' 5 7) (b) 5 7 (by decide)).trans <|
  extractLsb'_whole (imm.extractLsb' 5 7)

theorem encodeS_low (imm : BitVec 12) (b a : Reg) (f3 : BitVec 3) (op : BitVec 7) :
    (encodeS imm b a f3 op).extractLsb' 7 5 = imm.extractLsb' 0 5 :=
  (extractLsb'_append_high (imm.extractLsb' 5 7 ++ b ++ a ++ f3 ++ imm.extractLsb' 0 5) (op) 7 5 (by decide)).trans <|
  (extractLsb'_append_low (imm.extractLsb' 5 7 ++ b ++ a ++ f3) (imm.extractLsb' 0 5) 0 5 (by decide)).trans <|
  extractLsb'_whole (imm.extractLsb' 0 5)

theorem encodeB_bit31 (offset : BitVec 13) (b a : Reg) (f3 : BitVec 3) (op : BitVec 7) :
    (encodeB offset b a f3 op).extractLsb' 31 1 = offset.extractLsb' 12 1 :=
  (extractLsb'_append_high (offset.extractLsb' 12 1 ++ offset.extractLsb' 5 6 ++ b ++ a ++ f3 ++ offset.extractLsb' 1 4 ++ offset.extractLsb' 11 1) (op) 31 1 (by decide)).trans <|
  (extractLsb'_append_high (offset.extractLsb' 12 1 ++ offset.extractLsb' 5 6 ++ b ++ a ++ f3 ++ offset.extractLsb' 1 4) (offset.extractLsb' 11 1) 24 1 (by decide)).trans <|
  (extractLsb'_append_high (offset.extractLsb' 12 1 ++ offset.extractLsb' 5 6 ++ b ++ a ++ f3) (offset.extractLsb' 1 4) 23 1 (by decide)).trans <|
  (extractLsb'_append_high (offset.extractLsb' 12 1 ++ offset.extractLsb' 5 6 ++ b ++ a) (f3) 19 1 (by decide)).trans <|
  (extractLsb'_append_high (offset.extractLsb' 12 1 ++ offset.extractLsb' 5 6 ++ b) (a) 16 1 (by decide)).trans <|
  (extractLsb'_append_high (offset.extractLsb' 12 1 ++ offset.extractLsb' 5 6) (b) 11 1 (by decide)).trans <|
  (extractLsb'_append_high (offset.extractLsb' 12 1) (offset.extractLsb' 5 6) 6 1 (by decide)).trans <|
  extractLsb'_whole (offset.extractLsb' 12 1)

theorem encodeB_bit7 (offset : BitVec 13) (b a : Reg) (f3 : BitVec 3) (op : BitVec 7) :
    (encodeB offset b a f3 op).extractLsb' 7 1 = offset.extractLsb' 11 1 :=
  (extractLsb'_append_high (offset.extractLsb' 12 1 ++ offset.extractLsb' 5 6 ++ b ++ a ++ f3 ++ offset.extractLsb' 1 4 ++ offset.extractLsb' 11 1) (op) 7 1 (by decide)).trans <|
  (extractLsb'_append_low (offset.extractLsb' 12 1 ++ offset.extractLsb' 5 6 ++ b ++ a ++ f3 ++ offset.extractLsb' 1 4) (offset.extractLsb' 11 1) 0 1 (by decide)).trans <|
  extractLsb'_whole (offset.extractLsb' 11 1)

theorem encodeB_mid (offset : BitVec 13) (b a : Reg) (f3 : BitVec 3) (op : BitVec 7) :
    (encodeB offset b a f3 op).extractLsb' 25 6 = offset.extractLsb' 5 6 :=
  (extractLsb'_append_high (offset.extractLsb' 12 1 ++ offset.extractLsb' 5 6 ++ b ++ a ++ f3 ++ offset.extractLsb' 1 4 ++ offset.extractLsb' 11 1) (op) 25 6 (by decide)).trans <|
  (extractLsb'_append_high (offset.extractLsb' 12 1 ++ offset.extractLsb' 5 6 ++ b ++ a ++ f3 ++ offset.extractLsb' 1 4) (offset.extractLsb' 11 1) 18 6 (by decide)).trans <|
  (extractLsb'_append_high (offset.extractLsb' 12 1 ++ offset.extractLsb' 5 6 ++ b ++ a ++ f3) (offset.extractLsb' 1 4) 17 6 (by decide)).trans <|
  (extractLsb'_append_high (offset.extractLsb' 12 1 ++ offset.extractLsb' 5 6 ++ b ++ a) (f3) 13 6 (by decide)).trans <|
  (extractLsb'_append_high (offset.extractLsb' 12 1 ++ offset.extractLsb' 5 6 ++ b) (a) 10 6 (by decide)).trans <|
  (extractLsb'_append_high (offset.extractLsb' 12 1 ++ offset.extractLsb' 5 6) (b) 5 6 (by decide)).trans <|
  (extractLsb'_append_low (offset.extractLsb' 12 1) (offset.extractLsb' 5 6) 0 6 (by decide)).trans <|
  extractLsb'_whole (offset.extractLsb' 5 6)

theorem encodeB_low (offset : BitVec 13) (b a : Reg) (f3 : BitVec 3) (op : BitVec 7) :
    (encodeB offset b a f3 op).extractLsb' 8 4 = offset.extractLsb' 1 4 :=
  (extractLsb'_append_high (offset.extractLsb' 12 1 ++ offset.extractLsb' 5 6 ++ b ++ a ++ f3 ++ offset.extractLsb' 1 4 ++ offset.extractLsb' 11 1) (op) 8 4 (by decide)).trans <|
  (extractLsb'_append_high (offset.extractLsb' 12 1 ++ offset.extractLsb' 5 6 ++ b ++ a ++ f3 ++ offset.extractLsb' 1 4) (offset.extractLsb' 11 1) 1 4 (by decide)).trans <|
  (extractLsb'_append_low (offset.extractLsb' 12 1 ++ offset.extractLsb' 5 6 ++ b ++ a ++ f3) (offset.extractLsb' 1 4) 0 4 (by decide)).trans <|
  extractLsb'_whole (offset.extractLsb' 1 4)

theorem encodeJ_bit31 (offset : BitVec 21) (d : Reg) (op : BitVec 7) :
    (encodeJ offset d op).extractLsb' 31 1 = offset.extractLsb' 20 1 :=
  (extractLsb'_append_high (offset.extractLsb' 20 1 ++ offset.extractLsb' 1 10 ++ offset.extractLsb' 11 1 ++ offset.extractLsb' 12 8 ++ d) (op) 31 1 (by decide)).trans <|
  (extractLsb'_append_high (offset.extractLsb' 20 1 ++ offset.extractLsb' 1 10 ++ offset.extractLsb' 11 1 ++ offset.extractLsb' 12 8) (d) 24 1 (by decide)).trans <|
  (extractLsb'_append_high (offset.extractLsb' 20 1 ++ offset.extractLsb' 1 10 ++ offset.extractLsb' 11 1) (offset.extractLsb' 12 8) 19 1 (by decide)).trans <|
  (extractLsb'_append_high (offset.extractLsb' 20 1 ++ offset.extractLsb' 1 10) (offset.extractLsb' 11 1) 11 1 (by decide)).trans <|
  (extractLsb'_append_high (offset.extractLsb' 20 1) (offset.extractLsb' 1 10) 10 1 (by decide)).trans <|
  extractLsb'_whole (offset.extractLsb' 20 1)

theorem encodeJ_top (offset : BitVec 21) (d : Reg) (op : BitVec 7) :
    (encodeJ offset d op).extractLsb' 12 8 = offset.extractLsb' 12 8 :=
  (extractLsb'_append_high (offset.extractLsb' 20 1 ++ offset.extractLsb' 1 10 ++ offset.extractLsb' 11 1 ++ offset.extractLsb' 12 8 ++ d) (op) 12 8 (by decide)).trans <|
  (extractLsb'_append_high (offset.extractLsb' 20 1 ++ offset.extractLsb' 1 10 ++ offset.extractLsb' 11 1 ++ offset.extractLsb' 12 8) (d) 5 8 (by decide)).trans <|
  (extractLsb'_append_low (offset.extractLsb' 20 1 ++ offset.extractLsb' 1 10 ++ offset.extractLsb' 11 1) (offset.extractLsb' 12 8) 0 8 (by decide)).trans <|
  extractLsb'_whole (offset.extractLsb' 12 8)

theorem encodeJ_bit20 (offset : BitVec 21) (d : Reg) (op : BitVec 7) :
    (encodeJ offset d op).extractLsb' 20 1 = offset.extractLsb' 11 1 :=
  (extractLsb'_append_high (offset.extractLsb' 20 1 ++ offset.extractLsb' 1 10 ++ offset.extractLsb' 11 1 ++ offset.extractLsb' 12 8 ++ d) (op) 20 1 (by decide)).trans <|
  (extractLsb'_append_high (offset.extractLsb' 20 1 ++ offset.extractLsb' 1 10 ++ offset.extractLsb' 11 1 ++ offset.extractLsb' 12 8) (d) 13 1 (by decide)).trans <|
  (extractLsb'_append_high (offset.extractLsb' 20 1 ++ offset.extractLsb' 1 10 ++ offset.extractLsb' 11 1) (offset.extractLsb' 12 8) 8 1 (by decide)).trans <|
  (extractLsb'_append_low (offset.extractLsb' 20 1 ++ offset.extractLsb' 1 10) (offset.extractLsb' 11 1) 0 1 (by decide)).trans <|
  extractLsb'_whole (offset.extractLsb' 11 1)

theorem encodeJ_low (offset : BitVec 21) (d : Reg) (op : BitVec 7) :
    (encodeJ offset d op).extractLsb' 21 10 = offset.extractLsb' 1 10 :=
  (extractLsb'_append_high (offset.extractLsb' 20 1 ++ offset.extractLsb' 1 10 ++ offset.extractLsb' 11 1 ++ offset.extractLsb' 12 8 ++ d) (op) 21 10 (by decide)).trans <|
  (extractLsb'_append_high (offset.extractLsb' 20 1 ++ offset.extractLsb' 1 10 ++ offset.extractLsb' 11 1 ++ offset.extractLsb' 12 8) (d) 14 10 (by decide)).trans <|
  (extractLsb'_append_high (offset.extractLsb' 20 1 ++ offset.extractLsb' 1 10 ++ offset.extractLsb' 11 1) (offset.extractLsb' 12 8) 9 10 (by decide)).trans <|
  (extractLsb'_append_high (offset.extractLsb' 20 1 ++ offset.extractLsb' 1 10) (offset.extractLsb' 11 1) 1 10 (by decide)).trans <|
  (extractLsb'_append_low (offset.extractLsb' 20 1) (offset.extractLsb' 1 10) 0 10 (by decide)).trans <|
  extractLsb'_whole (offset.extractLsb' 1 10)

/-- Adjacent fields make up the field that holds both. -/
theorem extractLsb'_adjacent {n : Nat} (v : BitVec n) (start len len' : Nat) :
    v.extractLsb' (start + len) len' ++ v.extractLsb' start len = v.extractLsb' start (len' + len) := by
  ext j hj
  simp only [BitVec.getElem_append, BitVec.getElem_extractLsb']
  split
  · rfl
  · congr 1; omega

/-- A value with bit 0 zero is its other bits before a zero. -/
theorem evenOffset_split {n : Nat} (v : BitVec (n + 1)) (h : evenOffset v = true) :
    v.extractLsb' 1 n ++ 0#1 = v := by
  have h0 : v.getLsbD 0 = false := by simpa [evenOffset] using h
  ext j hj
  simp only [BitVec.getElem_append, BitVec.getElem_extractLsb']
  split
  · next hlt =>
    have : j = 0 := by omega
    subst this
    simpa using h0.symm
  · rw [show 1 + (j - 1) = j by omega, BitVec.getLsbD_eq_getElem hj]

@[simp] theorem sField_encodeS (imm : BitVec 12) (b a : Reg) (f3 : BitVec 3) (op : BitVec 7) :
    sField (encodeS imm b a f3 op) = imm := by
  rw [sField, encodeS_high, encodeS_low]
  exact (extractLsb'_adjacent imm 0 5 7).trans (extractLsb'_whole imm)

theorem bField_encodeB (offset : BitVec 13) (b a : Reg) (f3 : BitVec 3) (op : BitVec 7) (h : evenOffset offset = true) :
    bField (encodeB offset b a f3 op) = offset := by
  rw [bField, encodeB_bit31, encodeB_bit7, encodeB_mid, encodeB_low]
  refine Eq.trans ?_ (evenOffset_split offset h)
  congr 1
  have h1 := extractLsb'_adjacent offset 11 1 1
  have h2 := extractLsb'_adjacent offset 5 6 2
  have h3 := extractLsb'_adjacent offset 1 4 8
  exact (congrArg (· ++ offset.extractLsb' 1 4) ((congrArg (· ++ offset.extractLsb' 5 6) h1).trans h2)).trans h3

theorem jField_encodeJ (offset : BitVec 21) (d : Reg) (op : BitVec 7) (h : evenOffset offset = true) :
    jField (encodeJ offset d op) = offset := by
  rw [jField, encodeJ_bit31, encodeJ_top, encodeJ_bit20, encodeJ_low]
  refine Eq.trans ?_ (evenOffset_split offset h)
  congr 1
  have h1 := extractLsb'_adjacent offset 12 8 1
  have h2 := extractLsb'_adjacent offset 11 1 9
  have h3 := extractLsb'_adjacent offset 1 10 10
  exact (congrArg (· ++ offset.extractLsb' 1 10) ((congrArg (· ++ offset.extractLsb' 11 1) h1).trans h2)).trans h3

/-! ### Every word is an R-type word -/

/-- A word put together from its fields (R81). -/
theorem word_eq_encodeR (w : Word) :
    encodeR (funct7Field w) (rs2Field w) (rs1Field w) (funct3Field w) (rdField w) (opcodeField w) = w := by
  have h1 := extractLsb'_adjacent w 20 5 7
  have h2 := extractLsb'_adjacent w 15 5 12
  have h3 := extractLsb'_adjacent w 12 3 17
  have h4 := extractLsb'_adjacent w 7 5 20
  have h5 := extractLsb'_adjacent w 0 7 25
  exact ((congrArg (· ++ opcodeField w) ((congrArg (· ++ rdField w) ((congrArg (· ++ funct3Field w)
    ((congrArg (· ++ rs1Field w) h1).trans h2)).trans h3)).trans h4)).trans h5).trans (extractLsb'_whole w)

/-- Masking goes field by field. -/
theorem encodeR_and (f7 g7 : BitVec 7) (b b' a a' : Reg) (f3 g3 : BitVec 3) (d d' : Reg) (op op' : BitVec 7) :
    encodeR f7 b a f3 d op &&& encodeR g7 b' a' g3 d' op' =
      encodeR (f7 &&& g7) (b &&& b') (a &&& a') (f3 &&& g3) (d &&& d') (op &&& op') := by
  exact (BitVec.and_append (x₁ := f7 ++ b ++ a ++ f3 ++ d) (x₂ := g7 ++ b' ++ a' ++ g3 ++ d')).trans
    (congrArg (· ++ (op &&& op')) ((BitVec.and_append (x₁ := f7 ++ b ++ a ++ f3) (x₂ := g7 ++ b' ++ a' ++ g3)).trans
      (congrArg (· ++ (d &&& d')) ((BitVec.and_append (x₁ := f7 ++ b ++ a) (x₂ := g7 ++ b' ++ a')).trans
        (congrArg (· ++ (f3 &&& g3)) ((BitVec.and_append (x₁ := f7 ++ b) (x₂ := g7 ++ b')).trans
          (congrArg (· ++ (a &&& a')) BitVec.and_append)))))))

/-- Two R-type words are equal exactly when their fields are. -/
theorem encodeR_inj (f7 g7 : BitVec 7) (b b' a a' : Reg) (f3 g3 : BitVec 3) (d d' : Reg) (op op' : BitVec 7) :
    encodeR f7 b a f3 d op = encodeR g7 b' a' g3 d' op' ↔
      f7 = g7 ∧ b = b' ∧ a = a' ∧ f3 = g3 ∧ d = d' ∧ op = op' := by
  constructor
  · intro h
    have e7 := congrArg funct7Field h
    have e2 := congrArg rs2Field h
    have e1 := congrArg rs1Field h
    have e3 := congrArg funct3Field h
    have ed := congrArg rdField h
    have eo := congrArg opcodeField h
    simp only [funct7Field_encodeR, rs2Field_encodeR, rs1Field_encodeR, funct3Field_encodeR, rdField_encodeR,
      opcodeField_encodeR] at e7 e2 e1 e3 ed eo
    exact ⟨e7, e2, e1, e3, ed, eo⟩
  · rintro ⟨rfl, rfl, rfl, rfl, rfl, rfl⟩
    rfl

/-- A word belongs to a row exactly when its masked fields are the row's. -/
theorem OpcodeRow.covers_iff (p7 m7 : BitVec 7) (p2 m2 p1 m1 : Reg) (p3 m3 : BitVec 3) (pd md : Reg) (po mo : BitVec 7)
    (w : Word) :
    OpcodeRow.covers ⟨encodeR p7 p2 p1 p3 pd po, encodeR m7 m2 m1 m3 md mo⟩ w = true ↔
      funct7Field w &&& m7 = p7 ∧ rs2Field w &&& m2 = p2 ∧ rs1Field w &&& m1 = p1 ∧ funct3Field w &&& m3 = p3 ∧
        rdField w &&& md = pd ∧ opcodeField w &&& mo = po := by
  rw [← encodeR_inj, ← encodeR_and, word_eq_encodeR]
  simp [OpcodeRow.covers]

end Sys2Proof
end

