-- ==== Sys2Proof/Laws/Exec.lean ====
section
/-!
SUPPORT. What an instruction that completes has done, said once over all of them (`exec_did`), and what each shape of
instruction gives. Later proofs cite these instead of unfolding the meanings.
-/

namespace Sys2Proof.Machine

/-! ### The shapes -/

/-- Completing at a pc changes nothing but the pc and the counters. -/
theorem retireTo_completes (s : State) (p : Word) : CompletesAt p s (s.retireTo p) :=
  ⟨rfl, ⟨rfl, rfl, rfl⟩, ⟨rfl, rfl, rfl, rfl, rfl⟩, ⟨rfl, rfl⟩, ⟨rfl, rfl, rfl⟩, rfl⟩

theorem setReg_retireTo_writes (rd : Reg) (v p : Word) (s : State) :
    WritesRegister rd v p s ((s.setReg rd v).retireTo p) := by
  refine ⟨⟨rfl, ⟨?_, ?_, ?_⟩, ⟨?_, ?_, ?_, ?_, ?_⟩, ⟨?_, ?_⟩, ⟨?_, ?_, ?_⟩, ?_⟩, fun r => ?_, fun k => ?_⟩ <;> simp

/-- A register-writing instruction (R113, R265). -/
theorem writeAndRetire_writes (rd : Reg) (v : Word) (s : State) :
    ∃ t, writeAndRetire rd v s = .next t ∧ WritesRegister rd v (s.pc + 4#32) s t :=
  ⟨_, rfl, by
    have h := setReg_retireTo_writes rd v (s.pc + 4#32) s
    rwa [show (s.setReg rd v).retireTo (s.pc + 4#32) = (s.setReg rd v).retire by
      simp [State.retire, State.pcAfterFetch]] at h⟩

/-- A jump (R180, R181). -/
theorem linkAndJump_writes (rd : Reg) (target : Word) (s : State) :
    ∃ t, linkAndJump rd target s = .next t ∧ WritesRegister rd (s.pc + 4#32) target s t :=
  ⟨_, rfl, setReg_retireTo_writes rd (s.pc + 4#32) target s⟩

/-- A branch (R182 to R187). -/
theorem branchIf_moves (taken : Bool) (offset : BitVec 13) (s : State) :
    ∃ t, branchIf taken offset s = .next t ∧
      OnlyMoves (if taken then s.pc + displacement offset else s.pc + 4#32) s t :=
  ⟨_, rfl, retireTo_completes s _, fun _ => rfl, fun _ => rfl⟩

/-- A load, given what the bus reads (R200). -/
theorem loadAndRetire_writes {n : Width} {s u : State} {v : Word} (extend : Word → Word) (rd rs1 : Reg) (imm : BitVec 12)
    (h : busLoad n (s.ea rs1 imm) s = .next (v, u)) :
    ∃ t, loadAndRetire n extend rd rs1 imm s = .next t ∧ WritesRegister rd (extend v) (u.pc + 4#32) u t := by
  unfold loadAndRetire
  rw [h]
  exact writeAndRetire_writes rd (extend v) u

/-- Taking an exception (R255). -/
theorem takeException_trap (cause : ExceptionCause) (tval : Word) (s : State) :
    TrapTaken cause.code tval s (takeException cause tval s) :=
  ⟨rfl, rfl, rfl, rfl, ⟨rfl, rfl, rfl⟩, fun _ => rfl, rfl, rfl, ⟨rfl, rfl⟩, fun _ => rfl, ⟨rfl, rfl, rfl⟩, rfl⟩

/-! ### CSRs -/

/-- The number of a CSR (R29). -/
def Csr.number : Csr → CsrNumber
  | .mtvec => 0x305#12
  | .mscratch => 0x340#12
  | .mepc => 0x341#12
  | .mcause => 0x342#12
  | .mtval => 0x343#12
  | .halt => 0x3FF#12
  | .cycle => 0xC00#12
  | .time => 0xC01#12
  | .instret => 0xC02#12
  | .cycleh => 0xC80#12
  | .timeh => 0xC81#12
  | .instreth => 0xC82#12

@[simp] theorem csrOfNumber_number (c : Csr) : csrOfNumber c.number = some c := by
  cases c <;> decide

theorem of_ite_some {α : Type} {p : Prop} [Decidable p] {a c : α} {o : Option α}
    (h : (if p then some a else o) = some c) : (p ∧ a = c) ∨ o = some c := by
  by_cases hp : p
  · rw [if_pos hp, Option.some.injEq] at h
    exact .inl ⟨hp, h⟩
  · rw [if_neg hp] at h
    exact .inr h

theorem eq_number_of_csrOfNumber {n : CsrNumber} {c : Csr} (h : csrOfNumber n = some c) : n = c.number := by
  unfold csrOfNumber at h
  iterate 12
    rcases of_ite_some h with ⟨e, rfl⟩ | h
    · exact e
  cases h

theorem mem_validCsrNumbers (n : CsrNumber) : n ∈ validCsrNumbers ↔ ∃ c : Csr, n = c.number := by
  constructor
  · intro h
    simp only [validCsrNumbers, List.mem_cons, List.not_mem_nil, or_false] at h
    rcases h with h | h | h | h | h | h | h | h | h | h | h | h
    exacts [⟨.mtvec, h⟩, ⟨.mscratch, h⟩, ⟨.mepc, h⟩, ⟨.mcause, h⟩, ⟨.mtval, h⟩, ⟨.halt, h⟩, ⟨.cycle, h⟩, ⟨.time, h⟩,
      ⟨.instret, h⟩, ⟨.cycleh, h⟩, ⟨.timeh, h⟩, ⟨.instreth, h⟩]
  · rintro ⟨c, rfl⟩
    cases c <;> decide

/-- A number is valid exactly when it is one of the twelve (R29, R30). -/
theorem csrOfNumber_eq_none (n : CsrNumber) : csrOfNumber n = none ↔ n ∉ validCsrNumbers := by
  rw [mem_validCsrNumbers]
  constructor
  · rintro h ⟨c, rfl⟩
    simp at h
  · intro h
    rcases hc : csrOfNumber n with _ | c
    · rfl
    · exact absurd ⟨c, eq_number_of_csrOfNumber hc⟩ h

@[simp] theorem csrWrite_number (c : Csr) (v : Word) (s : State) : csrWrite c.number v s = csrWriteTo c v s := by
  unfold csrWrite
  rw [csrOfNumber_number]

/-- A CSR write that answers has changed the CSR file as R39 says, and nothing else. -/
theorem csrWrite_next {csr : CsrNumber} {v : Word} {s t : State} (h : csrWrite csr v s = .next t) :
    CsrWritten csr v s t ∧ t.x = s.x ∧ t.pc = s.pc ∧ t.cycle = s.cycle ∧ t.time = s.time ∧ t.instret = s.instret ∧
      t.mem = s.mem ∧ t.params = s.params ∧ t.serialIn = s.serialIn ∧ t.serialOut = s.serialOut ∧
      t.eosDraws = s.eosDraws := by
  rcases hc : csrOfNumber csr with _ | c
  · simp [csrWrite, hc] at h
  · obtain rfl := eq_number_of_csrOfNumber hc
    rw [csrWrite_number] at h
    cases c <;> simp only [csrWriteTo, reduceCtorEq, Host.Outcome.next.injEq] at h <;> subst h <;>
      simp [CsrWritten, Csr.number]

/-- A CSR write stops only at a number that is not writable (R40). -/
theorem csrWrite_fault {csr : CsrNumber} {v : Word} {s : State} {r : Fault} (h : csrWrite csr v s = .fault r) :
    r = .csrNotWritable ∧ (csr ∉ validCsrNumbers ∨ 0xC00 ≤ csr.toNat) := by
  rcases hc : csrOfNumber csr with _ | c
  · refine ⟨?_, .inl ((csrOfNumber_eq_none _).mp hc)⟩
    simp [csrWrite, hc] at h
    exact h.symm
  · obtain rfl := eq_number_of_csrOfNumber hc
    rw [csrWrite_number] at h
    cases c <;> simp only [csrWriteTo, reduceCtorEq, Host.Outcome.fault.injEq] at h <;>
      exact ⟨h.symm, .inr (by decide)⟩

theorem csrWrite_not_refused (csr : CsrNumber) (v : Word) (s : State) (r : Refusal) : csrWrite csr v s ≠ .refused r := by
  unfold csrWrite csrWriteTo
  split
  · split <;> simp
  · simp

/-- A CSR instruction traps exactly when it fails a check of R224; otherwise it runs R225. -/
theorem csrAccess_eq (w : Word) (csr : CsrNumber) (rd rs1 : Reg) (f : Word → Word → Word) (s : State) :
    (csrAccessIllegal csr rs1 = true ∧ csrAccess w csr rd rs1 f s = .next (takeException .illegalInstruction w s)) ∨
      (csrAccessIllegal csr rs1 = false ∧ ∃ c, csrOfNumber csr = some c ∧
        csrAccess w csr rd rs1 f s = csrSequence csr c rd rs1 f s) := by
  unfold csrAccess csrAccessIllegal csrReadOnlyRange
  rcases h : csrOfNumber csr with _ | c
  · exact .inl ⟨by simp [(csrOfNumber_eq_none _).mp h], rfl⟩
  · have hm : csr ∈ validCsrNumbers := (mem_validCsrNumbers _).mpr ⟨c, eq_number_of_csrOfNumber h⟩
    have hm' : validCsrNumbers.contains csr = true := by simpa using hm
    by_cases hr : (decide (0xC00 ≤ csr.toNat) && rs1 != 0#5) = true
    · exact .inl ⟨by rw [hr, Bool.or_true], by simp only [hr, if_true]⟩
    · refine .inr ⟨?_, c, rfl, by simp only [if_neg hr]⟩
      rw [hm', Bool.not_eq_true] at *
      simpa using hr

/-- Below the counters every valid number is writable (R39). -/
theorem csrWrite_answers {csr : CsrNumber} {c : Csr} (v : Word) (s : State) (h : csrOfNumber csr = some c)
    (hw : csr.toNat < 0xC00) : ∃ t, csrWrite csr v s = .next t := by
  obtain rfl := eq_number_of_csrOfNumber h
  rw [csrWrite_number]
  cases c <;> first
    | exact ⟨_, rfl⟩
    | exact absurd hw (by decide)

/-! ### All instructions -/

/-- What an instruction has done, by its shape: the state it leaves. -/
inductive Did (i : Instr) (s : State) : State → Prop where
  /-- It wrote a register, or none where `rd` is x0, and completed at `p`. -/
  | compute (rd : Reg) (v p : Word) (hp : p = s.pc + 4#32 ∨ (i.wf = true → PcEven s → p.getLsbD 0 = false))
      (ht : instrTraps i = false) : Did i s ((s.setReg rd v).retireTo p)
  /-- It read the bus and wrote a register. -/
  | load (n : Width) (a v v' : Word) (u : State) (rd : Reg) (h : busLoad n a s = .next (v, u))
      (ht : instrTraps i = false) : Did i s (u.setReg rd v').retire
  /-- It wrote the bus. -/
  | store (n : Width) (a v : Word) (u : State) (h : busStore n a v s = .next u) (ht : instrTraps i = false)
      (hi : i.mnemonic = .sb ∨ i.mnemonic = .sh ∨ i.mnemonic = .sw) : Did i s u.retire
  /-- It read a CSR into a register and wrote the CSR. -/
  | csr (n : CsrNumber) (v old : Word) (rd rs1 : Reg) (u : State) (h : csrWrite n v (s.setReg rd old) = .next u)
      (h0 : rs1 ≠ 0#5) (hi : i = .csrrw rd n rs1 ∨ i = .csrrs rd n rs1 ∨ i = .csrrc rd n rs1)
      (ht : instrTraps i = false) : Did i s u.retire
  /-- It raised an exception. -/
  | trap (cause : ExceptionCause) (tval : Word) (ht : instrTraps i = true) : Did i s (takeException cause tval s)

theorem writeAndRetire_did {i : Instr} {s t : State} {rd : Reg} {v : Word} (h : writeAndRetire rd v s = .next t)
    (ht : instrTraps i = false) : Did i s t := by
  cases h
  have := Did.compute (i := i) (s := s) rd v (s.pc + 4#32) (.inl rfl) ht
  rwa [show (s.setReg rd v).retireTo (s.pc + 4#32) = (s.setReg rd v).retire by
    simp [State.retire, State.pcAfterFetch]] at this

/-- A sum of even words is even. -/
theorem even_add {a b : Word} (ha : a.getLsbD 0 = false) (hb : b.getLsbD 0 = false) : (a + b).getLsbD 0 = false := by
  have ha' : a[0] = false := by simpa using ha
  have hb' : b[0] = false := by simpa using hb
  rw [BitVec.getLsbD_add (by decide)]
  simp [ha', hb']

/-- A displacement is as even as its offset (R85, R87). -/
theorem displacement_even {n : Nat} (offset : BitVec (n + 1)) (h : evenOffset offset = true) :
    (displacement offset).getLsbD 0 = false := by
  have h0 : offset.getLsbD 0 = false := by simpa [evenOffset] using h
  rw [displacement, BitVec.getLsbD_signExtend]
  simp only [h0]
  simp

theorem branchIf_did {i : Instr} {s t : State} {taken : Bool} {offset : BitVec 13}
    (h : branchIf taken offset s = .next t) (ht : instrTraps i = false) (hw : i.wf = true → evenOffset offset = true) :
    Did i s t := by
  cases h
  refine (Did.compute (i := i) (s := s) 0#5 0#32 _ ?_ ht : Did i s (s.retireTo _))
  cases taken
  · exact .inl rfl
  · exact .inr fun hi hp => even_add hp (displacement_even offset (hw hi))

theorem loadAndRetire_did {i : Instr} {s t : State} {n : Width} {extend : Word → Word} {rd rs1 : Reg} {imm : BitVec 12}
    (h : loadAndRetire n extend rd rs1 imm s = .next t) (ht : instrTraps i = false) : Did i s t := by
  unfold loadAndRetire at h
  rw [andThen_eq_next] at h
  obtain ⟨⟨v, u⟩, hl, h⟩ := h
  cases h
  exact .load n _ v (extend v) u rd hl ht

theorem storeAndRetire_did {i : Instr} {s t : State} {n : Width} {rs1 rs2 : Reg} {imm : BitVec 12}
    (h : storeAndRetire n rs1 rs2 imm s = .next t) (ht : instrTraps i = false)
    (hi : i.mnemonic = .sb ∨ i.mnemonic = .sh ∨ i.mnemonic = .sw) : Did i s t := by
  unfold storeAndRetire at h
  rw [andThen_eq_next] at h
  obtain ⟨u, hs, h⟩ := h
  cases h
  exact .store n _ _ u hs ht hi

theorem csrAccess_did {i : Instr} {s t : State} {w : Word} {csr : CsrNumber} {rd rs1 : Reg} {f : Word → Word → Word}
    (h : csrAccess w csr rd rs1 f s = .next t) (ht : instrTraps i = csrAccessIllegal csr rs1)
    (hi : i = .csrrw rd csr rs1 ∨ i = .csrrs rd csr rs1 ∨ i = .csrrc rd csr rs1) : Did i s t := by
  rcases csrAccess_eq w csr rd rs1 f s with ⟨hb, he⟩ | ⟨hb, c, _, he⟩
  · rw [he] at h
    cases h
    exact .trap _ _ (ht.trans hb)
  · rw [he, csrSequence] at h
    split at h
    · exact writeAndRetire_did (rd := rd) h (ht.trans hb)
    · next h0 =>
      rw [andThen_eq_next] at h
      obtain ⟨u, hu, h⟩ := h
      cases h
      exact .csr csr _ _ rd rs1 u hu h0 hi (ht.trans hb)

/-- What any instruction that completes has done. -/
theorem exec_did {i : Instr} {s t : State} (h : exec i s = .next t) : Did i s t := by
  cases i with
  | addi rd rs1 imm => exact writeAndRetire_did h rfl
  | slti rd rs1 imm => exact writeAndRetire_did h rfl
  | sltiu rd rs1 imm => exact writeAndRetire_did h rfl
  | xori rd rs1 imm => exact writeAndRetire_did h rfl
  | ori rd rs1 imm => exact writeAndRetire_did h rfl
  | andi rd rs1 imm => exact writeAndRetire_did h rfl
  | slli rd rs1 shamt => exact writeAndRetire_did h rfl
  | srli rd rs1 shamt => exact writeAndRetire_did h rfl
  | srai rd rs1 shamt => exact writeAndRetire_did h rfl
  | add rd rs1 rs2 => exact writeAndRetire_did h rfl
  | sub rd rs1 rs2 => exact writeAndRetire_did h rfl
  | sll rd rs1 rs2 => exact writeAndRetire_did h rfl
  | slt rd rs1 rs2 => exact writeAndRetire_did h rfl
  | sltu rd rs1 rs2 => exact writeAndRetire_did h rfl
  | xor rd rs1 rs2 => exact writeAndRetire_did h rfl
  | srl rd rs1 rs2 => exact writeAndRetire_did h rfl
  | sra rd rs1 rs2 => exact writeAndRetire_did h rfl
  | or rd rs1 rs2 => exact writeAndRetire_did h rfl
  | and rd rs1 rs2 => exact writeAndRetire_did h rfl
  | lui rd imm20 => exact writeAndRetire_did h rfl
  | auipc rd imm20 => exact writeAndRetire_did h rfl
  | jal rd offset => cases h; exact .compute _ _ _ (.inr fun hi hp => even_add hp (displacement_even offset hi)) rfl
  | jalr rd rs1 imm => cases h; exact .compute _ _ _ (.inr fun _ _ => by simp) rfl
  | beq rs1 rs2 offset => exact branchIf_did h rfl id
  | bne rs1 rs2 offset => exact branchIf_did h rfl id
  | blt rs1 rs2 offset => exact branchIf_did h rfl id
  | bge rs1 rs2 offset => exact branchIf_did h rfl id
  | bltu rs1 rs2 offset => exact branchIf_did h rfl id
  | bgeu rs1 rs2 offset => exact branchIf_did h rfl id
  | lb rd rs1 imm => exact loadAndRetire_did h rfl
  | lh rd rs1 imm => exact loadAndRetire_did h rfl
  | lw rd rs1 imm => exact loadAndRetire_did h rfl
  | lbu rd rs1 imm => exact loadAndRetire_did h rfl
  | lhu rd rs1 imm => exact loadAndRetire_did h rfl
  | sb rs1 rs2 imm => exact storeAndRetire_did h rfl (.inl rfl)
  | sh rs1 rs2 imm => exact storeAndRetire_did h rfl (.inr (.inl rfl))
  | sw rs1 rs2 imm => exact storeAndRetire_did h rfl (.inr (.inr rfl))
  | ecall => cases h; exact .trap _ _ rfl
  | ebreak => cases h; exact .trap _ _ rfl
  | csrrw rd csr rs1 => exact csrAccess_did h rfl (.inl rfl)
  | csrrs rd csr rs1 => exact csrAccess_did h rfl (.inr (.inl rfl))
  | csrrc rd csr rs1 => exact csrAccess_did h rfl (.inr (.inr rfl))

end Sys2Proof.Machine
end

