-- ==== Sys2Proof/Laws/PerInstr.lean ====
section
/-!
SUPPORT. Statements made per instruction: `encode` gives a word of the instruction's own row of
spec/opcode_table.json.
-/

namespace Sys2Proof.Laws.EncodingInTable

/-- The instruction's word has its row's fixed bits. -/
def Statement (i : Instr) : Prop := i.mnemonic.row.covers (encode i) = true

theorem addi (rd : Reg) (rs1 : Reg) (imm : BitVec 12) : Statement (.addi rd rs1 imm) := by
  have h : Mnemonic.addi.row = ⟨encodeR 0x00#7 0#5 0#5 0#3 0#5 0x13#7,
      encodeR 0x00#7 0#5 0#5 7#3 0#5 0x7F#7⟩ := by decide
  show Mnemonic.addi.row.covers _ = true
  rw [h, OpcodeRow.covers_iff]
  simp [encode]

theorem slti (rd : Reg) (rs1 : Reg) (imm : BitVec 12) : Statement (.slti rd rs1 imm) := by
  have h : Mnemonic.slti.row = ⟨encodeR 0x00#7 0#5 0#5 2#3 0#5 0x13#7,
      encodeR 0x00#7 0#5 0#5 7#3 0#5 0x7F#7⟩ := by decide
  show Mnemonic.slti.row.covers _ = true
  rw [h, OpcodeRow.covers_iff]
  simp [encode]

theorem sltiu (rd : Reg) (rs1 : Reg) (imm : BitVec 12) : Statement (.sltiu rd rs1 imm) := by
  have h : Mnemonic.sltiu.row = ⟨encodeR 0x00#7 0#5 0#5 3#3 0#5 0x13#7,
      encodeR 0x00#7 0#5 0#5 7#3 0#5 0x7F#7⟩ := by decide
  show Mnemonic.sltiu.row.covers _ = true
  rw [h, OpcodeRow.covers_iff]
  simp [encode]

theorem xori (rd : Reg) (rs1 : Reg) (imm : BitVec 12) : Statement (.xori rd rs1 imm) := by
  have h : Mnemonic.xori.row = ⟨encodeR 0x00#7 0#5 0#5 4#3 0#5 0x13#7,
      encodeR 0x00#7 0#5 0#5 7#3 0#5 0x7F#7⟩ := by decide
  show Mnemonic.xori.row.covers _ = true
  rw [h, OpcodeRow.covers_iff]
  simp [encode]

theorem ori (rd : Reg) (rs1 : Reg) (imm : BitVec 12) : Statement (.ori rd rs1 imm) := by
  have h : Mnemonic.ori.row = ⟨encodeR 0x00#7 0#5 0#5 6#3 0#5 0x13#7,
      encodeR 0x00#7 0#5 0#5 7#3 0#5 0x7F#7⟩ := by decide
  show Mnemonic.ori.row.covers _ = true
  rw [h, OpcodeRow.covers_iff]
  simp [encode]

theorem andi (rd : Reg) (rs1 : Reg) (imm : BitVec 12) : Statement (.andi rd rs1 imm) := by
  have h : Mnemonic.andi.row = ⟨encodeR 0x00#7 0#5 0#5 7#3 0#5 0x13#7,
      encodeR 0x00#7 0#5 0#5 7#3 0#5 0x7F#7⟩ := by decide
  show Mnemonic.andi.row.covers _ = true
  rw [h, OpcodeRow.covers_iff]
  simp [encode]

theorem slli (rd : Reg) (rs1 : Reg) (shamt : BitVec 5) : Statement (.slli rd rs1 shamt) := by
  have h : Mnemonic.slli.row = ⟨encodeR 0x00#7 0#5 0#5 1#3 0#5 0x13#7,
      encodeR 0x00#7 0#5 0#5 7#3 0#5 0x7F#7⟩ := by decide
  show Mnemonic.slli.row.covers _ = true
  rw [h, OpcodeRow.covers_iff]
  simp [encode]

theorem srli (rd : Reg) (rs1 : Reg) (shamt : BitVec 5) : Statement (.srli rd rs1 shamt) := by
  have h : Mnemonic.srli.row = ⟨encodeR 0x00#7 0#5 0#5 5#3 0#5 0x13#7,
      encodeR 0x20#7 0#5 0#5 7#3 0#5 0x7F#7⟩ := by decide
  show Mnemonic.srli.row.covers _ = true
  rw [h, OpcodeRow.covers_iff]
  simp [encode]

theorem srai (rd : Reg) (rs1 : Reg) (shamt : BitVec 5) : Statement (.srai rd rs1 shamt) := by
  have h : Mnemonic.srai.row = ⟨encodeR 0x20#7 0#5 0#5 5#3 0#5 0x13#7,
      encodeR 0x20#7 0#5 0#5 7#3 0#5 0x7F#7⟩ := by decide
  show Mnemonic.srai.row.covers _ = true
  rw [h, OpcodeRow.covers_iff]
  simp [encode]

theorem add (rd : Reg) (rs1 : Reg) (rs2 : Reg) : Statement (.add rd rs1 rs2) := by
  have h : Mnemonic.add.row = ⟨encodeR 0x00#7 0#5 0#5 0#3 0#5 0x33#7,
      encodeR 0x7F#7 0#5 0#5 7#3 0#5 0x7F#7⟩ := by decide
  show Mnemonic.add.row.covers _ = true
  rw [h, OpcodeRow.covers_iff]
  simp [encode]

theorem sub (rd : Reg) (rs1 : Reg) (rs2 : Reg) : Statement (.sub rd rs1 rs2) := by
  have h : Mnemonic.sub.row = ⟨encodeR 0x20#7 0#5 0#5 0#3 0#5 0x33#7,
      encodeR 0x7F#7 0#5 0#5 7#3 0#5 0x7F#7⟩ := by decide
  show Mnemonic.sub.row.covers _ = true
  rw [h, OpcodeRow.covers_iff]
  simp [encode]

theorem sll (rd : Reg) (rs1 : Reg) (rs2 : Reg) : Statement (.sll rd rs1 rs2) := by
  have h : Mnemonic.sll.row = ⟨encodeR 0x00#7 0#5 0#5 1#3 0#5 0x33#7,
      encodeR 0x7F#7 0#5 0#5 7#3 0#5 0x7F#7⟩ := by decide
  show Mnemonic.sll.row.covers _ = true
  rw [h, OpcodeRow.covers_iff]
  simp [encode]

theorem slt (rd : Reg) (rs1 : Reg) (rs2 : Reg) : Statement (.slt rd rs1 rs2) := by
  have h : Mnemonic.slt.row = ⟨encodeR 0x00#7 0#5 0#5 2#3 0#5 0x33#7,
      encodeR 0x7F#7 0#5 0#5 7#3 0#5 0x7F#7⟩ := by decide
  show Mnemonic.slt.row.covers _ = true
  rw [h, OpcodeRow.covers_iff]
  simp [encode]

theorem sltu (rd : Reg) (rs1 : Reg) (rs2 : Reg) : Statement (.sltu rd rs1 rs2) := by
  have h : Mnemonic.sltu.row = ⟨encodeR 0x00#7 0#5 0#5 3#3 0#5 0x33#7,
      encodeR 0x7F#7 0#5 0#5 7#3 0#5 0x7F#7⟩ := by decide
  show Mnemonic.sltu.row.covers _ = true
  rw [h, OpcodeRow.covers_iff]
  simp [encode]

theorem xor (rd : Reg) (rs1 : Reg) (rs2 : Reg) : Statement (.xor rd rs1 rs2) := by
  have h : Mnemonic.xor.row = ⟨encodeR 0x00#7 0#5 0#5 4#3 0#5 0x33#7,
      encodeR 0x7F#7 0#5 0#5 7#3 0#5 0x7F#7⟩ := by decide
  show Mnemonic.xor.row.covers _ = true
  rw [h, OpcodeRow.covers_iff]
  simp [encode]

theorem srl (rd : Reg) (rs1 : Reg) (rs2 : Reg) : Statement (.srl rd rs1 rs2) := by
  have h : Mnemonic.srl.row = ⟨encodeR 0x00#7 0#5 0#5 5#3 0#5 0x33#7,
      encodeR 0x7F#7 0#5 0#5 7#3 0#5 0x7F#7⟩ := by decide
  show Mnemonic.srl.row.covers _ = true
  rw [h, OpcodeRow.covers_iff]
  simp [encode]

theorem sra (rd : Reg) (rs1 : Reg) (rs2 : Reg) : Statement (.sra rd rs1 rs2) := by
  have h : Mnemonic.sra.row = ⟨encodeR 0x20#7 0#5 0#5 5#3 0#5 0x33#7,
      encodeR 0x7F#7 0#5 0#5 7#3 0#5 0x7F#7⟩ := by decide
  show Mnemonic.sra.row.covers _ = true
  rw [h, OpcodeRow.covers_iff]
  simp [encode]

theorem or (rd : Reg) (rs1 : Reg) (rs2 : Reg) : Statement (.or rd rs1 rs2) := by
  have h : Mnemonic.or.row = ⟨encodeR 0x00#7 0#5 0#5 6#3 0#5 0x33#7,
      encodeR 0x7F#7 0#5 0#5 7#3 0#5 0x7F#7⟩ := by decide
  show Mnemonic.or.row.covers _ = true
  rw [h, OpcodeRow.covers_iff]
  simp [encode]

theorem and (rd : Reg) (rs1 : Reg) (rs2 : Reg) : Statement (.and rd rs1 rs2) := by
  have h : Mnemonic.and.row = ⟨encodeR 0x00#7 0#5 0#5 7#3 0#5 0x33#7,
      encodeR 0x7F#7 0#5 0#5 7#3 0#5 0x7F#7⟩ := by decide
  show Mnemonic.and.row.covers _ = true
  rw [h, OpcodeRow.covers_iff]
  simp [encode]

theorem lui (rd : Reg) (imm20 : BitVec 20) : Statement (.lui rd imm20) := by
  have h : Mnemonic.lui.row = ⟨encodeR 0x00#7 0#5 0#5 0#3 0#5 0x37#7,
      encodeR 0x00#7 0#5 0#5 0#3 0#5 0x7F#7⟩ := by decide
  show Mnemonic.lui.row.covers _ = true
  rw [h, OpcodeRow.covers_iff]
  simp [encode]

theorem auipc (rd : Reg) (imm20 : BitVec 20) : Statement (.auipc rd imm20) := by
  have h : Mnemonic.auipc.row = ⟨encodeR 0x00#7 0#5 0#5 0#3 0#5 0x17#7,
      encodeR 0x00#7 0#5 0#5 0#3 0#5 0x7F#7⟩ := by decide
  show Mnemonic.auipc.row.covers _ = true
  rw [h, OpcodeRow.covers_iff]
  simp [encode]

theorem jal (rd : Reg) (offset : BitVec 21) : Statement (.jal rd offset) := by
  have h : Mnemonic.jal.row = ⟨encodeR 0x00#7 0#5 0#5 0#3 0#5 0x6F#7,
      encodeR 0x00#7 0#5 0#5 0#3 0#5 0x7F#7⟩ := by decide
  show Mnemonic.jal.row.covers _ = true
  rw [h, OpcodeRow.covers_iff]
  simp [encode]

theorem jalr (rd : Reg) (rs1 : Reg) (imm : BitVec 12) : Statement (.jalr rd rs1 imm) := by
  have h : Mnemonic.jalr.row = ⟨encodeR 0x00#7 0#5 0#5 0#3 0#5 0x67#7,
      encodeR 0x00#7 0#5 0#5 7#3 0#5 0x7F#7⟩ := by decide
  show Mnemonic.jalr.row.covers _ = true
  rw [h, OpcodeRow.covers_iff]
  simp [encode]

theorem beq (rs1 : Reg) (rs2 : Reg) (offset : BitVec 13) : Statement (.beq rs1 rs2 offset) := by
  have h : Mnemonic.beq.row = ⟨encodeR 0x00#7 0#5 0#5 0#3 0#5 0x63#7,
      encodeR 0x00#7 0#5 0#5 7#3 0#5 0x7F#7⟩ := by decide
  show Mnemonic.beq.row.covers _ = true
  rw [h, OpcodeRow.covers_iff]
  simp [encode]

theorem bne (rs1 : Reg) (rs2 : Reg) (offset : BitVec 13) : Statement (.bne rs1 rs2 offset) := by
  have h : Mnemonic.bne.row = ⟨encodeR 0x00#7 0#5 0#5 1#3 0#5 0x63#7,
      encodeR 0x00#7 0#5 0#5 7#3 0#5 0x7F#7⟩ := by decide
  show Mnemonic.bne.row.covers _ = true
  rw [h, OpcodeRow.covers_iff]
  simp [encode]

theorem blt (rs1 : Reg) (rs2 : Reg) (offset : BitVec 13) : Statement (.blt rs1 rs2 offset) := by
  have h : Mnemonic.blt.row = ⟨encodeR 0x00#7 0#5 0#5 4#3 0#5 0x63#7,
      encodeR 0x00#7 0#5 0#5 7#3 0#5 0x7F#7⟩ := by decide
  show Mnemonic.blt.row.covers _ = true
  rw [h, OpcodeRow.covers_iff]
  simp [encode]

theorem bge (rs1 : Reg) (rs2 : Reg) (offset : BitVec 13) : Statement (.bge rs1 rs2 offset) := by
  have h : Mnemonic.bge.row = ⟨encodeR 0x00#7 0#5 0#5 5#3 0#5 0x63#7,
      encodeR 0x00#7 0#5 0#5 7#3 0#5 0x7F#7⟩ := by decide
  show Mnemonic.bge.row.covers _ = true
  rw [h, OpcodeRow.covers_iff]
  simp [encode]

theorem bltu (rs1 : Reg) (rs2 : Reg) (offset : BitVec 13) : Statement (.bltu rs1 rs2 offset) := by
  have h : Mnemonic.bltu.row = ⟨encodeR 0x00#7 0#5 0#5 6#3 0#5 0x63#7,
      encodeR 0x00#7 0#5 0#5 7#3 0#5 0x7F#7⟩ := by decide
  show Mnemonic.bltu.row.covers _ = true
  rw [h, OpcodeRow.covers_iff]
  simp [encode]

theorem bgeu (rs1 : Reg) (rs2 : Reg) (offset : BitVec 13) : Statement (.bgeu rs1 rs2 offset) := by
  have h : Mnemonic.bgeu.row = ⟨encodeR 0x00#7 0#5 0#5 7#3 0#5 0x63#7,
      encodeR 0x00#7 0#5 0#5 7#3 0#5 0x7F#7⟩ := by decide
  show Mnemonic.bgeu.row.covers _ = true
  rw [h, OpcodeRow.covers_iff]
  simp [encode]

theorem lb (rd : Reg) (rs1 : Reg) (imm : BitVec 12) : Statement (.lb rd rs1 imm) := by
  have h : Mnemonic.lb.row = ⟨encodeR 0x00#7 0#5 0#5 0#3 0#5 0x03#7,
      encodeR 0x00#7 0#5 0#5 7#3 0#5 0x7F#7⟩ := by decide
  show Mnemonic.lb.row.covers _ = true
  rw [h, OpcodeRow.covers_iff]
  simp [encode]

theorem lh (rd : Reg) (rs1 : Reg) (imm : BitVec 12) : Statement (.lh rd rs1 imm) := by
  have h : Mnemonic.lh.row = ⟨encodeR 0x00#7 0#5 0#5 1#3 0#5 0x03#7,
      encodeR 0x00#7 0#5 0#5 7#3 0#5 0x7F#7⟩ := by decide
  show Mnemonic.lh.row.covers _ = true
  rw [h, OpcodeRow.covers_iff]
  simp [encode]

theorem lw (rd : Reg) (rs1 : Reg) (imm : BitVec 12) : Statement (.lw rd rs1 imm) := by
  have h : Mnemonic.lw.row = ⟨encodeR 0x00#7 0#5 0#5 2#3 0#5 0x03#7,
      encodeR 0x00#7 0#5 0#5 7#3 0#5 0x7F#7⟩ := by decide
  show Mnemonic.lw.row.covers _ = true
  rw [h, OpcodeRow.covers_iff]
  simp [encode]

theorem lbu (rd : Reg) (rs1 : Reg) (imm : BitVec 12) : Statement (.lbu rd rs1 imm) := by
  have h : Mnemonic.lbu.row = ⟨encodeR 0x00#7 0#5 0#5 4#3 0#5 0x03#7,
      encodeR 0x00#7 0#5 0#5 7#3 0#5 0x7F#7⟩ := by decide
  show Mnemonic.lbu.row.covers _ = true
  rw [h, OpcodeRow.covers_iff]
  simp [encode]

theorem lhu (rd : Reg) (rs1 : Reg) (imm : BitVec 12) : Statement (.lhu rd rs1 imm) := by
  have h : Mnemonic.lhu.row = ⟨encodeR 0x00#7 0#5 0#5 5#3 0#5 0x03#7,
      encodeR 0x00#7 0#5 0#5 7#3 0#5 0x7F#7⟩ := by decide
  show Mnemonic.lhu.row.covers _ = true
  rw [h, OpcodeRow.covers_iff]
  simp [encode]

theorem sb (rs1 : Reg) (rs2 : Reg) (imm : BitVec 12) : Statement (.sb rs1 rs2 imm) := by
  have h : Mnemonic.sb.row = ⟨encodeR 0x00#7 0#5 0#5 0#3 0#5 0x23#7,
      encodeR 0x00#7 0#5 0#5 7#3 0#5 0x7F#7⟩ := by decide
  show Mnemonic.sb.row.covers _ = true
  rw [h, OpcodeRow.covers_iff]
  simp [encode]

theorem sh (rs1 : Reg) (rs2 : Reg) (imm : BitVec 12) : Statement (.sh rs1 rs2 imm) := by
  have h : Mnemonic.sh.row = ⟨encodeR 0x00#7 0#5 0#5 1#3 0#5 0x23#7,
      encodeR 0x00#7 0#5 0#5 7#3 0#5 0x7F#7⟩ := by decide
  show Mnemonic.sh.row.covers _ = true
  rw [h, OpcodeRow.covers_iff]
  simp [encode]

theorem sw (rs1 : Reg) (rs2 : Reg) (imm : BitVec 12) : Statement (.sw rs1 rs2 imm) := by
  have h : Mnemonic.sw.row = ⟨encodeR 0x00#7 0#5 0#5 2#3 0#5 0x23#7,
      encodeR 0x00#7 0#5 0#5 7#3 0#5 0x7F#7⟩ := by decide
  show Mnemonic.sw.row.covers _ = true
  rw [h, OpcodeRow.covers_iff]
  simp [encode]

theorem ecall : Statement .ecall := by
  unfold Statement
  decide

theorem ebreak : Statement .ebreak := by
  unfold Statement
  decide

theorem csrrw (rd : Reg) (csr : CsrNumber) (rs1 : Reg) : Statement (.csrrw rd csr rs1) := by
  have h : Mnemonic.csrrw.row = ⟨encodeR 0x00#7 0#5 0#5 1#3 0#5 0x73#7,
      encodeR 0x00#7 0#5 0#5 7#3 0#5 0x7F#7⟩ := by decide
  show Mnemonic.csrrw.row.covers _ = true
  rw [h, OpcodeRow.covers_iff]
  simp [encode]

theorem csrrs (rd : Reg) (csr : CsrNumber) (rs1 : Reg) : Statement (.csrrs rd csr rs1) := by
  have h : Mnemonic.csrrs.row = ⟨encodeR 0x00#7 0#5 0#5 2#3 0#5 0x73#7,
      encodeR 0x00#7 0#5 0#5 7#3 0#5 0x7F#7⟩ := by decide
  show Mnemonic.csrrs.row.covers _ = true
  rw [h, OpcodeRow.covers_iff]
  simp [encode]

theorem csrrc (rd : Reg) (csr : CsrNumber) (rs1 : Reg) : Statement (.csrrc rd csr rs1) := by
  have h : Mnemonic.csrrc.row = ⟨encodeR 0x00#7 0#5 0#5 3#3 0#5 0x73#7,
      encodeR 0x00#7 0#5 0#5 7#3 0#5 0x7F#7⟩ := by decide
  show Mnemonic.csrrc.row.covers _ = true
  rw [h, OpcodeRow.covers_iff]
  simp [encode]

end Sys2Proof.Laws.EncodingInTable
end

