-- ==== Sys2Proof/Laws/Step.lean ====
section
/-!
SUPPORT. What a step that answers has done, and that an instruction placed for the next fetch is the one the next step
fetches.
-/

namespace Sys2Proof.Machine

/-- A step that answers: the configuration is good, the core is not halted, the fetch answered, and the word was run. -/
theorem step_next {s t : State} (h : step s = .next t) :
    busOk s.params.bus = true ∧ s.halted = false ∧ ∃ w u, fetch s = .next (w, u) ∧ runWord w u = .next t := by
  unfold step at h
  split at h
  · next hb =>
    split at h
    · cases h
    · next hh =>
      rw [andThen_eq_next] at h
      obtain ⟨⟨w, u⟩, hf, hr⟩ := h
      exact ⟨hb, by simpa using hh, w, u, hf, hr⟩
  · cases h

/-- Under a good configuration a core that is not halted fetches and runs. -/
theorem step_eq {s : State} (hb : busOk s.params.bus = true) (hh : s.halted = false) :
    step s = andThen (fetch s) fun p => runWord p.1 p.2 := by
  simp [step, hb, hh]

/-- Running a word: its instruction, or the illegal-instruction trap. -/
theorem runWord_next {w : Word} {u t : State} (h : runWord w u = .next t) :
    (∃ i, decode w = .ok i ∧ exec i u = .next t) ∨
      (∃ e, decode w = .error e ∧ t = takeException .illegalInstruction w u) := by
  unfold runWord at h
  split at h
  · next i hi => exact .inl ⟨i, hi, h⟩
  · next e he => cases h; exact .inr ⟨e, he, rfl⟩

/-- A fetch changes only the input stream and the draw counter (R112). -/
theorem fetch_frame {s u : State} {w : Word} (h : fetch s = .next (w, u)) :
    ∃ input draws, u = { s with serialIn := input, eosDraws := draws } := busLoad_frame h

/-! ### Runs -/

@[simp] theorem run_zero (s : State) : Host.Core.run Sys2Proof.core 0 s = .next s := rfl

/-- A run goes on from the state its first step leaves. -/
theorem run_succ_of_step {k : Nat} {s u : State} (h : step s = .next u) :
    Host.Core.run Sys2Proof.core (k + 1) s = Host.Core.run Sys2Proof.core k u := by
  have h' : Sys2Proof.core.step s = .next u := h
  exact (Host.Core.run.eq_2 Sys2Proof.core s k).trans (by rw [h'])

/-- A run of `k + 1` steps that answers is a step that answers and a run of `k` steps. -/
theorem run_succ_next {k : Nat} {s t : State} :
    Host.Core.run Sys2Proof.core (k + 1) s = .next t ↔
      ∃ u, step s = .next u ∧ Host.Core.run Sys2Proof.core k u = .next t := by
  have e := Host.Core.run.eq_2 Sys2Proof.core s k
  rcases hs : step s with u | r | r
  · rw [run_succ_of_step hs]; simp
  · have h' : Sys2Proof.core.step s = .fault r := hs
    rw [h'] at e
    rw [e]; simp
  · have h' : Sys2Proof.core.step s = .refused r := hs
    rw [h'] at e
    rw [e]; simp

/-! ### Placing an instruction -/

theorem fetchBank_some {s : State} {bank : Nat} (h : fetchBank s = some bank) : InRam s s.pc 4 (cellKey bank s.pc) := by
  unfold fetchBank at h
  split at h
  · next b r hr =>
    by_cases hk : r.kind = .ram ∧ accessInside r s.pc 4 = true
    · rw [if_pos hk, Option.some.injEq] at h
      subst h
      exact ⟨b, r, hr, hk.1, (accessInside_iff _ _ _).mp hk.2, rfl⟩
    · rw [if_neg hk] at h
      cases h
  · cases h

theorem fetchBank_of_inRam {s : State} {bank : Nat} {r : Region} (hr : s.region s.pc = some (bank, r))
    (hk : r.kind = .ram) (hi : s.pc.toNat + 4 ≤ r.base.toNat + r.size.toNat) : fetchBank s = some bank := by
  unfold fetchBank
  rw [hr]
  simp only [hk, (accessInside_iff _ _ _).mpr hi, and_self, if_true]

@[simp] theorem withFetchRegion_pc (s : State) : (withFetchRegion s).pc = s.pc := rfl

theorem withFetchRegion_bank (s : State) : fetchBank (withFetchRegion s) = some 0 := by
  have h4 : (4#32).toNat = 4 := rfl
  refine fetchBank_of_inRam (r := ⟨s.pc, 4#32, .ram⟩) ?_ rfl (by rw [h4]; exact le_refl _)
  show findRegion (⟨s.pc, 4#32, .ram⟩ :: _) 0 s.pc = _
  rw [findRegion, if_pos]
  exact (regionContains_iff _ _).mpr ⟨le_refl _, by rw [h4]; show s.pc.toNat < s.pc.toNat + 4; omega⟩

/-- Room for a fetch is RAM at the same pc, under a configuration the step accepts. -/
theorem withFetchRoom_spec (s : State) (hb : busOk s.params.bus = true) (hp : s.pc.toNat + 4 ≤ 2 ^ 32) :
    (∃ bank, fetchBank (withFetchRoom s) = some bank) ∧ (withFetchRoom s).pc = s.pc ∧
      busOk (withFetchRoom s).params.bus = true ∧ (withFetchRoom s).halted = s.halted := by
  have hown : busOk (withFetchRegion s).params.bus = true := by
    have h4 : (4#32).toNat = 4 := rfl
    show (⟨s.pc, 4#32, .ram⟩ :: busRegions s.params.bus).all regionFits = true
    rw [List.all_cons, Bool.and_eq_true]
    refine ⟨by simp only [regionFits, decide_eq_true_eq, h4]; exact hp, ?_⟩
    rcases hbus : s.params.bus with len | rs
    · rw [hbus] at hb
      have hl : len ≤ 0xFFFFFEFE := of_decide_eq_true hb
      simp [busRegions, boardRegions, regionFits, Config.boardRamBase, Config.boardSerialBase]
      omega
    · rw [hbus] at hb
      exact hb
  unfold withFetchRoom
  split
  · next bank h => exact ⟨⟨bank, h⟩, rfl, hb, rfl⟩
  · split
    · next len hbus =>
      dsimp only
      split
      · next hc =>
        have hbase : Config.boardRamBase.toNat = 0x100 := rfl
        rw [hbase] at hc ⊢
        refine ⟨⟨0, ?_⟩, rfl, by simp only [busOk]; exact decide_eq_true hc.2.2, rfl⟩
        have hl : s.pc.toNat + 4 - 0x100 < 2 ^ 32 := by omega
        have hsz : (BitVec.ofNat 32 (s.pc.toNat + 4 - 0x100)).toNat = s.pc.toNat + 4 - 0x100 := by
          rw [BitVec.toNat_ofNat]; exact Nat.mod_eq_of_lt hl
        refine fetchBank_of_inRam (r := ⟨Config.boardRamBase, BitVec.ofNat 32 (s.pc.toNat + 4 - 0x100), .ram⟩) ?_ rfl
          (by rw [hsz, hbase]; show s.pc.toNat + 4 ≤ _; omega)
        show findRegion (boardRegions _) 0 s.pc = _
        rw [boardRegions, findRegion, if_pos]
        exact (regionContains_iff _ _).mpr ⟨by rw [hbase]; exact hc.1, by rw [hsz, hbase]; omega⟩
      · exact ⟨⟨0, withFetchRegion_bank s⟩, rfl, hown, rfl⟩
    · exact ⟨⟨0, withFetchRegion_bank s⟩, rfl, hown, rfl⟩

/-- A stored word reads back. -/
theorem readBytes_writeBytes_word (m : List Host.Cell) (k : Nat) (w : Word) :
    readBytes (writeBytes m k 4 w) k 4 = w := by
  apply BitVec.eq_of_getLsbD_eq
  intro j hj
  rw [readBytes_writeBytes _ _ _ _ _ hj]
  simp [hj]

/-- The word placed is the word the next step fetches, and that step runs it (log entry 7). -/
theorem placeWord_step (w : Word) (s : State) : step (placeWord w s) = runWord w (placeWord w s) := by
  have hready : busOk (readyToFetch s).params.bus = true ∧ (readyToFetch s).pc.toNat + 4 ≤ 2 ^ 32 := by
    constructor
    · show busOk (if busOk s.params.bus then s.params else { s.params with bus := .board 0 }).bus = true
      split
      · assumption
      · exact (by decide : busOk (.board 0) = true)
    · show (if s.pc.toNat + 4 ≤ 2 ^ 32 then s.pc else Config.boardResetPc).toNat + 4 ≤ 2 ^ 32
      split
      · assumption
      · decide
  obtain ⟨⟨bank, hbank⟩, _, hok, hh⟩ := withFetchRoom_spec _ hready.1 hready.2
  have hplace : placeWord w s = { withFetchRoom (readyToFetch s) with
      mem := writeBytes (withFetchRoom (readyToFetch s)).mem (cellKey bank (withFetchRoom (readyToFetch s)).pc) 4 w } := by
    simp only [placeWord, hbank]
  generalize hroom : withFetchRoom (readyToFetch s) = u at *
  have hin : InRam (placeWord w s) (placeWord w s).pc 4 (cellKey bank u.pc) := by
    obtain ⟨b, r, h1, h2, h3, h4⟩ := fetchBank_some hbank
    rw [hplace]
    exact ⟨b, r, h1, h2, h3, h4⟩
  have hf : fetch (placeWord w s) = .next (w, placeWord w s) := by
    have := busLoad_ram (n := .word) hin
    rw [fetch, this]
    have hm : (placeWord w s).mem = writeBytes u.mem (cellKey bank u.pc) 4 w := by rw [hplace]
    rw [hm]
    exact congrArg (fun v => Host.Outcome.next (v, placeWord w s)) (readBytes_writeBytes_word _ _ _)
  rw [step_eq (by rw [hplace]; exact hok) (by rw [hplace]; exact hh), hf]
  rfl

end Sys2Proof.Machine
end

