-- ==== Sys2Proof/Tests/Slice0.lean ====
section
/-!
SUPPORT. Tests: ill-formed terms, one word of each instruction written out from its encoding, one or two steps of each
instruction from the vectors of 95_test_vectors.md, and a witness for the hypotheses of each statement.
-/

namespace Sys2Proof.Tests

open Sys2Proof.Machine

/-! ### Well-formedness: an odd displacement is refused (R85, R87) -/

theorem test_wf_beq_odd : (Instr.beq 6#5 7#5 0x1001#13).wf = false := by decide
theorem test_wf_bne_odd : (Instr.bne 6#5 7#5 0x1001#13).wf = false := by decide
theorem test_wf_blt_odd : (Instr.blt 6#5 7#5 0x1001#13).wf = false := by decide
theorem test_wf_bge_odd : (Instr.bge 6#5 7#5 0x1001#13).wf = false := by decide
theorem test_wf_bltu_odd : (Instr.bltu 6#5 7#5 0x1001#13).wf = false := by decide
theorem test_wf_bgeu_odd : (Instr.bgeu 6#5 7#5 0x1001#13).wf = false := by decide
theorem test_wf_jal_odd : (Instr.jal 1#5 0x100001#21).wf = false := by decide

/-! ### Decoding: words written out field by field from R82 to R96 -/

theorem test_decode_addi :
    decode 0b100000000101_00110_000_00101_0010011#32 = .ok (.addi 5#5 6#5 0b100000000101#12) := by decide
theorem test_decode_slti :
    decode 0b011111111110_00110_010_00101_0010011#32 = .ok (.slti 5#5 6#5 0b011111111110#12) := by decide
theorem test_decode_sltiu :
    decode 0b111111111111_00110_011_00101_0010011#32 = .ok (.sltiu 5#5 6#5 0b111111111111#12) := by decide
theorem test_decode_xori :
    decode 0b101010101010_00110_100_00101_0010011#32 = .ok (.xori 5#5 6#5 0b101010101010#12) := by decide
theorem test_decode_ori :
    decode 0b110000000011_00110_110_00101_0010011#32 = .ok (.ori 5#5 6#5 0b110000000011#12) := by decide
theorem test_decode_andi :
    decode 0b000000010000_00110_111_00101_0010011#32 = .ok (.andi 5#5 6#5 0b000000010000#12) := by decide
theorem test_decode_slli :
    decode 0b0000000_10011_00110_001_00101_0010011#32 = .ok (.slli 5#5 6#5 0b10011#5) := by decide
theorem test_decode_srli :
    decode 0b0000000_10011_00110_101_00101_0010011#32 = .ok (.srli 5#5 6#5 0b10011#5) := by decide
theorem test_decode_srai :
    decode 0b0100000_10011_00110_101_00101_0010011#32 = .ok (.srai 5#5 6#5 0b10011#5) := by decide
theorem test_decode_add :
    decode 0b0000000_00111_00110_000_00101_0110011#32 = .ok (.add 5#5 6#5 7#5) := by decide
theorem test_decode_sub :
    decode 0b0100000_00111_00110_000_00101_0110011#32 = .ok (.sub 5#5 6#5 7#5) := by decide
theorem test_decode_sll :
    decode 0b0000000_00111_00110_001_00101_0110011#32 = .ok (.sll 5#5 6#5 7#5) := by decide
theorem test_decode_slt :
    decode 0b0000000_00111_00110_010_00101_0110011#32 = .ok (.slt 5#5 6#5 7#5) := by decide
theorem test_decode_sltu :
    decode 0b0000000_00111_00110_011_00101_0110011#32 = .ok (.sltu 5#5 6#5 7#5) := by decide
theorem test_decode_xor :
    decode 0b0000000_00111_00110_100_00101_0110011#32 = .ok (.xor 5#5 6#5 7#5) := by decide
theorem test_decode_srl :
    decode 0b0000000_00111_00110_101_00101_0110011#32 = .ok (.srl 5#5 6#5 7#5) := by decide
theorem test_decode_sra :
    decode 0b0100000_00111_00110_101_00101_0110011#32 = .ok (.sra 5#5 6#5 7#5) := by decide
theorem test_decode_or :
    decode 0b0000000_00111_00110_110_00101_0110011#32 = .ok (.or 5#5 6#5 7#5) := by decide
theorem test_decode_and :
    decode 0b0000000_00111_00110_111_00101_0110011#32 = .ok (.and 5#5 6#5 7#5) := by decide
theorem test_decode_lui :
    decode 0b10000000000000000110_00101_0110111#32 = .ok (.lui 5#5 0b10000000000000000110#20) := by decide
theorem test_decode_auipc :
    decode 0b00011111000000000001_00101_0010111#32 = .ok (.auipc 5#5 0b00011111000000000001#20) := by decide
theorem test_decode_jal :
    decode 0b1_0110100101_0_10010110_00101_1101111#32 = .ok (.jal 5#5 0b1_10010110_0_0110100101_0#21) := by decide
theorem test_decode_jalr :
    decode 0b110000000011_00110_000_00101_1100111#32 = .ok (.jalr 5#5 6#5 0b110000000011#12) := by decide
theorem test_decode_beq :
    decode 0b1_110100_00111_00110_000_1010_0_1100011#32 = .ok (.beq 6#5 7#5 0b1_0_110100_1010_0#13) := by decide
theorem test_decode_bne :
    decode 0b0_001011_00111_00110_001_0101_1_1100011#32 = .ok (.bne 6#5 7#5 0b0_1_001011_0101_0#13) := by decide
theorem test_decode_blt :
    decode 0b1_100000_00111_00110_100_0001_1_1100011#32 = .ok (.blt 6#5 7#5 0b1_1_100000_0001_0#13) := by decide
theorem test_decode_bge :
    decode 0b0_111111_00111_00110_101_1000_0_1100011#32 = .ok (.bge 6#5 7#5 0b0_0_111111_1000_0#13) := by decide
theorem test_decode_bltu :
    decode 0b1_000001_00111_00110_110_1111_0_1100011#32 = .ok (.bltu 6#5 7#5 0b1_0_000001_1111_0#13) := by decide
theorem test_decode_bgeu :
    decode 0b0_010101_00111_00110_111_0011_1_1100011#32 = .ok (.bgeu 6#5 7#5 0b0_1_010101_0011_0#13) := by decide
theorem test_decode_lb :
    decode 0b100000000001_00110_000_00101_0000011#32 = .ok (.lb 5#5 6#5 0b100000000001#12) := by decide
theorem test_decode_lh :
    decode 0b011111111110_00110_001_00101_0000011#32 = .ok (.lh 5#5 6#5 0b011111111110#12) := by decide
theorem test_decode_lw :
    decode 0b000000000100_00110_010_00101_0000011#32 = .ok (.lw 5#5 6#5 0b000000000100#12) := by decide
theorem test_decode_lbu :
    decode 0b111111111111_00110_100_00101_0000011#32 = .ok (.lbu 5#5 6#5 0b111111111111#12) := by decide
theorem test_decode_lhu :
    decode 0b101010101010_00110_101_00101_0000011#32 = .ok (.lhu 5#5 6#5 0b101010101010#12) := by decide
theorem test_decode_sb :
    decode 0b1011001_00111_00110_000_00110_0100011#32 = .ok (.sb 6#5 7#5 0b1011001_00110#12) := by decide
theorem test_decode_sh :
    decode 0b0100110_00111_00110_001_11001_0100011#32 = .ok (.sh 6#5 7#5 0b0100110_11001#12) := by decide
theorem test_decode_sw :
    decode 0b1000000_00111_00110_010_00001_0100011#32 = .ok (.sw 6#5 7#5 0b1000000_00001#12) := by decide
theorem test_decode_ecall :
    decode 0b000000000000_00000_000_00000_1110011#32 = .ok (.ecall) := by decide
theorem test_decode_ebreak :
    decode 0b000000000001_00000_000_00000_1110011#32 = .ok (.ebreak) := by decide
theorem test_decode_csrrw :
    decode 0b001100000101_00110_001_00101_1110011#32 = .ok (.csrrw 5#5 0x305#12 6#5) := by decide
theorem test_decode_csrrs :
    decode 0b001101000001_00110_010_00101_1110011#32 = .ok (.csrrs 5#5 0x341#12 6#5) := by decide
theorem test_decode_csrrc :
    decode 0b110010000010_00110_011_00101_1110011#32 = .ok (.csrrc 5#5 0xc82#12 6#5) := by decide

/-- The bits that R88 and R96 ignore. -/
theorem test_decode_slli_high_bits : decode 0x02031293#32 = .ok (.slli 5#5 6#5 0#5) := by decide
theorem test_decode_srli_high_bits : decode 0x80435293#32 = .ok (.srli 5#5 6#5 4#5) := by decide
theorem test_decode_ecall_rd : decode 0x000002F3#32 = .ok .ecall := by decide

/-- Words of the illegal space, named by what makes them illegal (V2.17, V2.18, V4.7, V4.19, V5.14, V6.4, V6.20, V7.3,
V7.5). -/
theorem test_illegal_mul : decode 0x027302B3#32 = .error .funct7 := by decide
theorem test_illegal_op : decode 0x407312B3#32 = .error .funct7 := by decide
theorem test_illegal_jalr : decode 0x000310E7#32 = .error .funct3 := by decide
theorem test_illegal_branch : decode 0x00732463#32 = .error .funct3 := by decide
theorem test_illegal_ld : decode 0x00033283#32 = .error .funct3 := by decide
theorem test_illegal_mret : decode 0x30200073#32 = .error .priv := by decide
theorem test_illegal_csrrwi : decode 0x3400D2F3#32 = .error .funct3 := by decide
theorem test_illegal_fence : decode 0x0FF0000F#32 = .error .opcode := by decide
theorem test_illegal_compressed : decode 0x00004501#32 = .error .opcode := by decide
theorem test_truncated : decodeBytes [0x13#8, 0#8, 0#8] = .error .truncated := by decide

/-- A row's word, and bits above `nbits`, which are 0. -/
theorem test_table_word : decodeTableWord 32 0x00100073 = some .ebreak := by decide
theorem test_table_word_short : decodeTableWord 8 0xFFFFFF13 = some (.addi 0#5 0#5 0#12) := by decide

/-! ### Steps -/

/-- The bus of L2: RAM from 0 for 0x1000 bytes, and the serial port. -/
def testBus : BusMap := .custom [⟨0#32, 0x1000#32, .ram⟩, ⟨0xFFFFFFFE#32, 1#32, .serial⟩]

/-- The start of an L2 vector: reset with mtvec = 0x300, the word at 0x100, x6 and x7 as given. -/
def start (w x6 x7 : Word) : State :=
  { ((State.boot ⟨testBus, .and, false⟩ 0x100#32 [] .noReader (.writer [] none)).setReg 6#5 x6).setReg 7#5 x7 with
    mtvec := 0x300#32
    mem := imageCells 0x100 (bytesOfWord w) }

/-- The same with the bytes of V5.1 at 0x200. -/
def startWithData (w x6 x7 : Word) : State :=
  { start w x6 x7 with
    mem := imageCells 0x100 (bytesOfWord w) ++ imageCells 0x200 [0x80#8, 0xFF#8, 0x34#8, 0x12#8, 0x00#8] }

/-- What one step leaves, looked at through `f`. -/
def after {α : Type} (s : State) (f : State → α) : Option α :=
  match step s with
  | .next t => some (f t)
  | .fault _ => none
  | .refused _ => none

/-- x5 and the pc. -/
def x5pc (t : State) : Word × Word := (t.reg 5#5, t.pc)

/-- mepc, mcause, mtval, the pc. -/
def trapOf (t : State) : Word × Word × Word × Word := (t.mepc, t.mcause, t.mtval, t.pc)

/-- V1.3. -/
theorem test_addi_overflow : after (start 0x00130293#32 0x7FFFFFFF#32 0#32) x5pc = some (0x80000000#32, 0x104#32) := by decide
/-- V1.2. -/
theorem test_addi_sign : after (start 0x80030293#32 0#32 0#32) x5pc = some (0xFFFFF800#32, 0x104#32) := by decide
/-- V1.7. -/
theorem test_slti_signed : after (start 0xFFF32293#32 0x80000000#32 0#32) x5pc = some (1#32, 0x104#32) := by decide
/-- V1.8. -/
theorem test_slti_equal : after (start 0x00532293#32 5#32 0#32) x5pc = some (0#32, 0x104#32) := by decide
/-- V1.9. -/
theorem test_sltiu_extended : after (start 0xFFF33293#32 5#32 0#32) x5pc = some (1#32, 0x104#32) := by decide
/-- V1.10. -/
theorem test_sltiu_equal : after (start 0xFFF33293#32 0xFFFFFFFF#32 0#32) x5pc = some (0#32, 0x104#32) := by decide
/-- V1.12. -/
theorem test_xori : after (start 0xFFF34293#32 0x0F0F0F0F#32 0#32) x5pc = some (0xF0F0F0F0#32, 0x104#32) := by decide
/-- V1.13. -/
theorem test_ori : after (start 0x80036293#32 1#32 0#32) x5pc = some (0xFFFFF801#32, 0x104#32) := by decide
/-- V1.14. -/
theorem test_andi : after (start 0xFF037293#32 0x12345678#32 0#32) x5pc = some (0x12345670#32, 0x104#32) := by decide
/-- V1.15. -/
theorem test_slli : after (start 0x01F31293#32 3#32 0#32) x5pc = some (0x80000000#32, 0x104#32) := by decide
/-- V1.17. -/
theorem test_slli_masked : after (start 0x02031293#32 0xDEADBEEF#32 0#32) x5pc = some (0xDEADBEEF#32, 0x104#32) := by decide
/-- V1.18. -/
theorem test_srli : after (start 0x01F35293#32 0x80000000#32 0#32) x5pc = some (1#32, 0x104#32) := by decide
/-- V1.20. -/
theorem test_srai_negative : after (start 0x41F35293#32 0x80000000#32 0#32) x5pc = some (0xFFFFFFFF#32, 0x104#32) := by decide
/-- V1.21. -/
theorem test_srai_positive : after (start 0x40435293#32 0x7FFFFFF0#32 0#32) x5pc = some (0x07FFFFFF#32, 0x104#32) := by decide
/-- V2.1. -/
theorem test_add_wrap : after (start 0x007302B3#32 0x80000000#32 0x80000000#32) x5pc = some (0#32, 0x104#32) := by decide
/-- V2.4. -/
theorem test_sub_overflow : after (start 0x407302B3#32 0x80000000#32 1#32) x5pc = some (0x7FFFFFFF#32, 0x104#32) := by decide
/-- V2.5. -/
theorem test_sll_32 : after (start 0x007312B3#32 0x12345678#32 0x20#32) x5pc = some (0x12345678#32, 0x104#32) := by decide
/-- V2.6. -/
theorem test_sll_all_ones : after (start 0x007312B3#32 1#32 0xFFFFFFFF#32) x5pc = some (0x80000000#32, 0x104#32) := by decide
/-- V2.7. -/
theorem test_slt : after (start 0x007322B3#32 0xFFFFFFFF#32 0#32) x5pc = some (1#32, 0x104#32) := by decide
/-- V2.9. -/
theorem test_sltu : after (start 0x007332B3#32 0xFFFFFFFF#32 0#32) x5pc = some (0#32, 0x104#32) := by decide
/-- V2.11. -/
theorem test_xor_same : after (start 0x006342B3#32 0xCAFEBABE#32 0#32) x5pc = some (0#32, 0x104#32) := by decide
/-- V2.12. -/
theorem test_srl_33 : after (start 0x007352B3#32 0x80000000#32 0x21#32) x5pc = some (0x40000000#32, 0x104#32) := by decide
/-- V2.13. -/
theorem test_sra_32 : after (start 0x407352B3#32 0x80000000#32 0x20#32) x5pc = some (0x80000000#32, 0x104#32) := by decide
/-- V2.14. -/
theorem test_sra_4 : after (start 0x407352B3#32 0x80000000#32 4#32) x5pc = some (0xF8000000#32, 0x104#32) := by decide
/-- V2.15. -/
theorem test_or : after (start 0x007362B3#32 0xF0F0F0F0#32 0x0F0F0F0F#32) x5pc = some (0xFFFFFFFF#32, 0x104#32) := by decide
/-- V2.16. -/
theorem test_and : after (start 0x007372B3#32 0xF0F0F0F0#32 0xFF00FF00#32) x5pc = some (0xF000F000#32, 0x104#32) := by decide
/-- V3.1. -/
theorem test_lui : after (start 0xFFFFF2B7#32 0#32 0#32) x5pc = some (0xFFFFF000#32, 0x104#32) := by decide
/-- V3.5. -/
theorem test_auipc_wrap : after (start 0xFFFFF297#32 0#32 0#32) x5pc = some (0xFFFFF100#32, 0x104#32) := by decide
/-- V1.5: a write to x0 is discarded. -/
theorem test_addi_x0 : after (start 0x00530013#32 1#32 0#32) (fun t => t.reg 0#5) = some 0#32 := by decide
/-- V2.2: rd is also both sources. -/
theorem test_add_same : after (start 0x00630333#32 0x40000001#32 0#32) (fun t => t.reg 6#5) = some 0x80000002#32 := by
  decide
/-- V4.1, V4.3. -/
theorem test_jal_backward :
    after (start 0xF01FF0EF#32 0#32 0#32) (fun t => (t.reg 1#5, t.pc)) = some (0x104#32, 0#32) := by decide
theorem test_jal_two_mod_four :
    after (start 0x006000EF#32 0#32 0#32) (fun t => (t.reg 1#5, t.pc)) = some (0x104#32, 0x106#32) := by decide
/-- V4.4: bit 0 of the sum is cleared. -/
theorem test_jalr_odd :
    after (start 0x001300E7#32 0x200#32 0#32) (fun t => (t.reg 1#5, t.pc)) = some (0x104#32, 0x200#32) := by decide
/-- V4.5: the target comes from the old x6. -/
theorem test_jalr_same :
    after (start 0x00030367#32 0x200#32 0#32) (fun t => (t.reg 6#5, t.pc)) = some (0x104#32, 0x200#32) := by decide
/-- V4.8. -/
theorem test_beq_taken : after (start 0xF07300E3#32 9#32 9#32) (·.pc) = some 0#32 := by decide
/-- V4.9. -/
theorem test_beq_not_taken : after (start 0x00730463#32 9#32 8#32) (·.pc) = some 0x104#32 := by decide
/-- V4.10. -/
theorem test_bne_same : after (start 0x00631463#32 1#32 0#32) (·.pc) = some 0x104#32 := by decide
/-- V4.11. -/
theorem test_blt_signed : after (start 0x00734463#32 0x80000000#32 0x7FFFFFFF#32) (·.pc) = some 0x108#32 := by decide
/-- V4.12. -/
theorem test_bltu_unsigned : after (start 0x00736463#32 0x80000000#32 0x7FFFFFFF#32) (·.pc) = some 0x104#32 := by decide
/-- V4.13. -/
theorem test_bge_equal : after (start 0x00735463#32 4#32 4#32) (·.pc) = some 0x108#32 := by decide
/-- V4.14. -/
theorem test_bge_equal_strict : after { start 0x00735463#32 4#32 4#32 with params := ⟨testBus, .and, true⟩ } (·.pc) = some 0x104#32 := by decide
/-- V4.16. -/
theorem test_bgeu_zero : after (start 0x00037463#32 0#32 0#32) (·.pc) = some 0x108#32 := by decide
/-- V4.17. -/
theorem test_bgeu_zero_strict : after { start 0x00037463#32 0#32 0#32 with params := ⟨testBus, .and, true⟩ } (·.pc) = some 0x104#32 := by decide
/-- Hand calculation from R183: the operands differ, so pc is 0x100 + 8. -/
theorem test_bne_taken : after (start 0x00731463#32 1#32 2#32) (·.pc) = some 0x108#32 := by decide
/-- V5.1. -/
theorem test_lb_sign : after (startWithData 0x00130283#32 0x200#32 0#32) x5pc = some (0xFFFFFFFF#32, 0x104#32) := by decide
/-- V5.2. -/
theorem test_lbu_zero : after (startWithData 0x00134283#32 0x200#32 0#32) x5pc = some (0x000000FF#32, 0x104#32) := by decide
/-- V5.3. -/
theorem test_lh_misaligned : after (startWithData 0x00131283#32 0x200#32 0#32) x5pc = some (0x000034FF#32, 0x104#32) := by decide
/-- V5.4. -/
theorem test_lhu : after (startWithData 0x00235283#32 0x200#32 0#32) x5pc = some (0x00001234#32, 0x104#32) := by decide
/-- V5.5. -/
theorem test_lw_misaligned : after (startWithData 0x00132283#32 0x200#32 0#32) x5pc = some (0x001234FF#32, 0x104#32) := by decide
/-- V5.10: a serial LB sign-extends; V5.11: a serial LH does not. -/
theorem test_lb_serial :
    after { start 0xFFE00283#32 0#32 0#32 with serialIn := .reader [.byte 0xC8#8] .ended } (fun t => (t.reg 5#5, t.serialIn))
      = some (0xFFFFFFC8#32, .reader [] .ended) := by decide
theorem test_lh_serial :
    after { start 0xFFE01283#32 0#32 0#32 with serialIn := .reader [.byte 0xC8#8] .ended } (fun t => (t.reg 5#5, t.serialIn))
      = some (0xC8#32, .reader [] .ended) := by decide
/-- V5.13: a load to x0 still takes a byte. -/
theorem test_lbu_x0_serial :
    after { start 0xFFE04003#32 0#32 0#32 with serialIn := .reader [.byte 0x41#8, .byte 0x42#8] .ended } (·.serialIn)
      = some (.reader [.byte 0x42#8] .ended) := by decide
/-- V5.9: a load past the end of RAM; V7.8: a fetch. -/
theorem test_lw_straddle :
    (match step (start 0xFFE32283#32 0x1000#32 0#32) with | .fault r => some r | _ => none) = some .ramStraddle := by
  decide
theorem test_fetch_straddle :
    (match step { start 0#32 0#32 0#32 with pc := 0xFFE#32 } with | .fault r => some r | _ => none)
      = some .ramStraddle := by decide
/-- V5.15 to V5.17, with the byte above each. -/
theorem test_sb :
    after (start 0x007301A3#32 0x200#32 0xAABBCCDD#32) (fun t => (readCell t.mem 0x203, readCell t.mem 0x204))
      = some (0xDD#8, 0#8) := by decide
theorem test_sh :
    after (start 0x007310A3#32 0x200#32 0xAABBCCDD#32) (fun t => readBytes t.mem 0x200 4) = some 0x00CCDD00#32 := by decide
theorem test_sw :
    after (start 0x00732123#32 0x200#32 0xAABBCCDD#32) (fun t => (readBytes t.mem 0x202 4, readCell t.mem 0x206))
      = some (0xAABBCCDD#32, 0#8) := by decide
/-- V5.19: a word store sends its low byte. -/
theorem test_sw_serial : after (start 0xFE702F23#32 0#32 0xAABBCCDD#32) (·.serialOut) = some (.writer [0xDD#8] none) := by
  decide
/-- `lhu x5, -2(x0)` on a stream that the host does not answer, and `sh x7, -2(x0)` on a full writer (R293). -/
theorem test_lhu_silent :
    (match step { start 0xFFE05283#32 0#32 0#32 with serialIn := .reader [] .silent } with
      | .fault r => some r
      | _ => none) = some .awaitingSerialInput := by decide
theorem test_sh_full :
    (match step { start 0xFE701F23#32 0#32 7#32 with serialOut := .writer [1#8] (some 0) } with
      | .fault r => some r
      | _ => none) = some .awaitingSerialOutput := by decide
/-- V6.1, V6.3. -/
theorem test_ecall : after (start 0x00000073#32 0#32 0#32) trapOf = some (0x100#32, 11#32, 0x100#32, 0x300#32) := by
  decide
theorem test_ebreak : after (start 0x00100073#32 0#32 0#32) trapOf = some (0x100#32, 3#32, 0x100#32, 0x300#32) := by
  decide
/-- The counters of V6.1: a trap adds to cycle and time only. -/
theorem test_ecall_counters :
    after (start 0x00000073#32 0#32 0#32) (fun t => (t.cycle, t.time, t.instret)) = some (1#64, 1#64, 0#64) := by decide
/-- V6.6, V6.7: the hardwired bits. -/
theorem test_csrrw_mtvec :
    after (start 0x305312F3#32 0x12345677#32 0#32) (fun t => (t.reg 5#5, t.mtvec)) = some (0x300#32, 0x12345674#32) := by
  decide
theorem test_csrrw_mepc :
    after (start 0x341312F3#32 0x12345677#32 0#32) (fun t => (t.reg 5#5, t.mepc)) = some (0#32, 0x12345676#32) := by
  decide
/-- V6.9, V6.10. -/
theorem test_csrrs_and :
    after { start 0x340322F3#32 0xFF0#32 0#32 with mscratch := 0xF0F0#32 } (fun t => (t.reg 5#5, t.mscratch))
      = some (0xF0F0#32, 0xF0#32) := by decide
theorem test_csrrs_or :
    after { start 0x340322F3#32 0xFF0#32 0#32 with mscratch := 0xF0F0#32, params := ⟨testBus, .or, false⟩ }
      (fun t => (t.reg 5#5, t.mscratch)) = some (0xF0F0#32, 0xFFF0#32) := by decide
/-- V6.12. -/
theorem test_csrrc :
    after { start 0x340332F3#32 0xFF0#32 0#32 with mscratch := 0xF0F0#32 } (fun t => (t.reg 5#5, t.mscratch))
      = some (0xF0F0#32, 0xF000#32) := by decide
/-- V8.5: a counter is read before the step's own increment. -/
theorem test_csr_cycleh :
    after { start 0xC80022F3#32 0#32 0#32 with cycle := 0x00000000FFFFFFFF#64 } (fun t => (t.reg 5#5, t.cycle))
      = some (0#32, 0x0000000100000000#64) := by decide
/-- V6.16, V6.18: the two checks of R224. -/
theorem test_csrrw_counter :
    after (start 0xC00312F3#32 0#32 0#32) trapOf = some (0x100#32, 2#32, 0xC00312F3#32, 0x300#32) := by decide
theorem test_csrrs_invalid :
    after (start 0x300022F3#32 0#32 0#32) trapOf = some (0x100#32, 2#32, 0x300022F3#32, 0x300#32) := by decide
/-- L1.6, V8.8: the halt, and no step after it. -/
theorem test_halt :
    after { start 0x3FF31073#32 42#32 0#32 with mtvec := 0#32 } (fun t => (t.halted, t.haltValue, t.pc))
      = some (true, 42#32, 0x104#32) := by decide
theorem test_halted_core :
    (match step { start 0x00000013#32 0#32 0#32 with halted := true } with | .fault r => some r | _ => none)
      = some .halted := by decide
/-- V6.22: rs1 = x0 does not halt. -/
theorem test_no_halt : after (start 0x3FF01073#32 0#32 0#32) (·.halted) = some false := by decide
/-- V7.2, V7.7. -/
theorem test_illegal_trap :
    after (start 0xFFFFFFFF#32 0#32 0#32) trapOf = some (0x100#32, 2#32, 0xFFFFFFFF#32, 0x300#32) := by decide
theorem test_unmapped_fetch :
    after { start 0#32 0#32 0#32 with pc := 0x2000#32 } trapOf = some (0x2000#32, 2#32, 0#32, 0x300#32) := by decide
/-- V8.4: the counters wrap. -/
theorem test_counters_wrap :
    after { start 0x00000013#32 0#32 0#32 with cycle := 0xFFFFFFFFFFFFFFFF#64, instret := 0xFFFFFFFFFFFFFFFF#64 }
      (fun t => (t.cycle, t.instret)) = some (0#64, 0#64) := by decide

/-! ### Reset and placing a word -/

/-- V8.3: the reset state has the empty image, so its first step traps to 0. -/
theorem test_reset_step : after State.reset trapOf = some (0x100#32, 2#32, 0#32, 0#32) := by decide
/-- L1.1, with the word placed at the reset pc. -/
theorem test_placed_addi :
    after (State.reset.withFetchWord 32 0xFFF00093) (fun t => (t.reg 1#5, t.pc, t.instret))
      = some (0xFFFFFFFF#32, 0x104#32, 1#64) := by decide
/-- A word placed where no RAM is gets a region of its own. -/
theorem test_placed_elsewhere :
    after ({ State.reset with pc := 0xFFFFFFFE#32 }.withFetchWord 32 0xFFF00093) (fun t => t.reg 1#5)
      = some 0xFFFFFFFF#32 := by decide
/-- A custom region that runs past 2^32 is refused (R52). -/
theorem test_refused :
    (match step { State.reset with params := ⟨.custom [⟨0xFFFFFFFF#32, 2#32, .ram⟩], .and, false⟩ } with
      | .refused r => some r
      | _ => none) = some .configuration := by decide
/-- R286 on L1.6: `execute` returns the halt value. -/
theorem test_execute :
    (match execute 1 (start 0x3FF31073#32 42#32 0#32) with | .halted v _ => some v | _ => none) = some 42#32 := by decide

/-! ### Witnesses: for each statement with hypotheses, states and operands that meet them -/

/-- An access of `n` bytes at the last place RAM has room for it, and one byte further. -/
theorem inRam_edge (s : State) (h : s.params.bus = testBus) :
    InRam s 0xFFF#32 1 0xFFF ∧ InRam s 0xFFE#32 2 0xFFE ∧ InRam s 0xFFC#32 4 0xFFC ∧ StraddlesRam s 0xFFF#32 2 ∧
      StraddlesRam s 0xFFD#32 4 ∧ Unmapped s 0x1000#32 ∧ AtSerial s 0xFFFFFFFE#32 := by
  have hr : ∀ a, s.region a = findRegion (busRegions testBus) 0 a := fun a => by rw [State.region, h]
  unfold InRam StraddlesRam Unmapped AtSerial
  simp only [hr]
  exact ⟨⟨0, ⟨0#32, 0x1000#32, .ram⟩, by decide, by decide, by decide, by decide⟩,
    ⟨0, ⟨0#32, 0x1000#32, .ram⟩, by decide, by decide, by decide, by decide⟩,
    ⟨0, ⟨0#32, 0x1000#32, .ram⟩, by decide, by decide, by decide, by decide⟩,
    ⟨0, ⟨0#32, 0x1000#32, .ram⟩, by decide, by decide, by decide⟩,
    ⟨0, ⟨0#32, 0x1000#32, .ram⟩, by decide, by decide, by decide⟩, by decide,
    ⟨1, ⟨0xFFFFFFFE#32, 1#32, .serial⟩, by decide, by decide⟩⟩

/-- `-2(x0)` is the serial port. -/
theorem atSerial_minus_two (s : State) (h : s.params.bus = testBus) : AtSerial s (s.ea 0#5 0xFFE#12) := by
  rw [show s.ea 0#5 0xFFE#12 = 0xFFFFFFFE#32 from (by decide : (0#32 + imm12 0xFFE#12 : Word) = 0xFFFFFFFE#32)]
  exact (inRam_edge s h).2.2.2.2.2.2

/-- Each of the four kinds of answer to a serial read is met at some state. -/
theorem serialAnswers_each (s : State) :
    (∃ u, SerialAnswers { s with serialIn := .noReader } 0#8 u) ∧
    (∃ u, SerialAnswers { s with serialIn := .reader [.byte 0x13#8] .silent } 0x13#8 u) ∧
    (∃ b u, SerialAnswers { s with serialIn := .reader [.endOfStream, .byte 1#8] .silent } b u) ∧
    ∃ b u, SerialAnswers { s with serialIn := .reader [] .ended } b u :=
  ⟨⟨_, .inl ⟨rfl, rfl, rfl⟩⟩, ⟨_, .inr (.inl ⟨_, _, rfl, rfl⟩)⟩, ⟨_, _, .inr (.inr (.inl ⟨_, _, rfl, rfl, rfl⟩))⟩,
    ⟨_, _, .inr (.inr (.inr ⟨rfl, rfl, rfl⟩))⟩⟩

theorem test_witness_DecodeInvertsEncode : (Instr.beq 6#5 7#5 0x1000#13).wf = true ∧ (Instr.jal 0#5 0x0FFFFE#21).wf = true := by
  decide

theorem test_witness_EncodeInvertsDecode :
    decode 0xFFF00093#32 = .ok (.addi 1#5 0#5 0xFFF#12) ∧
      ¬ (opcodeField 0xFFF00093#32 = 0b0010011#7 ∧
        (funct3Field 0xFFF00093#32 = 1#3 ∨ funct3Field 0xFFF00093#32 = 5#3)) ∧
      Instr.addi 1#5 0#5 0xFFF#12 ≠ .ecall ∧ Instr.addi 1#5 0#5 0xFFF#12 ≠ .ebreak := by decide

theorem test_witness_TableRowIffDecodes :
    Mnemonic.ecall.row.covers 0x000002F3#32 = true ∧ decode 0x000002F3#32 = .ok .ecall := by decide

theorem test_witness_DecodedIsWellFormed : decode 0x80000063#32 = .ok (.beq 0#5 0#5 0x1000#13) := by decide

theorem test_witness_ImmediateFieldsAssemble : 0 < 32 ∧ 31 < 32 := by decide

theorem test_witness_StepRunsInstructionAtPc :
    Runnable (start 0x00130293#32 0#32 0#32) ∧
      InRam (start 0x00130293#32 0#32 0#32) (start 0x00130293#32 0#32 0#32).pc 4 0x100 ∧
      decodeBytes [readCell (start 0x00130293#32 0#32 0#32).mem 0x100, readCell (start 0x00130293#32 0#32 0#32).mem 0x101,
        readCell (start 0x00130293#32 0#32 0#32).mem 0x102, readCell (start 0x00130293#32 0#32 0#32).mem 0x103]
        = .ok (.addi 5#5 6#5 1#12, []) :=
  ⟨⟨by decide, by decide⟩, ⟨0, ⟨0#32, 0x1000#32, .ram⟩, by decide, by decide, by decide, by decide⟩, by decide⟩

theorem test_witness_IllegalWordTraps :
    (Runnable (start 0x027302B3#32 0#32 0#32) ∧ WordAtPc (start 0x027302B3#32 0#32 0#32) 0x027302B3#32 ∧
      ∀ m : Mnemonic, m.row.covers 0x027302B3#32 = false) ∧
    opcodeField 0x0FF0000F#32 ∉ [0b0010011#7, 0b0110011#7, 0b0110111#7, 0b0010111#7, 0b1101111#7, 0b1100111#7,
      0b1100011#7, 0b0000011#7, 0b0100011#7, 0b1110011#7] :=
  ⟨⟨⟨by decide, by decide⟩,
    ⟨0x100, ⟨0, ⟨0#32, 0x1000#32, .ram⟩, by decide, by decide, by decide, by decide⟩, by decide⟩,
    fun m => by cases m <;> decide⟩, by decide⟩

theorem test_witness_UnmappedFetchTraps :
    Runnable { start 0#32 0#32 0#32 with pc := 0x1000#32 } ∧
      Unmapped { start 0#32 0#32 0#32 with pc := 0x1000#32 } 0x1000#32 :=
  ⟨⟨by decide, by decide⟩, by unfold Unmapped; decide⟩

/-- `serialAnswers_each` shows the answers at each of these states. -/
theorem test_witness_SerialFetchRunsInputByte :
    ∀ input ∈ [SerialIn.noReader, .reader [.byte 0x13#8] .silent, .reader [.endOfStream, .byte 1#8] .silent,
      .reader [] .ended],
      Runnable { start 0#32 0#32 0#32 with pc := 0xFFFFFFFE#32, serialIn := input } ∧
      AtSerial { start 0#32 0#32 0#32 with pc := 0xFFFFFFFE#32, serialIn := input } 0xFFFFFFFE#32 :=
  fun _ _ => ⟨⟨rfl, rfl⟩, (inRam_edge _ rfl).2.2.2.2.2.2⟩

/-- One input byte that is a word of ADDI, and one that is a word of no row. -/
theorem test_serial_byte_words :
    decode ((0x13#8).setWidth 32) = .ok (.addi 0#5 0#5 0#12) ∧ decode ((0xFF#8).setWidth 32) = .error .opcode := by
  decide

theorem test_witness_HaltedCoreHasNoStep :
    { start 0#32 0#32 0#32 with halted := true }.halted = true ∧
      busOk { start 0#32 0#32 0#32 with halted := true }.params.bus = true := by decide

/-- Both kinds of refused configuration at their first bad value, and the last good one. -/
theorem test_witness_OnlyBadConfigurationIsRefused :
    busOk (.board 0xFFFFFEFF) = false ∧ busOk (.custom [⟨0xFFFFFFFF#32, 2#32, .ram⟩]) = false ∧
      busOk (.board 0xFFFFFEFE) = true ∧ busOk (.custom [⟨0xFFFFFFFF#32, 1#32, .ram⟩]) = true ∧
      regionContains ⟨0x100#32, 4#32, .ram⟩ 0x103#32 = true ∧ regionContains ⟨0xFFFFFFFE#32, 1#32, .serial⟩ 0xFFFFFFFE#32 = true
        := by decide

/-- The stops of a step: a halted core, a fetch past RAM, a fetch from a silent serial port, a load and a store past RAM;
`test_lhu_silent` and `test_sh_full` show the unanswered load and store. -/
theorem test_witness_StepFaultsOnlyWhereSpecStops :
    step { start 0#32 0#32 0#32 with halted := true } = .fault .halted ∧
    step { start 0#32 0#32 0#32 with pc := 0xFFE#32 } = .fault .ramStraddle ∧
    step { start 0#32 0#32 0#32 with pc := 0xFFFFFFFE#32, serialIn := .reader [] .silent } = .fault .awaitingSerialInput ∧
    step (start 0x00032283#32 0xFFD#32 0#32) = .fault .ramStraddle ∧
    step (start 0x00731023#32 0xFFF#32 0#32) = .fault .ramStraddle := ⟨rfl, rfl, rfl, rfl, rfl⟩

theorem test_witness_NonMemoryInstructionsComplete :
    (Instr.csrrw 5#5 0x300#12 6#5).mnemonic ∉ [Mnemonic.lb, .lh, .lw, .lbu, .lhu, .sb, .sh, .sw] := by decide

theorem test_witness_ImmediateShiftResults : (0x1F#7).getLsbD 5 = false ∧ (0x20#7).getLsbD 5 = true := by decide

theorem test_witness_JumpResults :
    (evenOffset 0x100000#21 = true ∧ evenOffset 0x0FFFFE#21 = true) ∧ Runnable (start 0x000310E7#32 0#32 0#32) ∧
      WordAtPc (start 0x000310E7#32 0#32 0#32) 0x000310E7#32 ∧ opcodeField 0x000310E7#32 = 0b1100111#7 ∧
      funct3Field 0x000310E7#32 ≠ 0#3 :=
  ⟨by decide, ⟨by decide, by decide⟩,
    ⟨0x100, ⟨0, ⟨0#32, 0x1000#32, .ram⟩, by decide, by decide, by decide, by decide⟩, by decide⟩, by decide, by decide⟩

/-- Each branch condition holds somewhere and fails somewhere; the offset is even. -/
theorem test_witness_EqualityBranchResults :
    evenOffset 0x1000#13 = true ∧ (start 0#32 9#32 9#32).reg 6#5 = (start 0#32 9#32 9#32).reg 7#5 ∧
      (start 0#32 9#32 8#32).reg 6#5 ≠ (start 0#32 9#32 8#32).reg 7#5 := by decide

theorem test_witness_LessThanBranchResults :
    evenOffset 0x0FFE#13 = true ∧
      ((start 0#32 0x80000000#32 0x7FFFFFFF#32).reg 6#5).toInt < ((start 0#32 0x80000000#32 0x7FFFFFFF#32).reg 7#5).toInt ∧
      ¬ ((start 0#32 0x80000000#32 0x7FFFFFFF#32).reg 6#5).toNat <
        ((start 0#32 0x80000000#32 0x7FFFFFFF#32).reg 7#5).toNat := by decide

/-- Equal operands tell the two settings apart. -/
theorem test_witness_GreaterOrEqualBranchResults :
    evenOffset 0x0FFE#13 = true ∧ (start 0#32 4#32 4#32).params.bgeStrict = false ∧
      ((start 0#32 4#32 4#32).reg 6#5).toInt ≥ ((start 0#32 4#32 4#32).reg 7#5).toInt ∧
      { start 0#32 4#32 4#32 with params := ⟨testBus, .and, true⟩ }.params.bgeStrict = true ∧
      ¬ ((start 0#32 4#32 4#32).reg 6#5).toInt > ((start 0#32 4#32 4#32).reg 7#5).toInt := by decide

/-- Each width at the last address with room. -/
theorem test_witness_LoadsFromRam :
    InRam (start 0#32 0x1000#32 0#32) ((start 0#32 0x1000#32 0#32).ea 6#5 0xFFF#12) 1 0xFFF ∧
    InRam (start 0#32 0x1000#32 0#32) ((start 0#32 0x1000#32 0#32).ea 6#5 0xFFE#12) 2 0xFFE ∧
    InRam (start 0#32 0x1000#32 0#32) ((start 0#32 0x1000#32 0#32).ea 6#5 0xFFC#12) 4 0xFFC := by
  rw [show (start 0#32 0x1000#32 0#32).ea 6#5 0xFFF#12 = 0xFFF#32 by decide,
    show (start 0#32 0x1000#32 0#32).ea 6#5 0xFFE#12 = 0xFFE#32 by decide,
    show (start 0#32 0x1000#32 0#32).ea 6#5 0xFFC#12 = 0xFFC#32 by decide]
  have h := inRam_edge (start 0#32 0x1000#32 0#32) (by decide)
  exact ⟨h.1, h.2.1, h.2.2.1⟩

theorem test_witness_LoadsFromUnmapped :
    Unmapped (start 0#32 0x1000#32 0#32)
      (BitVec.ofInt 32 (((start 0#32 0x1000#32 0#32).reg 6#5).toInt + (0#12).toInt)) ∧
    Unmapped (start 0#32 0#32 0#32) (BitVec.ofInt 32 (((start 0#32 0#32 0#32).reg 6#5).toInt + (0xFFF#12).toInt)) := by
  unfold Unmapped
  decide

/-- The serial port; `serialAnswers_each` shows the answers at each of these states. -/
theorem test_witness_LoadsFromSerial :
    ∀ input ∈ [SerialIn.noReader, .reader [.byte 0x13#8] .silent, .reader [.endOfStream, .byte 1#8] .silent,
      .reader [] .ended],
      AtSerial { start 0#32 0#32 0#32 with serialIn := input }
        ({ start 0#32 0#32 0#32 with serialIn := input }.ea 0#5 0xFFE#12) :=
  fun _ _ => atSerial_minus_two _ rfl

theorem test_witness_StoresToRam :
    InRam (start 0#32 0x1000#32 1#32) ((start 0#32 0x1000#32 1#32).ea 6#5 0xFFF#12) 1 0xFFF ∧
    InRam (start 0#32 0x1000#32 1#32) ((start 0#32 0x1000#32 1#32).ea 6#5 0xFFE#12) 2 0xFFE ∧
    InRam (start 0#32 0x1000#32 1#32) ((start 0#32 0x1000#32 1#32).ea 6#5 0xFFC#12) 4 0xFFC := by
  rw [show (start 0#32 0x1000#32 1#32).ea 6#5 0xFFF#12 = 0xFFF#32 by decide,
    show (start 0#32 0x1000#32 1#32).ea 6#5 0xFFE#12 = 0xFFE#32 by decide,
    show (start 0#32 0x1000#32 1#32).ea 6#5 0xFFC#12 = 0xFFC#32 by decide]
  have h := inRam_edge (start 0#32 0x1000#32 1#32) (by decide)
  exact ⟨h.1, h.2.1, h.2.2.1⟩

theorem test_witness_StoresToUnmapped :
    Unmapped (start 0#32 0x1000#32 1#32) ((start 0#32 0x1000#32 1#32).ea 6#5 0#12) := by
  unfold Unmapped
  decide

/-- The serial port, with each of the three kinds of writer. -/
theorem test_witness_StoresToSerial :
    ∀ output ∈ [SerialOut.noWriter, .writer [] none, .writer [1#8] (some 1)],
      AtSerial { start 0#32 0#32 1#32 with serialOut := output }
        ({ start 0#32 0#32 1#32 with serialOut := output }.ea 0#5 0xFFE#12) :=
  fun _ _ => atSerial_minus_two _ rfl

/-- Each width at the first address without room, and the fetch. -/
theorem test_witness_RamStraddleFaults :
    StraddlesRam (start 0#32 0x1000#32 0#32) ((start 0#32 0x1000#32 0#32).ea 6#5 0xFFF#12) 2 ∧
    StraddlesRam (start 0#32 0x1000#32 0#32) ((start 0#32 0x1000#32 0#32).ea 6#5 0xFFD#12) 4 ∧
    Runnable { start 0#32 0#32 0#32 with pc := 0xFFD#32 } ∧
    StraddlesRam { start 0#32 0#32 0#32 with pc := 0xFFD#32 } 0xFFD#32 4 := by
  rw [show (start 0#32 0x1000#32 0#32).ea 6#5 0xFFF#12 = 0xFFF#32 by decide,
    show (start 0#32 0x1000#32 0#32).ea 6#5 0xFFD#12 = 0xFFD#32 by decide]
  have h := inRam_edge (start 0#32 0x1000#32 0#32) (by decide)
  have h' := inRam_edge { start 0#32 0#32 0#32 with pc := 0xFFD#32 } (by decide)
  exact ⟨h.2.2.2.1, h.2.2.2.2.1, ⟨by decide, by decide⟩, h'.2.2.2.2.1⟩

theorem test_witness_UnansweredSerialAccessStops :
    (Runnable { start 0#32 0#32 0#32 with pc := 0xFFFFFFFE#32, serialIn := .reader [] .silent } ∧
      AtSerial { start 0#32 0#32 0#32 with pc := 0xFFFFFFFE#32, serialIn := .reader [] .silent } 0xFFFFFFFE#32) ∧
    AtSerial { start 0#32 0#32 0#32 with serialIn := .reader [] .silent, serialOut := .writer [1#8] (some 0) }
      ({ start 0#32 0#32 0#32 with serialIn := .reader [] .silent, serialOut := .writer [1#8] (some 0) }.ea 0#5 0xFFE#12) ∧
    InputUnanswered { start 0#32 0#32 0#32 with serialIn := .reader [] .silent } ∧
    OutputUnanswered { start 0#32 0#32 0#32 with serialOut := .writer [1#8] (some 0) } :=
  ⟨⟨⟨rfl, rfl⟩, (inRam_edge _ rfl).2.2.2.2.2.2⟩, atSerial_minus_two _ rfl, rfl, ⟨_, rfl⟩⟩

theorem test_witness_CsrReadsWithX0 : csrAccessIllegal 0xC82#12 0#5 = false := by decide

theorem test_witness_CsrWrites : (31#5 : Reg) ≠ 0#5 ∧ (1#5 : Reg) ≠ 0#5 := by decide

/-- An invalid number just past the counters; the first and the last number of the read-only range. -/
theorem test_witness_IllegalCsrAccessTraps :
    (decode 0xC03012F3#32 = .ok (.csrrw 5#5 0xC03#12 0#5) ∧ 0xC03#12 ∉ validCsrNumbers) ∧
    (decode 0xC00312F3#32 = .ok (.csrrw 5#5 0xC00#12 6#5) ∧ 0xC00 ≤ (0xC00#12).toNat ∧ (6#5 : Reg) ≠ 0#5) ∧
    (decode 0xFFF332F3#32 = .ok (.csrrc 5#5 0xFFF#12 6#5) ∧ (0xFFF#12).toNat ≤ 0xFFF) := by decide

theorem test_witness_HaltingWriteEndsTheRun :
    (Runnable (start 0x3FF31073#32 42#32 0#32) ∧ WordAtPc (start 0x3FF31073#32 42#32 0#32) 0x3FF31073#32 ∧
      decode 0x3FF31073#32 = .ok (.csrrw 0#5 0x3FF#12 6#5)) ∧
    (Runnable (start 0x3FF01073#32 0#32 0#32) ∧ WordAtPc (start 0x3FF01073#32 0#32 0#32) 0x3FF01073#32 ∧
      decode 0x3FF01073#32 = .ok (.csrrw 0#5 0x3FF#12 0#5)) :=
  ⟨⟨⟨by decide, by decide⟩,
    ⟨0x100, ⟨0, ⟨0#32, 0x1000#32, .ram⟩, by decide, by decide, by decide, by decide⟩, by decide⟩, by decide⟩,
   ⟨⟨by decide, by decide⟩,
    ⟨0x100, ⟨0, ⟨0#32, 0x1000#32, .ram⟩, by decide, by decide, by decide, by decide⟩, by decide⟩, by decide⟩⟩

theorem test_witness_HandlerReturnsThroughMepc :
    PcEven (start 0#32 0#32 0#32) ∧ instrTraps .ecall = true ∧
      (∃ t, exec .ecall (start 0#32 0#32 0#32) = .next t) ∧ (13#5 : Reg) ≠ 0#5 ∧ (4#12).getLsbD 0 = false :=
  ⟨by unfold PcEven; decide, by decide, ⟨_, rfl⟩, by decide, by decide⟩

theorem test_witness_FirstRegionAnswers :
    findRegion [⟨0#32, 8#32, .ram⟩, ⟨4#32, 8#32, .serial⟩] 0 7#32 = some (0, ⟨0#32, 8#32, .ram⟩) ∧
      findRegion [⟨0#32, 8#32, .ram⟩, ⟨4#32, 8#32, .serial⟩] 0 8#32 = some (1, ⟨4#32, 8#32, .serial⟩) ∧
      findRegion [⟨0#32, 8#32, .ram⟩, ⟨4#32, 8#32, .serial⟩] 0 12#32 = none := by decide

/-- The bounds of the five ranges, for an image of 4 bytes. -/
theorem test_witness_BoardMap :
    4 ≤ 0xFFFFFEFE ∧ (State.board [1#8, 2#8, 3#8, 4#8] .noReader .noWriter).params.bus = .board 4 ∧
      (0xFF#32).toNat ≤ 0xFF ∧ 0x100 ≤ (0x103#32).toNat ∧ (0x103#32).toNat < 0x100 + 4 ∧ 0x100 + 4 ≤ (0x104#32).toNat ∧
      (0xFFFFFFFD#32).toNat ≤ 0xFFFFFFFD ∧ (0xFFFFFFFE#32).toNat = 0xFFFFFFFE ∧ (0xFFFFFFFF#32).toNat = 0xFFFFFFFF := by
  decide

theorem test_witness_StoreThenLoad :
    InRam (start 0#32 0x1000#32 0x12348001#32) ((start 0#32 0x1000#32 0x12348001#32).ea 6#5 0xFFE#12) 2 0xFFE := by
  rw [show (start 0#32 0x1000#32 0x12348001#32).ea 6#5 0xFFE#12 = 0xFFE#32 by decide]
  exact (inRam_edge _ (by decide)).2.1

theorem test_witness_StoreSeenByNextFetch :
    (start 0#32 0x104#32 0x13#32).ea 6#5 0#12 = (start 0#32 0x104#32 0x13#32).pc + 4#32 ∧
      InRam (start 0#32 0x104#32 0x13#32) ((start 0#32 0x104#32 0x13#32).ea 6#5 0#12) 4 0x104 :=
  ⟨by decide, ⟨0, ⟨0#32, 0x1000#32, .ram⟩, by decide, by decide, by decide, by decide⟩⟩

theorem test_witness_ResetState : [0x93#8, 0x00#8, 0xF0#8, 0xFF#8].length ≤ 0xFFFFFEFE := by decide

theorem test_witness_InvariantsHoldAtReset : ([] : List Byte).length ≤ 0xFFFFFEFE := by decide

/-- A state that meets all four invariants and takes a step; the store of V5.17 changes a byte of RAM in it. -/
theorem test_witness_StepKeeps :
    MemoryCanonical (start 0x00732123#32 0x200#32 0xAABBCCDD#32) ∧
      CellsInRam (start 0x00732123#32 0x200#32 0xAABBCCDD#32) ∧ PcEven (start 0x00732123#32 0x200#32 0xAABBCCDD#32) ∧
      TrapCsrsAligned (start 0x00732123#32 0x200#32 0xAABBCCDD#32) ∧
      ∃ t, step (start 0x00732123#32 0x200#32 0xAABBCCDD#32) = .next t ∧ readCell t.mem 0x202 = 0xDD#8 := by
  refine ⟨by unfold MemoryCanonical; decide, ?_, by unfold PcEven; decide, by unfold TrapCsrsAligned; decide, _, rfl,
    by decide⟩
  intro c hc
  refine ⟨0, ⟨0#32, 0x1000#32, .ram⟩, by decide, by decide, ?_⟩
  revert c hc
  decide

/-- A run of one step from reset, which traps. -/
theorem test_witness_CounterIdentity :
    (∃ t, Host.Core.run Sys2Proof.core 1 (State.boot ⟨.board 0, .and, false⟩ 0x100#32 [[]] .noReader .noWriter) = .next t) ∧
      stepTraps (State.boot ⟨.board 0, .and, false⟩ 0x100#32 [[]] .noReader .noWriter) = true := ⟨⟨_, rfl⟩, by decide⟩

theorem test_witness_TrappingStepEntersTheHandler :
    stepTraps (start 0x00100073#32 0#32 0#32) = true ∧ ∃ t, step (start 0x00100073#32 0#32 0#32) = .next t :=
  ⟨by decide, _, rfl⟩

/-- A step that sets mtvec and one that halts. -/
theorem test_witness_OnlyCsrWriteChangesTrapVector :
    (∃ t, step (start 0x305312F3#32 0x12345677#32 0#32) = .next t ∧
      t.mtvec ≠ (start 0x305312F3#32 0x12345677#32 0#32).mtvec) ∧
    (∃ t, step (start 0x340312F3#32 0x12345677#32 0#32) = .next t ∧
      t.mscratch ≠ (start 0x340312F3#32 0x12345677#32 0#32).mscratch) ∧
    ∃ t, step (start 0x3FF31073#32 42#32 0#32) = .next t ∧ t.halted = true :=
  ⟨⟨_, rfl, by decide⟩, ⟨_, rfl, by decide⟩, ⟨_, rfl, by decide⟩⟩

/-- A step that sends a byte. -/
theorem test_witness_SerialOutputOnlyGrows :
    ∃ t, step (start 0xFE702F23#32 0#32 0xAABBCCDD#32) = .next t ∧ t.serialOut = .writer [0xDD#8] none :=
  ⟨_, rfl, by decide⟩

/-- The board after its first trap: pc 0, mtvec 0. -/
theorem test_witness_UnmappedVectorLoops :
    Runnable { State.reset with pc := 0#32 } ∧
      { State.reset with pc := 0#32 }.pc = { State.reset with pc := 0#32 }.mtvec &&& 0xFFFFFFFC#32 ∧
      Unmapped { State.reset with pc := 0#32 } 0#32 :=
  ⟨⟨by decide, by decide⟩, by decide, by unfold Unmapped; decide⟩

theorem test_witness_ExecuteEndsAtFirstHalt :
    ∃ t, execute 1 (start 0x3FF31073#32 42#32 0#32) = .halted 42#32 t := ⟨_, rfl⟩

end Sys2Proof.Tests
end

section
/-!
PROOF. The parameters of the model are constant (R7, R43(c)): each bus operation, each CSR write and trap entry leaves
them as they are, hence so does any instruction that completes, and any step.
-/

namespace Sys2Proof.Machine

theorem busLoad_params {s t : State} {n : Width} {a v : Word} (h : busLoad n a s = .next (v, t)) :
    t.params = s.params := by
  obtain ⟨_, _, rfl⟩ := busLoad_frame h
  rfl

theorem busStore_params {s t : State} {n : Width} {a v : Word} (h : busStore n a v s = .next t) :
    t.params = s.params := by
  obtain ⟨_, _, rfl⟩ := busStore_frame h
  rfl

theorem csrWrite_params {s t : State} {csr : CsrNumber} {v : Word} (h : csrWrite csr v s = .next t) :
    t.params = s.params := by
  obtain ⟨_, _, _, _, _, _, _, hparams, _⟩ := csrWrite_next h
  exact hparams

theorem fetch_params {s u : State} {w : Word} (h : fetch s = .next (w, u)) : u.params = s.params :=
  busLoad_params h

theorem Did.params_eq {i : Instr} {s t : State} (h : Did i s t) : t.params = s.params := by
  cases h with
  | compute => simp
  | load _ _ _ _ _ _ hload => simpa using busLoad_params hload
  | store _ _ _ _ hstore => simpa using busStore_params hstore
  | csr _ _ _ _ _ _ hcsr => simpa using csrWrite_params hcsr
  | trap => simp

theorem runWord_params {w : Word} {u t : State} (h : runWord w u = .next t) : t.params = u.params := by
  rcases runWord_next h with ⟨_, _, hexec⟩ | ⟨_, _, rfl⟩
  · exact (exec_did hexec).params_eq
  · exact takeException_params _ _ _

/-- Settles O57: neither the fetch nor running the fetched word changes the parameters. -/
theorem parametersNeverChange : Obligations.ParametersNeverChange := by
  intro s t h
  obtain ⟨_, _, w, u, hfetch, hrun⟩ := step_next h
  calc
    t.params = u.params := runWord_params hrun
    _ = s.params := fetch_params hfetch

end Sys2Proof.Machine
end

section
/-!
PROOF. The decoder gives only well-formed instructions (30_encoding.md R85, R87), one lemma per major opcode.
-/

namespace Sys2Proof

/-- A displacement assembled with a final zero bit is even (R85, R87). -/
theorem evenOffset_append_zero {n : Nat} (a : BitVec n) : evenOffset (a ++ 0#1) = true := by
  rw [evenOffset, BitVec.getLsbD_append]
  rfl

@[simp] theorem evenOffset_bField (w : Word) : evenOffset (bField w) = true := evenOffset_append_zero _

@[simp] theorem evenOffset_jField (w : Word) : evenOffset (jField w) = true := evenOffset_append_zero _

theorem decodeOpImm_wf {w : Word} {i : Instr} (h : decodeOpImm w = .ok i) : i.wf = true := by
  unfold decodeOpImm at h
  split_ifs at h <;> cases h <;> rfl

theorem decodeOp_wf {w : Word} {i : Instr} (h : decodeOp w = .ok i) : i.wf = true := by
  unfold decodeOp at h
  split_ifs at h <;> cases h <;> rfl

theorem decodeBranch_wf {w : Word} {i : Instr} (h : decodeBranch w = .ok i) : i.wf = true := by
  unfold decodeBranch at h
  split_ifs at h <;> cases h <;> exact evenOffset_bField w

theorem decodeLoad_wf {w : Word} {i : Instr} (h : decodeLoad w = .ok i) : i.wf = true := by
  unfold decodeLoad at h
  split_ifs at h <;> cases h <;> rfl

theorem decodeStore_wf {w : Word} {i : Instr} (h : decodeStore w = .ok i) : i.wf = true := by
  unfold decodeStore at h
  split_ifs at h <;> cases h <;> rfl

theorem decodeSystem_wf {w : Word} {i : Instr} (h : decodeSystem w = .ok i) : i.wf = true := by
  unfold decodeSystem at h
  split_ifs at h <;> cases h <;> rfl

/-- What the decoder gives has even displacements, by major opcode (R90). -/
theorem decode_wf {w : Word} {i : Instr} (h : decode w = .ok i) : i.wf = true := by
  unfold decode at h
  split_ifs at h
  · exact decodeOpImm_wf h
  · exact decodeOp_wf h
  · cases h; rfl
  · cases h; rfl
  · cases h; exact evenOffset_jField w
  · cases h; rfl
  · exact decodeBranch_wf h
  · exact decodeLoad_wf h
  · exact decodeStore_wf h
  · exact decodeSystem_wf h

end Sys2Proof
end

section
/-!
PROOF. What every step keeps. A step is a fetch and then an instruction's own work or the illegal-instruction trap
(`step_did`), so an invariant is what all three keep (`step_keeps`).
-/

namespace Sys2Proof.Machine

/-! ### What a step has done -/

/-- A step that answers has fetched a word, and from the state its fetch left it has done what the word's instruction
does, or has trapped on an illegal word (R98, R114). -/
theorem step_did {s t : State} (h : step s = .next t) :
    ∃ w u, fetch s = .next (w, u) ∧
      ((∃ i, decode w = .ok i ∧ Did i u t) ∨ t = takeException .illegalInstruction w u) := by
  obtain ⟨_, _, w, u, hfetch, hrun⟩ := step_next h
  refine ⟨w, u, hfetch, ?_⟩
  rcases runWord_next hrun with ⟨i, hdecode, hexec⟩ | ⟨_, _, htrap⟩
  · exact .inl ⟨i, hdecode, exec_did hexec⟩
  · exact .inr htrap

/-- A step keeps what the fetch, every well-formed instruction and trap entry keep. -/
theorem step_keeps {P : State → Prop}
    (hfetch : ∀ s input draws, P s → P { s with serialIn := input, eosDraws := draws })
    (hdid : ∀ {i s t}, i.wf = true → Did i s t → P s → P t)
    (htrap : ∀ cause tval s, P s → P (takeException cause tval s))
    {s t : State} (hs : P s) (h : step s = .next t) : P t := by
  obtain ⟨w, u, hf, hrun⟩ := step_did h
  obtain ⟨input, draws, rfl⟩ := fetch_frame hf
  have hu := hfetch s input draws hs
  rcases hrun with ⟨i, hdecode, hd⟩ | rfl
  · exact hdid (decode_wf hdecode) hd hu
  · exact htrap _ _ _ hu

/-! ### The pc stays even -/

theorem takeException_pcEven (cause : ExceptionCause) (tval : Word) (s : State) :
    PcEven (takeException cause tval s) := by
  simp [PcEven]

/-- The next word's address is even when the pc is. -/
theorem PcEven.add_four {s : State} (h : PcEven s) : (s.pc + 4#32).getLsbD 0 = false :=
  even_add h (by decide)

theorem Did.keeps_pcEven {i : Instr} {s t : State} (hwf : i.wf = true) (h : Did i s t) (hs : PcEven s) : PcEven t := by
  cases h with
  | compute rd v p hp =>
    rcases hp with rfl | hp
    · exact hs.add_four
    · exact hp hwf hs
  | load _ _ _ _ u _ hload =>
    obtain ⟨_, _, rfl⟩ := busLoad_frame hload
    simpa [PcEven] using hs.add_four
  | store _ _ _ u hstore =>
    obtain ⟨_, _, rfl⟩ := busStore_frame hstore
    exact hs.add_four
  | csr _ _ _ _ _ u hcsr =>
    obtain ⟨_, _, hpc, _⟩ := csrWrite_next hcsr
    simpa [PcEven, hpc] using hs.add_four
  | trap => exact takeException_pcEven _ _ _

/-- Settles O49: a completed instruction goes to the next word, to the pc plus an even displacement or to a target with
bit 0 cleared, and a trap goes to mtvec with bits 1:0 cleared. -/
theorem stepKeepsPcEven : Obligations.StepKeepsPcEven := by
  intro s t hs h
  exact step_keeps (fun _ _ _ hs => hs) Did.keeps_pcEven (fun _ _ _ _ => takeException_pcEven _ _ _) hs h

/-! ### The hardwired bits of mtvec and mepc stay 0 -/

theorem takeException_keeps_trapCsrsAligned (cause : ExceptionCause) (tval : Word) (s : State)
    (hs : TrapCsrsAligned s) : TrapCsrsAligned (takeException cause tval s) := by
  obtain ⟨htvec0, htvec1, _⟩ := hs
  exact ⟨htvec0, htvec1, by simp⟩

/-- A CSR write clears the hardwired bits of the CSR it writes and leaves the others as they are (R39). -/
theorem CsrWritten.keeps_trapCsrsAligned {csr : CsrNumber} {v : Word} {s t : State} (h : CsrWritten csr v s t)
    (hs : TrapCsrsAligned s) : TrapCsrsAligned t := by
  obtain ⟨hmtvec, _, hmepc, _⟩ := h
  obtain ⟨htvec0, htvec1, hepc0⟩ := hs
  refine ⟨?_, ?_, ?_⟩
  · rw [hmtvec]; split; exacts [by simp, htvec0]
  · rw [hmtvec]; split; exacts [by simp, htvec1]
  · rw [hmepc]; split; exacts [by simp, hepc0]

theorem Did.keeps_trapCsrsAligned {i : Instr} {s t : State} (h : Did i s t) (hs : TrapCsrsAligned s) :
    TrapCsrsAligned t := by
  cases h with
  | compute => simpa [TrapCsrsAligned] using hs
  | load _ _ _ _ u _ hload =>
    obtain ⟨_, _, rfl⟩ := busLoad_frame hload
    simpa [TrapCsrsAligned] using hs
  | store _ _ _ u hstore =>
    obtain ⟨_, _, rfl⟩ := busStore_frame hstore
    exact hs
  | csr _ _ _ _ _ u hcsr =>
    obtain ⟨hwritten, _⟩ := csrWrite_next hcsr
    exact hwritten.keeps_trapCsrsAligned (by simpa [TrapCsrsAligned] using hs)
  | trap => exact takeException_keeps_trapCsrsAligned _ _ _ hs

/-- Settles O50: only a CSR write and trap entry change mtvec or mepc, and both clear the hardwired bits. -/
theorem stepKeepsTrapCsrsAligned : Obligations.StepKeepsTrapCsrsAligned := by
  intro s t hs h
  exact step_keeps (fun _ _ _ hs => hs) (fun _ => Did.keeps_trapCsrsAligned) takeException_keeps_trapCsrsAligned hs h

/-! ### The listed cells stay in RAM -/

/-- Which cells are listed and where RAM lies depend on memory and the parameters alone. -/
theorem CellsInRam.congr {s t : State} (hs : CellsInRam s) (hmem : t.mem = s.mem) (hparams : t.params = s.params) :
    CellsInRam t := by
  unfold CellsInRam
  rw [hmem, hparams]
  exact hs

/-- The keys of an access in RAM are keys of the RAM region that it selects (R54). -/
theorem InRam.key_in_region {s : State} {a : Word} {n k : Nat} (h : InRam s a n k) {j : Nat} (hk : k ≤ j)
    (hj : j < k + n) :
    ∃ bank r, (busRegions s.params.bus)[bank]? = some r ∧ r.kind = .ram ∧ cellKey bank r.base ≤ j ∧
      j < cellKey bank r.base + r.size.toNat := by
  obtain ⟨bank, r, hregion, hram, hroom, rfl⟩ := h
  obtain ⟨_, hget, hcontains⟩ := findRegion_some _ _ _ _ _ hregion
  obtain ⟨hbase, _⟩ := (regionContains_iff _ _).mp hcontains
  unfold cellKey at hk hj
  exact ⟨bank, r, hget, hram, by unfold cellKey; omega, by unfold cellKey; omega⟩

theorem busStore_keeps_cellsInRam {s t : State} {n : Width} {a v : Word} (h : busStore n a v s = .next t)
    (hs : CellsInRam s) : CellsInRam t := by
  rcases busStore_next h with ⟨_, rfl⟩ | ⟨k, hram, rfl⟩ | ⟨_, hserial⟩
  · exact hs
  · intro c hc
    rcases mem_writeBytes _ _ _ _ _ hc with ⟨hk, hj⟩ | hold
    · exact hram.key_in_region hk hj
    · exact hs c hold
  · obtain ⟨_, rfl⟩ := serialStore_frame hserial
    exact hs

theorem Did.keeps_cellsInRam {i : Instr} {s t : State} (h : Did i s t) (hs : CellsInRam s) : CellsInRam t := by
  have hparams := h.params_eq
  cases h with
  | compute => exact hs.congr (by simp) hparams
  | load _ _ _ _ u _ hload =>
    obtain ⟨_, _, rfl⟩ := busLoad_frame hload
    exact hs.congr (by simp) hparams
  | store _ _ _ u hstore => exact (busStore_keeps_cellsInRam hstore hs).congr rfl rfl
  | csr _ _ _ _ _ u hcsr =>
    obtain ⟨_, _, _, _, _, _, hmem, _⟩ := csrWrite_next hcsr
    exact hs.congr (by simp [hmem]) hparams
  | trap => exact hs

/-- Settles O48: only a store changes memory, and the keys it writes lie in the RAM region that it selects. -/
theorem stepKeepsCellsInRam : Obligations.StepKeepsCellsInRam := by
  intro s t hs h
  exact step_keeps (fun _ _ _ hs => hs) (fun _ => Did.keeps_cellsInRam) (fun _ _ _ hs => hs) hs h

end Sys2Proof.Machine
end

section
/-!
PROOF. The CSR instructions (10_state.md R36 to R40, 46_system.md R224 to R230): what they do on a CSR they may access,
with rs1 = x0 (`csrAccess_reads`) and with another rs1 (`csrAccess_writes`).
-/

namespace Sys2Proof.Machine

/-! ### An access that passes the checks of R224 -/

/-- An access to a valid CSR that is a read or below the counters runs the sequence of R225. -/
theorem csrAccess_eq_csrSequence (w : Word) (c : Csr) (rd rs1 : Reg) (f : Word → Word → Word) (s : State)
    (h : rs1 = 0#5 ∨ c.number.toNat < 0xC00) :
    csrAccess w c.number rd rs1 f s = csrSequence c.number c rd rs1 f s := by
  have hlegal : (csrReadOnlyRange c.number && rs1 != 0#5) = false := by
    rcases h with rfl | h
    · simp
    · simp [csrReadOnlyRange, h]
  simp [csrAccess, hlegal]

/-- With rs1 = x0 an access gives the CSR's value to `rd` and changes nothing else (R36, R225). -/
theorem csrAccess_reads (w : Word) (c : Csr) (rd : Reg) (f : Word → Word → Word) (s : State) :
    ∃ t, csrAccess w c.number rd 0#5 f s = .next t ∧ WritesRegister rd (csrRead s c) (s.pc + 4#32) s t := by
  rw [csrAccess_eq_csrSequence _ _ _ _ _ _ (.inl rfl)]
  exact writeAndRetire_writes rd (csrRead s c) s

/-- A CSR instruction that writes has completed: `rd` holds `old`, the CSR `csr` was given `v`, and nothing else is
changed (R225, R39). -/
def WritesCsr (csr : CsrNumber) (v : Word) (rd : Reg) (old : Word) (s t : State) : Prop :=
  CsrWritten csr v s t ∧ RegsAfterWrite rd old s t ∧ t.pc = s.pc + 4#32 ∧ CountersRetired s t ∧ SameMemory s t ∧
    SameSerial s t ∧ t.params = s.params

theorem writesCsr_of_csrWrite {csr : CsrNumber} {v old : Word} {rd : Reg} {s u : State}
    (h : csrWrite csr v (s.setReg rd old) = .next u) : WritesCsr csr v rd old s u.retire := by
  obtain ⟨hcsr, hx, hpc, hcycle, htime, hinstret, hmem, hparams, hin, hout, hdraws⟩ := csrWrite_next h
  refine ⟨by simpa [CsrWritten] using hcsr, fun r => ?_, by simp [hpc], ?_, fun k => by simp [hmem], ?_,
    by simp [hparams]⟩
  · rw [retire_reg, reg_congr hx, setReg_reg]
  · simp [CountersRetired, hcycle, htime, hinstret]
  · simp [SameSerial, hin, hout, hdraws]

/-- With rs1 ≠ x0 an access to a writable CSR gives the old value to `rd` and `f` of it and of the old x[rs1] to the CSR
(R225). -/
theorem csrAccess_writes (w : Word) (c : Csr) (rd rs1 : Reg) (f : Word → Word → Word) (s : State) (h0 : rs1 ≠ 0#5)
    (hc : c.number.toNat < 0xC00) :
    ∃ t, csrAccess w c.number rd rs1 f s = .next t ∧
      WritesCsr c.number (f (csrRead s c) (s.reg rs1)) rd (csrRead s c) s t := by
  obtain ⟨u, hu⟩ := csrWrite_answers (f (csrRead s c) (s.reg rs1)) (s.setReg rd (csrRead s c)) (csrOfNumber_number c) hc
  refine ⟨u.retire, ?_, writesCsr_of_csrWrite hu⟩
  rw [csrAccess_eq_csrSequence _ _ _ _ _ _ (.inr hc), csrSequence]
  simp only [if_neg h0, hu, andThen_next]

/-! ### The three instructions -/

/-- The three CSR instructions on `csr`, each with what it computes from the old value and x[rs1] (R226 to R228). -/
def csrForms (s : State) (rd : Reg) (csr : CsrNumber) (rs1 : Reg) (old : Word) : List (Instr × Word) :=
  [(.csrrw rd csr rs1, s.reg rs1),
    (.csrrs rd csr rs1, if s.params.csrrsOp = .and then old &&& s.reg rs1 else old ||| s.reg rs1),
    (.csrrc rd csr rs1, old &&& ~~~ s.reg rs1)]

theorem csrrsFunction_eq_ite (op : CsrrsOp) (old source : Word) :
    csrrsFunction op old source = if op = .and then old &&& source else old ||| source := by
  cases op <;> rfl

/-- Each of the three is a `csrAccess` whose function computes its value. -/
theorem exec_csrForm {s : State} {rd rs1 : Reg} {csr : CsrNumber} {old : Word} {q : Instr × Word}
    (h : q ∈ csrForms s rd csr rs1 old) :
    ∃ w f, exec q.1 s = csrAccess w csr rd rs1 f s ∧ f old (s.reg rs1) = q.2 := by
  simp only [csrForms, List.mem_cons, List.not_mem_nil, or_false] at h
  rcases h with rfl | rfl | rfl
  · exact ⟨_, _, rfl, rfl⟩
  · exact ⟨_, _, rfl, csrrsFunction_eq_ite _ _ _⟩
  · exact ⟨_, _, rfl, rfl⟩

theorem exec_csrForm_reads {s : State} {rd : Reg} {c : Csr} {old : Word} {q : Instr × Word}
    (h : q ∈ csrForms s rd c.number 0#5 old) :
    ∃ t, exec q.1 s = .next t ∧ WritesRegister rd (csrRead s c) (s.pc + 4#32) s t := by
  obtain ⟨w, f, hexec, _⟩ := exec_csrForm h
  rw [hexec]
  exact csrAccess_reads w c rd f s

theorem exec_csrForm_writes {s : State} {rd rs1 : Reg} {c : Csr} {q : Instr × Word}
    (h : q ∈ csrForms s rd c.number rs1 (csrRead s c)) (h0 : rs1 ≠ 0#5) (hc : c.number.toNat < 0xC00) :
    ∃ t, exec q.1 s = .next t ∧ WritesCsr c.number q.2 rd (csrRead s c) s t := by
  obtain ⟨w, f, hexec, hvalue⟩ := exec_csrForm h
  rw [hexec, ← hvalue]
  exact csrAccess_writes w c rd rs1 f s h0 hc

/-! ### Reading -/

/-- The low half of a counter (R38). -/
theorem ofNat_toNat_eq_low (d : DWord) : BitVec.ofNat 32 d.toNat = d.extractLsb' 0 32 := by
  apply BitVec.eq_of_toNat_eq
  simp

/-- The high half of a counter (R38). -/
theorem ofNat_toNat_div_eq_high (d : DWord) : BitVec.ofNat 32 (d.toNat / 2 ^ 32) = d.extractLsb' 32 32 := by
  apply BitVec.eq_of_toNat_eq
  simp [Nat.shiftRight_eq_div_pow]

/-- Settles O36: the values of R38 are what `csrRead` gives for the twelve CSRs, and an access with rs1 = x0 only
reads. -/
theorem csrReadsWithX0 : Obligations.CsrReadsWithX0 := by
  intro s rd p hp i hi
  obtain ⟨c, rfl⟩ : ∃ c : Csr, p = (c.number, csrRead s c) := by
    simp only [ofNat_toNat_eq_low, ofNat_toNat_div_eq_high, List.mem_cons, List.not_mem_nil, or_false] at hp
    rcases hp with h | h | h | h | h | h | h | h | h | h | h | h
    exacts [⟨.mtvec, h⟩, ⟨.mscratch, h⟩, ⟨.mepc, h⟩, ⟨.mcause, h⟩, ⟨.mtval, h⟩, ⟨.halt, h⟩, ⟨.cycle, h⟩, ⟨.cycleh, h⟩,
      ⟨.time, h⟩, ⟨.timeh, h⟩, ⟨.instret, h⟩, ⟨.instreth, h⟩]
  obtain ⟨q, hq, rfl⟩ : ∃ q ∈ csrForms s rd c.number 0#5 0#32, q.1 = i := List.mem_map.mp hi
  exact exec_csrForm_reads hq

/-! ### Writing -/

/-- Settles O37: the six CSRs below the counters are writable, and the three functions of R226 to R228 give the written
value. -/
theorem csrWrites : Obligations.CsrWrites := by
  intro s rd rs1 h0 p hp q hq
  obtain ⟨c, rfl, hc⟩ : ∃ c : Csr, p = (c.number, csrRead s c) ∧ c.number.toNat < 0xC00 := by
    simp only [List.mem_cons, List.not_mem_nil, or_false] at hp
    rcases hp with h | h | h | h | h | h
    exacts [⟨.mtvec, h, by decide⟩, ⟨.mscratch, h, by decide⟩, ⟨.mepc, h, by decide⟩, ⟨.mcause, h, by decide⟩,
      ⟨.mtval, h, by decide⟩, ⟨.halt, h, by decide⟩]
  exact exec_csrForm_writes hq h0 hc

end Sys2Proof.Machine
end

section
/-!
PROOF. The halt latch, mtvec and mscratch change only by a CSR instruction that names them (10_state.md R28, R35, R39):
every step leaves all three alone or writes one CSR by name (`step_csrFile`).
-/

namespace Sys2Proof.Machine

/-! ### The word at the pc -/

/-- Four bytes read from memory are the word laid out in them (R54, R63). -/
theorem readBytes_four (m : List Host.Cell) (k : Nat) :
    readBytes m k 4 = wordOfBytes (readCell m k) (readCell m (k + 1)) (readCell m (k + 2)) (readCell m (k + 3)) := by
  apply BitVec.eq_of_getLsbD_eq
  intro j hj
  rw [readBytes_getLsbD _ _ _ _ hj, decide_eq_true hj, Bool.true_and]
  unfold wordOfBytes
  simp only [BitVec.getLsbD_append]
  split_ifs
  · rw [show j / 8 = 0 by omega, show j % 8 = j by omega, Nat.add_zero]
  · rw [show j / 8 = 1 by omega, show j % 8 = j - 8 by omega]
  · rw [show j / 8 = 2 by omega, show j % 8 = j - 8 - 8 by omega]
  · rw [show j / 8 = 3 by omega, show j % 8 = j - 8 - 8 - 8 by omega]

theorem fetch_of_wordAtPc {s : State} {w : Word} (h : WordAtPc s w) : fetch s = .next (w, s) := by
  obtain ⟨k, hram, rfl⟩ := h
  rw [← readBytes_four]
  exact busLoad_ram (n := .word) hram

/-- A fetched word that decodes is what the step runs (R114). -/
theorem step_eq_exec {s u : State} {w : Word} {i : Instr} (hs : Runnable s) (hfetch : fetch s = .next (w, u))
    (hdecode : decode w = .ok i) : step s = exec i u := by
  rw [step_eq hs.1 hs.2, hfetch, andThen_next, runWord, hdecode]

/-! ### The halting write -/

/-- A halted core has no step (R111). -/
theorem step_of_halted {s : State} (hbus : busOk s.params.bus = true) (h : s.halted = true) :
    step s = .fault .halted := by
  simp [step, hbus, h]

/-- Settles O39: the instruction at the pc reads or writes the CSR 0x3FF, and a write sets the latch that stops the next
step. -/
theorem haltingWriteEndsTheRun : Obligations.HaltingWriteEndsTheRun := by
  intro s w rd rs1 hs hw q hq hdecode
  rw [step_eq_exec hs (fetch_of_wordAtPc hw) hdecode]
  by_cases h0 : rs1 = 0#5
  · subst h0
    obtain ⟨t, hexec, ⟨hpc, hcount, htrap, ⟨hhalted, hvalue⟩, hserial, hparams⟩, hregs, hmem⟩ :=
      exec_csrForm_reads (c := .halt) (old := s.haltValue) hq
    exact ⟨t, hexec, hpc, hcount, hregs, htrap, hmem, hserial, hparams, fun h => absurd rfl h,
      fun _ => ⟨hhalted.trans hs.2, hvalue⟩⟩
  · obtain ⟨t, hexec, ⟨hmtvec, hmscratch, hmepc, hmcause, hmtval, hhalted, hvalue⟩, hregs, hpc, hcount, hmem, hserial,
      hparams⟩ := exec_csrForm_writes (c := .halt) hq h0 (by decide)
    have htrap : SameTrapCsrs s t := ⟨hmtvec, hmepc, hmcause, hmtval, hmscratch⟩
    exact ⟨t, hexec, hpc, hcount, hregs, htrap, hmem, hserial, hparams,
      fun _ => ⟨hhalted, hvalue, step_of_halted (hparams ▸ hs.1) hhalted⟩, fun h => absurd h h0⟩

/-! ### Only a CSR instruction by name -/

/-- A step that runs a CSR instruction which names a writable CSR, with rs1 ≠ x0, writes that CSR. -/
theorem WritesCsrByName.csrWritten {s t : State} {c : Csr} (h : WritesCsrByName s c.number)
    (hc : c.number.toNat < 0xC00) (hstep : step s = .next t) : ∃ v, CsrWritten c.number v s t := by
  obtain ⟨w, u, rd, rs1, hfetch, h0, hdecode⟩ := h
  obtain ⟨hbus, hrun, _⟩ := step_next hstep
  obtain ⟨q, hq, hdecode⟩ : ∃ q ∈ csrForms u rd c.number rs1 (csrRead u c), decode w = .ok q.1 := by
    simpa [csrForms] using hdecode
  rw [step_eq_exec ⟨hbus, hrun⟩ hfetch hdecode] at hstep
  obtain ⟨t', hexec, hwritten, _⟩ := exec_csrForm_writes hq h0 hc
  obtain rfl : t' = t := by simpa [hexec] using hstep
  obtain ⟨_, _, rfl⟩ := fetch_frame hfetch
  exact ⟨q.2, hwritten⟩

/-- An instruction leaves mtvec, mscratch and the halt latch as they are, or it writes a CSR by name. -/
theorem Did.csrFile {i : Instr} {s t : State} (h : Did i s t) :
    (t.mtvec = s.mtvec ∧ t.mscratch = s.mscratch ∧ t.halted = s.halted) ∨
      ∃ csr v rd rs1, rs1 ≠ 0#5 ∧ (i = .csrrw rd csr rs1 ∨ i = .csrrs rd csr rs1 ∨ i = .csrrc rd csr rs1) ∧
        CsrWritten csr v s t := by
  cases h with
  | compute => exact .inl (by simp)
  | load _ _ _ _ u _ hload =>
    obtain ⟨_, _, rfl⟩ := busLoad_frame hload
    exact .inl (by simp)
  | store _ _ _ u hstore =>
    obtain ⟨_, _, rfl⟩ := busStore_frame hstore
    exact .inl ⟨rfl, rfl, rfl⟩
  | csr csr v _ rd rs1 u hcsr h0 hi =>
    obtain ⟨hwritten, _⟩ := writesCsr_of_csrWrite hcsr
    exact .inr ⟨csr, v, rd, rs1, h0, hi, hwritten⟩
  | trap => exact .inl ⟨rfl, rfl, rfl⟩

/-- A step leaves mtvec, mscratch and the halt latch as they are, or it writes a CSR by name. -/
theorem step_csrFile {s t : State} (h : step s = .next t) :
    (t.mtvec = s.mtvec ∧ t.mscratch = s.mscratch ∧ t.halted = s.halted) ∨
      ∃ csr v, WritesCsrByName s csr ∧ CsrWritten csr v s t := by
  obtain ⟨w, u, hfetch, hrun⟩ := step_did h
  obtain ⟨_, _, rfl⟩ := fetch_frame hfetch
  rcases hrun with ⟨i, hdecode, hdid⟩ | rfl
  · rcases hdid.csrFile with hsame | ⟨csr, v, rd, rs1, h0, hi, hwritten⟩
    · exact .inl hsame
    · refine .inr ⟨csr, v, ⟨w, _, rd, rs1, hfetch, h0, ?_⟩, hwritten⟩
      rcases hi with rfl | rfl | rfl
      exacts [.inl hdecode, .inr (.inl hdecode), .inr (.inr hdecode)]
  · exact .inl ⟨rfl, rfl, rfl⟩

/-- Settles O54: a step starts with the latch clear, and only a write of 0x3FF by name sets it. -/
theorem onlyCsrWriteHalts : Obligations.OnlyCsrWriteHalts := by
  intro s t h
  obtain ⟨_, hrunning, _⟩ := step_next h
  constructor
  · intro hhalted
    rcases step_csrFile h with ⟨_, _, hsame⟩ | ⟨csr, v, hname, _, _, _, _, _, hlatch, _⟩
    · simp [hsame, hrunning] at hhalted
    · by_cases hcsr : csr = 0x3FF#12
      · exact hcsr ▸ hname
      · simp [hlatch, hcsr, hrunning] at hhalted
  · intro hname
    obtain ⟨_, _, _, _, _, _, hlatch, _⟩ := WritesCsrByName.csrWritten (c := .halt) hname (by decide) h
    exact hlatch

/-- Settles O56: a write by name of another CSR leaves mtvec, or mscratch, as it is, and so does every other step. -/
theorem onlyCsrWriteChangesTrapVector : Obligations.OnlyCsrWriteChangesTrapVector := by
  intro s t h
  rcases step_csrFile h with ⟨hmtvec, hmscratch, _⟩ | ⟨csr, v, hname, hmtvec, hmscratch, _⟩
  · exact ⟨fun hne => absurd hmtvec hne, fun hne => absurd hmscratch hne⟩
  · constructor
    · intro hne
      by_cases hcsr : csr = 0x305#12
      · exact hcsr ▸ hname
      · exact absurd (hmtvec.trans (if_neg hcsr)) hne
    · intro hne
      by_cases hcsr : csr = 0x340#12
      · exact hcsr ▸ hname
      · exact absurd (hmscratch.trans (if_neg hcsr)) hne

end Sys2Proof.Machine
end

section
/-!
PROOF. Why a step stops (40_step.md R111, R119, 70_reset_and_hazards.md R293): the core is halted, or the fetch or the
instruction's one bus access stops. No other part of an instruction does.
-/

namespace Sys2Proof.Machine

/-- A load or store of the instruction `i` at `s` stops with `r`: it straddles the end of a RAM region (R56), or the host
does not answer it (R293). -/
def AccessStops (i : Instr) (s : State) (r : Fault) : Prop :=
  ∃ a n,
    (r = .ramStraddle ∧ (LoadsAt i s a n ∨ StoresAt i s a n) ∧ StraddlesRam s a n) ∨
      (r = .awaitingSerialInput ∧ LoadsAt i s a n ∧ AtSerial s a ∧ InputUnanswered s) ∨
      (r = .awaitingSerialOutput ∧ StoresAt i s a n ∧ AtSerial s a ∧ OutputUnanswered s)

theorem loadAndRetire_fault {i : Instr} {s : State} {r : Fault} {n : Width} {extend : Word → Word} {rd rs1 : Reg}
    {imm : BitVec 12} (hi : LoadsAt i s (s.ea rs1 imm) n.bytes)
    (h : loadAndRetire n extend rd rs1 imm s = .fault r) : AccessStops i s r := by
  rcases (andThen_eq_fault _ _ _).mp h with hload | ⟨_, _, hwrite⟩
  · rcases busLoad_fault hload with ⟨hr, hstraddle⟩ | ⟨hr, hserial, hsilent⟩
    · exact ⟨_, _, .inl ⟨hr, .inl hi, hstraddle⟩⟩
    · exact ⟨_, _, .inr (.inl ⟨hr, hi, hserial, hsilent⟩)⟩
  · cases hwrite

theorem storeAndRetire_fault {i : Instr} {s : State} {r : Fault} {n : Width} {rs1 rs2 : Reg} {imm : BitVec 12}
    (hi : StoresAt i s (s.ea rs1 imm) n.bytes) (h : storeAndRetire n rs1 rs2 imm s = .fault r) :
    AccessStops i s r := by
  rcases (andThen_eq_fault _ _ _).mp h with hstore | ⟨_, _, hretire⟩
  · rcases busStore_fault hstore with ⟨hr, hstraddle⟩ | ⟨hr, hserial, hfull⟩
    · exact ⟨_, _, .inl ⟨hr, .inr hi, hstraddle⟩⟩
    · exact ⟨_, _, .inr (.inr ⟨hr, hi, hserial, hfull⟩)⟩
  · cases hretire

/-- A CSR instruction never stops: what passes the checks of R224 with rs1 ≠ x0 is writable (R40). -/
theorem csrAccess_answers (w : Word) (csr : CsrNumber) (rd rs1 : Reg) (f : Word → Word → Word) (s : State) :
    ∃ t, csrAccess w csr rd rs1 f s = .next t := by
  rcases csrAccess_eq w csr rd rs1 f s with ⟨_, htrap⟩ | ⟨hlegal, c, hcsr, _⟩
  · exact ⟨_, htrap⟩
  · obtain rfl := eq_number_of_csrOfNumber hcsr
    by_cases h0 : rs1 = 0#5
    · subst h0
      exact (csrAccess_reads w c rd f s).imp fun _ => And.left
    · have hwritable : c.number.toNat < 0xC00 := by
        simp only [csrAccessIllegal, Bool.or_eq_false_iff] at hlegal
        simpa [h0] using hlegal.2
      exact (csrAccess_writes w c rd rs1 f s h0 hwritable).imp fun _ => And.left

theorem csrAccess_not_fault (w : Word) (csr : CsrNumber) (rd rs1 : Reg) (f : Word → Word → Word) (s : State)
    (r : Fault) : csrAccess w csr rd rs1 f s ≠ .fault r := by
  obtain ⟨t, ht⟩ := csrAccess_answers w csr rd rs1 f s
  simp [ht]

/-- An instruction that stops is a load or store whose access stops (R119, R293). -/
theorem exec_fault {i : Instr} {s : State} {r : Fault} (h : exec i s = .fault r) : AccessStops i s r := by
  cases i with
  | lb rd rs1 imm => exact loadAndRetire_fault (n := .byte) ⟨rd, rs1, imm, rfl, by simp [Width.bytes]⟩ h
  | lbu rd rs1 imm => exact loadAndRetire_fault (n := .byte) ⟨rd, rs1, imm, rfl, by simp [Width.bytes]⟩ h
  | lh rd rs1 imm => exact loadAndRetire_fault (n := .half) ⟨rd, rs1, imm, rfl, by simp [Width.bytes]⟩ h
  | lhu rd rs1 imm => exact loadAndRetire_fault (n := .half) ⟨rd, rs1, imm, rfl, by simp [Width.bytes]⟩ h
  | lw rd rs1 imm => exact loadAndRetire_fault (n := .word) ⟨rd, rs1, imm, rfl, by simp [Width.bytes]⟩ h
  | sb rs1 rs2 imm => exact storeAndRetire_fault (n := .byte) ⟨rs1, rs2, imm, rfl, by simp [Width.bytes]⟩ h
  | sh rs1 rs2 imm => exact storeAndRetire_fault (n := .half) ⟨rs1, rs2, imm, rfl, by simp [Width.bytes]⟩ h
  | sw rs1 rs2 imm => exact storeAndRetire_fault (n := .word) ⟨rs1, rs2, imm, rfl, by simp [Width.bytes]⟩ h
  | csrrw rd csr rs1 => exact absurd h (csrAccess_not_fault _ _ _ _ _ _ _)
  | csrrs rd csr rs1 => exact absurd h (csrAccess_not_fault _ _ _ _ _ _ _)
  | csrrc rd csr rs1 => exact absurd h (csrAccess_not_fault _ _ _ _ _ _ _)
  | _ => cases h

theorem runWord_fault {w : Word} {u : State} {r : Fault} (h : runWord w u = .fault r) :
    ∃ i, decode w = .ok i ∧ exec i u = .fault r := by
  unfold runWord at h
  split at h
  · next i hdecode => exact ⟨i, hdecode, h⟩
  · cases h

/-- A step stops because the core is halted, because the fetch stops, or because the fetched instruction does. -/
theorem step_fault {s : State} {r : Fault} (h : step s = .fault r) :
    (r = .halted ∧ s.halted = true) ∨ fetch s = .fault r ∨
      ∃ w u i, fetch s = .next (w, u) ∧ decode w = .ok i ∧ exec i u = .fault r := by
  unfold step at h
  split_ifs at h with _ hhalted
  · cases h
    exact .inl ⟨rfl, hhalted⟩
  · rcases (andThen_eq_fault _ _ _).mp h with hfetch | ⟨⟨w, u⟩, hfetch, hrun⟩
    · exact .inr (.inl hfetch)
    · obtain ⟨i, hdecode, hexec⟩ := runWord_fault hrun
      exact .inr (.inr ⟨w, u, i, hfetch, hdecode, hexec⟩)

/-- Settles O13: the fetch is a word load at the pc, and the instruction stops only in its own bus access. -/
theorem stepFaultsOnlyWhereSpecStops : Obligations.StepFaultsOnlyWhereSpecStops := by
  intro s r h
  rcases step_fault h with hhalted | hfetch | ⟨w, u, i, hfetch, hdecode, hexec⟩
  · exact .inl hhalted
  · rcases busLoad_fault hfetch with hstraddle | hsilent
    · exact .inr (.inl hstraddle)
    · exact .inr (.inr (.inl hsilent))
  · obtain ⟨a, n, hstops⟩ := exec_fault hexec
    exact .inr (.inr (.inr ⟨w, u, i, a, n, hfetch, hdecode, hstops⟩))

end Sys2Proof.Machine
end

section
/-!
PROOF. The bus as configuration (20_memory.md R51, R52, R61): which region answers an address, the board's map, and
which configurations a step refuses.
-/

namespace Sys2Proof.Machine

/-! ### The region list -/

/-- The region found, counted from `i`, is the first in the list that contains the address. -/
theorem findRegion_eq_some_iff (rs : List Region) (i : Nat) (a : Word) (bank : Nat) (r : Region) :
    findRegion rs i a = some (i + bank, r) ↔
      rs[bank]? = some r ∧ regionContains r a = true ∧
        ∀ j < bank, ∀ q, rs[j]? = some q → ¬ regionContains q a = true := by
  induction rs generalizing i bank with
  | nil => simp [findRegion]
  | cons q rs ih =>
    unfold findRegion
    by_cases hq : regionContains q a = true
    · rw [if_pos hq]
      cases bank with
      | zero => simpa using fun hqr : q = r => hqr ▸ hq
      | succ bank => simpa using fun _ _ => ⟨0, by omega, q, rfl, hq⟩
    · rw [if_neg hq]
      cases bank with
      | zero =>
        constructor
        · intro h
          have hfrom := (findRegion_some _ _ _ _ _ h).1
          omega
        · rintro ⟨hr, hcontains, _⟩
          cases hr
          exact absurd hcontains hq
      | succ bank =>
        have hfirst : (∀ j < bank + 1, ∀ p, (q :: rs)[j]? = some p → ¬ regionContains p a = true) ↔
            ∀ j < bank, ∀ p, rs[j]? = some p → ¬ regionContains p a = true := by
          simp only [Nat.forall_lt_succ_left, List.getElem?_cons_zero, Option.some.injEq, forall_eq',
            List.getElem?_cons_succ]
          exact and_iff_right hq
        rw [hfirst, show i + (bank + 1) = i + 1 + bank by omega, ih (i + 1) bank, List.getElem?_cons_succ]

/-- Settles O41: the search stops at the first region that contains the address. -/
theorem firstRegionAnswers : Obligations.FirstRegionAnswers := by
  intro regions a
  simp only [← regionContains_iff]
  refine ⟨fun bank r => ?_, ?_⟩
  · have h := findRegion_eq_some_iff regions 0 a bank r
    rwa [Nat.zero_add] at h
  · simpa only [Bool.not_eq_true] using findRegion_none regions 0 a

/-! ### The board -/

theorem boardRam_toNat_size {length : Nat} (h : length ≤ 0xFFFFFEFE) : (BitVec.ofNat 32 length).toNat = length := by
  rw [BitVec.toNat_ofNat]
  exact Nat.mod_eq_of_lt (by omega)

theorem boardRam_contains_iff {length : Nat} (h : length ≤ 0xFFFFFEFE) (a : Word) :
    regionContains ⟨Config.boardRamBase, BitVec.ofNat 32 length, .ram⟩ a = true ↔
      0x100 ≤ a.toNat ∧ a.toNat < 0x100 + length := by
  rw [regionContains_iff, boardRam_toNat_size h]
  rfl

theorem boardSerial_contains_iff (a : Word) :
    regionContains ⟨Config.boardSerialBase, 1#32, .serial⟩ a = true ↔ a.toNat = 0xFFFFFFFE := by
  simp only [regionContains_iff, Config.boardSerialBase, BitVec.toNat_ofNat]
  omega

/-- The region that answers an address on the board (R61). -/
theorem region_of_board {s : State} {length : Nat} (h : length ≤ 0xFFFFFEFE) (hbus : s.params.bus = .board length)
    (a : Word) :
    s.region a =
      if 0x100 ≤ a.toNat ∧ a.toNat < 0x100 + length then
        some (0, ⟨Config.boardRamBase, BitVec.ofNat 32 length, .ram⟩)
      else if a.toNat = 0xFFFFFFFE then some (1, ⟨Config.boardSerialBase, 1#32, .serial⟩)
      else none := by
  simp only [State.region, hbus, busRegions, boardRegions, findRegion, boardRam_contains_iff h,
    boardSerial_contains_iff]

/-- Settles O42: the five ranges of R61 decide which region of the board answers. -/
theorem boardMap : Obligations.BoardMap := by
  intro s length a h hbus
  have hregion := region_of_board h hbus a
  have hunmapped (hram : ¬ (0x100 ≤ a.toNat ∧ a.toNat < 0x100 + length)) (hport : a.toNat ≠ 0xFFFFFFFE) :
      Unmapped s a := hregion.trans (by rw [if_neg hram, if_neg hport])
  refine ⟨fun hlow => ?_, fun hfrom hto => ?_, fun hfrom hto => ?_, fun hport => ?_, fun htop => ?_⟩
  · exact hunmapped (by omega) (by omega)
  · rw [if_pos ⟨hfrom, hto⟩] at hregion
    exact ⟨_, _, hregion, rfl, by rw [boardRam_toNat_size h]; exact hto, by simp [cellKey]⟩
  · exact hunmapped (by omega) (by omega)
  · exact ⟨_, _, hregion.trans (by rw [if_neg (by omega), if_pos hport]), rfl⟩
  · exact hunmapped (by omega) (by omega)

/-! ### Refusal -/

theorem loadAndRetire_not_refused (n : Width) (extend : Word → Word) (rd rs1 : Reg) (imm : BitVec 12) (s : State)
    (r : Refusal) : loadAndRetire n extend rd rs1 imm s ≠ .refused r := by
  intro h
  rcases (andThen_eq_refused _ _ _).mp h with hload | ⟨_, _, hwrite⟩
  · exact busLoad_not_refused _ _ _ _ hload
  · cases hwrite

theorem storeAndRetire_not_refused (n : Width) (rs1 rs2 : Reg) (imm : BitVec 12) (s : State) (r : Refusal) :
    storeAndRetire n rs1 rs2 imm s ≠ .refused r := by
  intro h
  rcases (andThen_eq_refused _ _ _).mp h with hstore | ⟨_, _, hretire⟩
  · exact busStore_not_refused _ _ _ _ _ hstore
  · cases hretire

theorem csrAccess_not_refused (w : Word) (csr : CsrNumber) (rd rs1 : Reg) (f : Word → Word → Word) (s : State)
    (r : Refusal) : csrAccess w csr rd rs1 f s ≠ .refused r := by
  obtain ⟨t, ht⟩ := csrAccess_answers w csr rd rs1 f s
  simp [ht]

/-- Every instruction has a meaning from every state. -/
theorem exec_not_refused (i : Instr) (s : State) (r : Refusal) : exec i s ≠ .refused r := by
  cases i with
  | lb | lh | lw | lbu | lhu => exact loadAndRetire_not_refused _ _ _ _ _ _ _
  | sb | sh | sw => exact storeAndRetire_not_refused _ _ _ _ _ _
  | csrrw | csrrs | csrrc => exact csrAccess_not_refused _ _ _ _ _ _ _
  | _ => nofun

theorem runWord_not_refused (w : Word) (s : State) (r : Refusal) : runWord w s ≠ .refused r := by
  unfold runWord
  split
  · exact exec_not_refused _ _ _
  · nofun

/-- A step refuses a configuration and nothing else (R119). -/
theorem step_eq_refused_iff (s : State) (r : Refusal) :
    step s = .refused r ↔ r = .configuration ∧ busOk s.params.bus = false := by
  have hfetch : fetch s ≠ .refused r := busLoad_not_refused _ _ _ _
  unfold step
  split_ifs with hbus hhalted
  · simp [hbus]
  · simp [andThen_eq_refused, hbus, hfetch, runWord_not_refused]
  · simp [hbus, eq_comm]

/-- The configurations that break R52. -/
theorem busOk_eq_false_iff (bus : BusMap) :
    busOk bus = false ↔ (∃ length, bus = .board length ∧ 0xFFFFFEFE < length) ∨
      ∃ regions, bus = .custom regions ∧ ∃ q ∈ regions, 2 ^ 32 < q.base.toNat + q.size.toNat := by
  cases bus with
  | board length =>
    have hlong : busOk (.board length) = false ↔ 0xFFFFFEFE < length := decide_eq_false_iff_not.trans not_le
    simpa using hlong
  | custom regions => simp [busOk, regionFits]

/-- The board's regions exclude each other: the longest image ends where the port begins (R52). -/
theorem boardRegions_disjoint {length : Nat} (h : length ≤ 0xFFFFFEFE) (a : Word) :
    ¬ (regionContains ⟨Config.boardRamBase, BitVec.ofNat 32 length, .ram⟩ a = true ∧
      regionContains ⟨Config.boardSerialBase, 1#32, .serial⟩ a = true) := by
  rw [boardRam_contains_iff h, boardSerial_contains_iff]
  omega

/-- Settles O12: a step refuses only where `busOk` fails. -/
theorem onlyBadConfigurationIsRefused : Obligations.OnlyBadConfigurationIsRefused := by
  refine ⟨fun s r => ?_, fun length a h p hp q hq hpa hqa => ?_, fun r a hr => ?_⟩
  · rw [step_eq_refused_iff, busOk_eq_false_iff]
  · have hdisjoint := boardRegions_disjoint h a
    simp only [busRegions, boardRegions, List.mem_cons, List.not_mem_nil, or_false] at hp hq
    rcases hp with rfl | rfl <;> rcases hq with rfl | rfl
    exacts [rfl, absurd ⟨hpa, hqa⟩ hdisjoint, absurd ⟨hqa, hpa⟩ hdisjoint, rfl]
  · rw [← Bool.not_eq_true, regionContains_iff, hr]
    simp

end Sys2Proof.Machine
end

section
/-!
PROOF. Loads and stores (45_load_store.md R200 to R209, 20_memory.md R53 to R60): each load is one bus read and each
store one bus write, so each statement is a law of the bus at the effective address.
-/

namespace Sys2Proof.Machine

/-! ### Little-endian values and their extensions (R54, R201 to R205) -/

theorem readBytes_one (m : List Host.Cell) (k : Nat) : readBytes m k 1 = (readCell m k).setWidth 32 := by
  simp [readBytes]

theorem readBytes_two (m : List Host.Cell) (k : Nat) :
    readBytes m k 2 = (readCell m (k + 1) ++ readCell m k).setWidth 32 := by
  apply BitVec.eq_of_getLsbD_eq
  intro j hj
  rw [readBytes_getLsbD _ _ _ _ hj, BitVec.getLsbD_setWidth, BitVec.getLsbD_append, decide_eq_true hj, Bool.true_and]
  split_ifs with hlow
  · rw [decide_eq_true (by omega), show j / 8 = 0 by omega, show j % 8 = j by omega, Nat.add_zero, Bool.true_and]
  · by_cases hhigh : j < 16
    · rw [decide_eq_true (by omega), show j / 8 = 1 by omega, show j % 8 = j - 8 by omega, Bool.true_and]
    · rw [decide_eq_false (by omega), Bool.false_and, BitVec.getLsbD_of_ge _ (j - 8) (by omega)]

/-- A read after a store of the same width gives the low bits of the value. -/
theorem readBytes_writeBytes_eq_low (m : List Host.Cell) (k n : Nat) (v : Word) :
    readBytes (writeBytes m k n v) k n = (v.setWidth (8 * n)).setWidth 32 := by
  apply BitVec.eq_of_getLsbD_eq
  intro j hj
  rw [readBytes_writeBytes _ _ _ _ _ hj, BitVec.getLsbD_setWidth, BitVec.getLsbD_setWidth, decide_eq_true hj,
    Bool.true_and]

@[simp] theorem signByte_byte (b : Byte) : signByte (b.setWidth 32) = b.signExtend 32 := by
  simp [signByte]

@[simp] theorem zeroByte_byte (b : Byte) : zeroByte (b.setWidth 32) = b.setWidth 32 := by
  simp [zeroByte]

@[simp] theorem signHalf_half (h : BitVec 16) : signHalf (h.setWidth 32) = h.signExtend 32 := by
  simp [signHalf]

@[simp] theorem zeroHalf_half (h : BitVec 16) : zeroHalf (h.setWidth 32) = h.setWidth 32 := by
  simp [zeroHalf]

/-- A byte has no sign bit of a halfword (R60). -/
@[simp] theorem signHalf_byte (b : Byte) : signHalf (b.setWidth 32) = b.setWidth 32 := by
  have hsign : (b.setWidth 16).msb = false := by simp [BitVec.msb_setWidth]
  simp [signHalf, BitVec.signExtend_eq_setWidth_of_msb_false hsign]

@[simp] theorem zeroHalf_byte (b : Byte) : zeroHalf (b.setWidth 32) = b.setWidth 32 := by
  simp [zeroHalf]

/-! ### The effective address -/

/-- Adding the sign-extended displacement adds its value modulo 2^32 (R69, R200). -/
theorem ea_eq_ofInt (s : State) (rs1 : Reg) (imm : BitVec 12) :
    s.ea rs1 imm = BitVec.ofInt 32 ((s.reg rs1).toInt + imm.toInt) := by
  rw [State.ea, imm12, BitVec.signExtend, BitVec.ofInt_add, BitVec.ofInt_toInt]

theorem ea_congr {s t : State} (h : SameRegs s t) (rs1 : Reg) (imm : BitVec 12) : t.ea rs1 imm = s.ea rs1 imm := by
  rw [State.ea, State.ea, h rs1]

/-- Where an address lies depends on the parameters alone. -/
theorem InRam.congr {s t : State} {a : Word} {n k : Nat} (h : InRam s a n k) (hparams : t.params = s.params) :
    InRam t a n k := by
  obtain ⟨bank, r, hregion, hrest⟩ := h
  refine ⟨bank, r, ?_, hrest⟩
  rw [State.region, hparams]
  exact hregion

/-! ### Loads -/

/-- The five loads, each with its width and its extension (R201 to R205). -/
def loadForms (rd rs1 : Reg) (imm : BitVec 12) : List (Instr × Width × (Word → Word)) :=
  [(.lb rd rs1 imm, .byte, signByte), (.lh rd rs1 imm, .half, signHalf), (.lw rd rs1 imm, .word, id),
    (.lbu rd rs1 imm, .byte, zeroByte), (.lhu rd rs1 imm, .half, zeroHalf)]

theorem exec_loadForm {rd rs1 : Reg} {imm : BitVec 12} {q : Instr × Width × (Word → Word)}
    (h : q ∈ loadForms rd rs1 imm) (s : State) : exec q.1 s = loadAndRetire q.2.1 q.2.2 rd rs1 imm s := by
  simp only [loadForms, List.mem_cons, List.not_mem_nil, or_false] at h
  rcases h with rfl | rfl | rfl | rfl | rfl <;> rfl

theorem loadForm_zero {rd rs1 : Reg} {imm : BitVec 12} {q : Instr × Width × (Word → Word)}
    (h : q ∈ loadForms rd rs1 imm) : q.2.2 0#32 = 0#32 := by
  simp only [loadForms, List.mem_cons, List.not_mem_nil, or_false] at h
  rcases h with rfl | rfl | rfl | rfl | rfl <;> rfl

/-- A load in RAM gives its bytes, extended (R54). -/
theorem loadAndRetire_ram {s : State} {n : Width} {rs1 : Reg} {imm : BitVec 12} {k : Nat} (extend : Word → Word)
    (rd : Reg) (h : InRam s (s.ea rs1 imm) n.bytes k) :
    ∃ t, loadAndRetire n extend rd rs1 imm s = .next t ∧
      WritesRegister rd (extend (readBytes s.mem k n.bytes)) (s.pc + 4#32) s t :=
  loadAndRetire_writes extend rd rs1 imm (busLoad_ram h)

/-- Settles O27: each load is a bus read in RAM of its width, and its extension acts on the little-endian value. -/
theorem loadsFromRam : Obligations.LoadsFromRam := by
  intro s rd rs1 imm k
  simp only [List.forall_mem_cons, List.not_mem_nil, false_implies, implies_true, and_true]
  refine ⟨fun h => ⟨?_, ?_⟩, fun h => ⟨?_, ?_⟩, fun h => ?_⟩
  · rw [← signByte_byte, ← readBytes_one]
    exact loadAndRetire_ram (n := .byte) signByte rd h
  · rw [← zeroByte_byte, ← readBytes_one]
    exact loadAndRetire_ram (n := .byte) zeroByte rd h
  · rw [← signHalf_half, ← readBytes_two]
    exact loadAndRetire_ram (n := .half) signHalf rd h
  · rw [← zeroHalf_half, ← readBytes_two]
    exact loadAndRetire_ram (n := .half) zeroHalf rd h
  · have hload := loadAndRetire_ram (n := .word) id rd h
    rwa [show Width.word.bytes = 4 from rfl, readBytes_four] at hload

/-- Settles O28: the bus reads 0 in no region, and every extension keeps 0. -/
theorem loadsFromUnmapped : Obligations.LoadsFromUnmapped := by
  intro s rd rs1 imm
  refine ⟨ea_eq_ofInt s rs1 imm, fun h i hi => ?_⟩
  rw [← ea_eq_ofInt] at h
  obtain ⟨q, hq, rfl⟩ : ∃ q ∈ loadForms rd rs1 imm, q.1 = i := List.mem_map.mp hi
  have hload := loadAndRetire_writes q.2.2 rd rs1 imm (busLoad_unmapped q.2.1 h)
  rwa [loadForm_zero hq, ← exec_loadForm hq] at hload

/-- The host's answer is what a serial load gives (R57, R59, R60). -/
theorem SerialAnswers.serialLoad_eq {s u : State} {b : Byte} (h : SerialAnswers s b u) :
    serialLoad s = .next (b, u) := by
  rcases h with ⟨hin, rfl, rfl⟩ | ⟨_, _, hin, rfl⟩ | ⟨_, _, hin, rfl, rfl⟩ | ⟨hin, rfl, rfl⟩ <;>
    simp only [serialLoad, hin]

/-- A load from the serial port gives the answered byte, zero-extended, whatever its width (R57). -/
theorem SerialAnswers.busLoad_eq {s u : State} {b : Byte} {a : Word} (h : SerialAnswers s b u) (n : Width)
    (ha : AtSerial s a) : busLoad n a s = .next (b.setWidth 32, u) := by
  rw [busLoad_serial n ha, h.serialLoad_eq, andThen_next]

theorem SerialAnswers.pc_eq {s u : State} {b : Byte} (h : SerialAnswers s b u) : u.pc = s.pc := by
  obtain ⟨_, _, rfl⟩ := serialLoad_frame h.serialLoad_eq
  rfl

/-- Settles O29: every load extends the one byte that the host answers, and only LB's extension sees its sign. -/
theorem loadsFromSerial : Obligations.LoadsFromSerial := by
  intro s rd rs1 imm ha b u hb p hp
  obtain ⟨q, hq, rfl⟩ : ∃ q ∈ loadForms rd rs1 imm, (q.1, q.2.2 (b.setWidth 32)) = p :=
    List.mem_map.mp (by simpa [loadForms] using hp)
  have hload := loadAndRetire_writes q.2.2 rd rs1 imm (hb.busLoad_eq q.2.1 ha)
  rwa [hb.pc_eq, ← exec_loadForm hq] at hload

/-! ### Stores -/

/-- The three stores, each with its width (R206 to R208). -/
def storeForms (rs1 rs2 : Reg) (imm : BitVec 12) : List (Instr × Width) :=
  [(.sb rs1 rs2 imm, .byte), (.sh rs1 rs2 imm, .half), (.sw rs1 rs2 imm, .word)]

theorem exec_storeForm {rs1 rs2 : Reg} {imm : BitVec 12} {q : Instr × Width} (h : q ∈ storeForms rs1 rs2 imm)
    (s : State) : exec q.1 s = storeAndRetire q.2 rs1 rs2 imm s := by
  simp only [storeForms, List.mem_cons, List.not_mem_nil, or_false] at h
  rcases h with rfl | rfl | rfl <;> rfl

/-- A store whose bus write answers completes from the state that it leaves (R200). -/
theorem storeAndRetire_eq {n : Width} {s u : State} {rs1 rs2 : Reg} {imm : BitVec 12}
    (h : busStore n (s.ea rs1 imm) (s.reg rs2) s = .next u) : storeAndRetire n rs1 rs2 imm s = .next u.retire := by
  rw [storeAndRetire, h, andThen_next]

theorem retire_onlyMoves (u : State) : OnlyMoves (u.pc + 4#32) u u.retire :=
  ⟨retireTo_completes u _, fun _ => rfl, fun _ => rfl⟩

/-- A store in RAM completes, and memory has its bytes (R55). -/
theorem storeAndRetire_ram {s : State} {n : Width} {rs1 : Reg} {imm : BitVec 12} {k : Nat} (rs2 : Reg)
    (h : InRam s (s.ea rs1 imm) n.bytes k) :
    ∃ t, storeAndRetire n rs1 rs2 imm s = .next t ∧ CompletesAt (s.pc + 4#32) s t ∧ SameRegs s t ∧
      t.mem = writeBytes s.mem k n.bytes (s.reg rs2) :=
  ⟨_, storeAndRetire_eq (busStore_ram (s.reg rs2) h), retireTo_completes s _, fun _ => rfl, rfl⟩

theorem memoryAfterStore_of_mem_eq {s t : State} {k n : Nat} {v : Word} (h : t.mem = writeBytes s.mem k n v) :
    MemoryAfterStore k n v s t := by
  unfold MemoryAfterStore
  rw [h]
  exact ⟨readCell_writeBytes s.mem k n v, readCell_writeBytes_other s.mem k n v⟩

/-- Settles O30: the bus writes the bytes of x[rs2] and no other byte, and the rest is normal completion. -/
theorem storesToRam : Obligations.StoresToRam := by
  intro s rs1 rs2 imm k p hp h
  obtain ⟨q, hq, rfl⟩ : ∃ q ∈ storeForms rs1 rs2 imm, (q.1, q.2.bytes) = p := List.mem_map.mp hp
  obtain ⟨t, hstore, hcompletes, hregs, hmem⟩ := storeAndRetire_ram rs2 h
  exact ⟨t, (exec_storeForm hq s).trans hstore, hcompletes, hregs, memoryAfterStore_of_mem_eq hmem⟩

/-- Settles O31: the bus changes nothing at an address in no region. -/
theorem storesToUnmapped : Obligations.StoresToUnmapped := by
  intro s rs1 rs2 imm h i hi
  obtain ⟨q, hq, rfl⟩ : ∃ q ∈ storeForms rs1 rs2 imm, q.1 = i := List.mem_map.mp hi
  exact ⟨_, (exec_storeForm hq s).trans (storeAndRetire_eq (busStore_unmapped q.2 _ h)), retire_onlyMoves s⟩

/-- Settles O32: the three writers that take a store are those whose `serialStore` answers, with the low byte sent. -/
theorem storesToSerial : Obligations.StoresToSerial := by
  intro s rs1 rs2 imm h u hu i hi
  obtain ⟨q, hq, rfl⟩ : ∃ q ∈ storeForms rs1 rs2 imm, q.1 = i := List.mem_map.mp hi
  have hlow : (s.reg rs2).setWidth 8 = (s.reg rs2).extractLsb' 0 8 := BitVec.setWidth_eq_extractLsb' (by decide)
  have hstore : serialStore ((s.reg rs2).setWidth 8) s = .next u := by
    rw [hlow]
    rcases hu with ⟨hout, rfl⟩ | ⟨_, hout, rfl⟩ | ⟨_, _, hout, rfl⟩ <;> simp only [serialStore, hout]
  have hpc : u.pc = s.pc := by
    obtain ⟨_, rfl⟩ := serialStore_frame hstore
    rfl
  rw [← hpc]
  exact ⟨_, (exec_storeForm hq s).trans (storeAndRetire_eq ((busStore_serial q.2 _ h).trans hstore)),
    retire_onlyMoves u⟩

/-! ### Store, then read back -/

/-- A load of the width and address of a store just done in RAM gives the stored low bits, extended (R54, R55). -/
theorem loadAndRetire_after_storeAndRetire {s : State} {n : Width} {rs1 : Reg} {imm : BitVec 12} {k : Nat}
    (extend : Word → Word) (rd rs2 : Reg) (h : InRam s (s.ea rs1 imm) n.bytes k) :
    ∃ t, storeAndRetire n rs1 rs2 imm s = .next t ∧ ∃ u, loadAndRetire n extend rd rs1 imm t = .next u ∧
      RegsAfterWrite rd (extend (((s.reg rs2).setWidth (8 * n.bytes)).setWidth 32)) s u := by
  obtain ⟨t, hstore, ⟨_, _, _, _, _, hparams⟩, hregs, hmem⟩ := storeAndRetire_ram rs2 h
  have hram : InRam t (t.ea rs1 imm) n.bytes k := ea_congr hregs rs1 imm ▸ h.congr hparams
  obtain ⟨u, hload, _, hwrite, _⟩ := loadAndRetire_ram extend rd hram
  rw [hmem, readBytes_writeBytes_eq_low] at hwrite
  exact ⟨t, hstore, u, hload, fun r => by rw [hwrite r, hregs r]⟩

/-- Settles O43: the load's extension acts on the bits that the store wrote. -/
theorem storeThenLoad : Obligations.StoreThenLoad := by
  intro s rd rs1 rs2 imm k
  simp only [List.forall_mem_cons, List.not_mem_nil, false_implies, implies_true, and_true]
  refine ⟨fun h => ?_, fun h => ?_, fun h => ?_, fun h => ?_, fun h => ?_⟩
  · rw [← zeroByte_byte]
    exact loadAndRetire_after_storeAndRetire (n := .byte) zeroByte rd rs2 h
  · rw [← signByte_byte]
    exact loadAndRetire_after_storeAndRetire (n := .byte) signByte rd rs2 h
  · rw [← zeroHalf_half]
    exact loadAndRetire_after_storeAndRetire (n := .half) zeroHalf rd rs2 h
  · rw [← signHalf_half]
    exact loadAndRetire_after_storeAndRetire (n := .half) signHalf rd rs2 h
  · have hword := loadAndRetire_after_storeAndRetire (n := .word) id rd rs2 h
    rwa [show Width.word.bytes = 4 from rfl, id, BitVec.setWidth_eq, BitVec.setWidth_eq] at hword

/-- Settles O44: the store completes at the word that it wrote, so the next fetch reads that word. -/
theorem storeSeenByNextFetch : Obligations.StoreSeenByNextFetch := by
  intro s rs1 rs2 imm k hnext h
  obtain ⟨t, hstore, ⟨hpc, _, _, _, _, hparams⟩, _, hmem⟩ := storeAndRetire_ram (n := .word) rs2 h
  have hram : InRam t t.pc Width.word.bytes k := (hpc.trans hnext.symm) ▸ h.congr hparams
  refine ⟨t, hstore, ?_⟩
  rw [fetch, busLoad_ram hram, hmem]
  exact congrArg (fun v => Host.Outcome.next (v, t)) (readBytes_writeBytes_word _ _ _)

end Sys2Proof.Machine
end

section
/-!
PROOF. The fetch as a word load at the pc (40_step.md R112): in no region, at the serial port, and past the end of a RAM
region (20_memory.md R53, R56, R57).
-/

namespace Sys2Proof.Machine

/-! ### Running the fetched word -/

/-- A fetched word that does not decode traps with itself as the trap value (R98). -/
theorem step_traps_of_decode_error {s u : State} {w : Word} {e : Illegal} (hs : Runnable s)
    (hfetch : fetch s = .next (w, u)) (hdecode : decode w = .error e) :
    ∃ t, step s = .next t ∧ TrapTaken 2#32 w u t := by
  refine ⟨takeException .illegalInstruction w u, ?_, takeException_trap _ _ _⟩
  rw [step_eq hs.1 hs.2, hfetch, andThen_next, runWord, hdecode]

/-- A step runs the word that it fetched (R114). -/
theorem runsWord_of_fetch {s u : State} {w : Word} (hs : Runnable s) (hfetch : fetch s = .next (w, u)) :
    RunsWord w s u := by
  unfold RunsWord
  split
  · next i hdecode => exact step_eq_exec hs hfetch hdecode
  · next e hdecode => exact step_traps_of_decode_error hs hfetch hdecode

/-- The all-zero word is no instruction (R90). -/
theorem decode_zero : decode 0#32 = .error .opcode := by decide

/-- Settles O9: the fetch reads 0, which is no instruction. -/
theorem unmappedFetchTraps : Obligations.UnmappedFetchTraps := by
  intro s hs h
  exact step_traps_of_decode_error hs (busLoad_unmapped .word h) decode_zero

/-- Settles O10: the fetch is a load of the answered byte, and with no reader the byte is 0. -/
theorem serialFetchRunsInputByte : Obligations.SerialFetchRunsInputByte := by
  intro s hs hserial
  have hfetch {b : Byte} {u : State} (hb : SerialAnswers s b u) : fetch s = .next (b.setWidth 32, u) :=
    hb.busLoad_eq .word hserial
  refine ⟨fun b u hb => runsWord_of_fetch hs (hfetch hb), fun hin => ?_⟩
  exact step_traps_of_decode_error hs (hfetch (.inl ⟨hin, rfl, rfl⟩)) decode_zero

/-! ### Past the end of a RAM region -/

/-- A byte access ends where it begins, so it stays inside the region that contains it (R56). -/
theorem not_straddlesRam_one (s : State) (a : Word) : ¬ StraddlesRam s a 1 := by
  rintro ⟨bank, r, hregion, _, hpast⟩
  obtain ⟨_, _, hcontains⟩ := findRegion_some _ _ _ _ _ hregion
  obtain ⟨_, hbelow⟩ := (regionContains_iff _ _).mp hcontains
  omega

theorem loadAndRetire_straddle {s : State} {n : Width} {rs1 : Reg} {imm : BitVec 12} (extend : Word → Word) (rd : Reg)
    (h : StraddlesRam s (s.ea rs1 imm) n.bytes) : loadAndRetire n extend rd rs1 imm s = .fault .ramStraddle := by
  rw [loadAndRetire, busLoad_straddle h, andThen_fault]

theorem storeAndRetire_straddle {s : State} {n : Width} {rs1 : Reg} {imm : BitVec 12} (rs2 : Reg)
    (h : StraddlesRam s (s.ea rs1 imm) n.bytes) : storeAndRetire n rs1 rs2 imm s = .fault .ramStraddle := by
  rw [storeAndRetire, busStore_straddle _ h, andThen_fault]

/-- Settles O33: the bus access of each stops, and so does what contains it. -/
theorem ramStraddleFaults : Obligations.RamStraddleFaults := by
  unfold Obligations.RamStraddleFaults
  simp only [List.forall_mem_cons, List.not_mem_nil, false_implies, implies_true, and_true]
  refine ⟨fun s rd rs1 imm => ⟨fun h => ?_, fun h => ?_, fun h => ?_⟩, fun s rs1 rs2 imm => ⟨fun h => ?_, fun h => ?_⟩,
    fun s hs h => ?_, not_straddlesRam_one⟩
  · exact loadAndRetire_straddle (n := .half) signHalf rd h
  · exact loadAndRetire_straddle (n := .word) id rd h
  · exact loadAndRetire_straddle (n := .half) zeroHalf rd h
  · exact storeAndRetire_straddle (n := .half) rs2 h
  · exact storeAndRetire_straddle (n := .word) rs2 h
  · rw [step_eq hs.1 hs.2, fetch, busLoad_straddle (n := .word) h, andThen_fault]

end Sys2Proof.Machine
end

section
/-!
PROOF. RAM and the serial output change only by a store (20_memory.md R55, R58): every step leaves both alone or runs
one store instruction's bus write (`step_stores`). Then what every step keeps at reset (70_reset_and_hazards.md R280).
-/

namespace Sys2Proof.Machine

/-! ### Only stores -/

/-- The output stream is as before, or one byte was sent after those before (R58). -/
def OutputGrows (s t : State) : Prop :=
  t.serialOut = s.serialOut ∨
    ∃ sent room b room', s.serialOut = .writer sent room ∧ t.serialOut = .writer (sent ++ [b]) room'

theorem serialStore_outputGrows {s t : State} {b : Byte} (h : serialStore b s = .next t) : OutputGrows s t := by
  unfold serialStore at h
  split at h
  · cases h
    exact .inl rfl
  · next sent hout =>
    cases h
    exact .inr ⟨sent, none, b, none, hout, rfl⟩
  · next sent room hout =>
    cases h
    exact .inr ⟨sent, some (room + 1), b, some room, hout, rfl⟩
  · cases h

theorem busStore_outputGrows {s t : State} {n : Width} {a v : Word} (h : busStore n a v s = .next t) :
    OutputGrows s t := by
  rcases busStore_next h with ⟨_, rfl⟩ | ⟨_, _, rfl⟩ | ⟨_, hserial⟩
  · exact .inl rfl
  · exact .inl rfl
  · exact serialStore_outputGrows hserial

/-- An instruction leaves memory and the output stream as they are, or it is a store. -/
theorem Did.stores {i : Instr} {s t : State} (h : Did i s t) :
    (t.mem = s.mem ∧ t.serialOut = s.serialOut) ∨
      ((i.mnemonic = .sb ∨ i.mnemonic = .sh ∨ i.mnemonic = .sw) ∧ OutputGrows s t) := by
  cases h with
  | compute => exact .inl (by simp)
  | load _ _ _ _ u _ hload =>
    obtain ⟨_, _, rfl⟩ := busLoad_frame hload
    exact .inl (by simp)
  | store _ _ _ u hstore _ hi =>
    have hgrows : OutputGrows s u := busStore_outputGrows hstore
    exact .inr ⟨hi, hgrows⟩
  | csr _ _ _ _ _ u hcsr =>
    obtain ⟨_, _, _, _, _, _, hmem, _, _, hout, _⟩ := csrWrite_next hcsr
    exact .inl (by simp [hmem, hout])
  | trap => exact .inl ⟨rfl, rfl⟩

/-- The step runs a store instruction (R206 to R208). -/
def RunsStore (s : State) : Prop :=
  ∃ w u i, fetch s = .next (w, u) ∧ decode w = .ok i ∧ (i.mnemonic = .sb ∨ i.mnemonic = .sh ∨ i.mnemonic = .sw)

/-- A step leaves memory and the output stream as they are, or it runs a store. -/
theorem step_stores {s t : State} (h : step s = .next t) :
    (t.mem = s.mem ∧ t.serialOut = s.serialOut) ∨ (RunsStore s ∧ OutputGrows s t) := by
  obtain ⟨w, u, hfetch, hrun⟩ := step_did h
  obtain ⟨_, _, rfl⟩ := fetch_frame hfetch
  rcases hrun with ⟨i, hdecode, hdid⟩ | rfl
  · rcases hdid.stores with hsame | ⟨hi, hgrows⟩
    · exact .inl hsame
    · exact .inr ⟨⟨w, _, i, hfetch, hdecode, hi⟩, hgrows⟩
  · exact .inl ⟨rfl, rfl⟩

/-- Settles O55: a step that runs no store leaves memory as it is. -/
theorem onlyStoresChangeRam : Obligations.OnlyStoresChangeRam := by
  intro s t k h hchanged
  rcases step_stores h with ⟨hmem, _⟩ | ⟨hstore, _⟩
  · exact absurd (congrArg (readCell · k) hmem) hchanged
  · exact hstore

/-- Settles O58: a step that runs no store sends nothing, and a store sends at most one byte. -/
theorem serialOutputOnlyGrows : Obligations.SerialOutputOnlyGrows := by
  intro s t h
  rcases step_stores h with ⟨_, hsame⟩ | ⟨hstore, hsame | hgrown⟩
  · exact .inl hsame
  · exact .inl hsame
  · exact .inr ⟨hgrown, hstore⟩

/-! ### Reset -/

theorem board_memoryCanonical (image : List Byte) (input : SerialIn) (output : SerialOut)
    (h : image.length ≤ 0xFFFFFEFE) : MemoryCanonical (State.board image input output) := by
  rw [MemoryCanonical, board_mem image input output h]
  exact Memory.wf_imageCells _ _

theorem boot_cellsInRam (params : Params) (resetPc : Word) (contents : List (List Byte)) (input : SerialIn)
    (output : SerialOut) : CellsInRam (State.boot params resetPc contents input output) := by
  intro c hc
  obtain ⟨_, bank, r, hget, hram, hfrom, hto⟩ := mem_initialCells _ _ _ _ hc
  rw [Nat.zero_add] at hfrom hto
  exact ⟨bank, r, hget, hram, hfrom, hto⟩

theorem boardResetPc_even : Config.boardResetPc.getLsbD 0 = false := by decide

theorem boot_trapCsrsAligned (params : Params) (resetPc : Word) (contents : List (List Byte)) (input : SerialIn)
    (output : SerialOut) : TrapCsrsAligned (State.boot params resetPc contents input output) :=
  ⟨BitVec.getLsbD_zero, BitVec.getLsbD_zero, BitVec.getLsbD_zero⟩

/-- What every step keeps holds on the board with an image that it takes (R76, R280). -/
theorem board_invariants (image : List Byte) (input : SerialIn) (output : SerialOut)
    (h : image.length ≤ 0xFFFFFEFE) :
    MemoryCanonical (State.board image input output) ∧ CellsInRam (State.board image input output) ∧
      PcEven (State.board image input output) ∧ TrapCsrsAligned (State.board image input output) :=
  ⟨board_memoryCanonical image input output h, boot_cellsInRam _ _ _ _ _, boardResetPc_even,
    boot_trapCsrsAligned _ _ _ _ _⟩

/-- Settles O46: `State.reset` is the board with the empty image. -/
theorem invariantsHoldAtReset : Obligations.InvariantsHoldAtReset :=
  ⟨board_invariants [] .noReader (.writer [] none) (Nat.zero_le _), board_invariants⟩

end Sys2Proof.Machine
end

section
/-!
PROOF. The layouts and the rows of the opcode table, field by field (30_encoding.md R81 to R96): a word is put together
from the fields of its layout, and a row's mask and pattern fix a few fields (`Mnemonic.SelectedBy`, tied to the table by
`row_covers_iff`), while its layout reads the operands (`Mnemonic.readInstr`).
-/

namespace Sys2Proof

/-! ### A word put together from the fields of its layout (R81 to R87) -/

theorem encodeR_of_fields {w : Word} {op f7 : BitVec 7} {f3 : BitVec 3} (ho : opcodeField w = op)
    (h3 : funct3Field w = f3) (h7 : funct7Field w = f7) :
    encodeR f7 (rs2Field w) (rs1Field w) f3 (rdField w) op = w := by
  rw [← ho, ← h3, ← h7]
  exact word_eq_encodeR w

/-- The I-type field is the two fields that layout R has in its place. -/
theorem iField_eq_append (w : Word) : iField w = funct7Field w ++ rs2Field w :=
  (extractLsb'_adjacent w 20 5 7).symm

theorem encodeI_of_fields {w : Word} {op : BitVec 7} {f3 : BitVec 3} (ho : opcodeField w = op)
    (h3 : funct3Field w = f3) : encodeI (iField w) (rs1Field w) f3 (rdField w) op = w := by
  rw [iField_eq_append]
  exact encodeR_of_fields ho h3 rfl

theorem encodeS_of_fields {w : Word} {op : BitVec 7} {f3 : BitVec 3} (ho : opcodeField w = op)
    (h3 : funct3Field w = f3) : encodeS (sField w) (rs2Field w) (rs1Field w) f3 op = w := by
  have hhigh : (sField w).extractLsb' 5 7 = funct7Field w := BitVec.extractLsb'_append_eq_left
  have hlow : (sField w).extractLsb' 0 5 = rdField w := BitVec.extractLsb'_append_eq_right
  rw [encodeS, hhigh, hlow]
  exact encodeR_of_fields ho h3 rfl

/-- A field extended downwards by the one next to it. -/
theorem append_extractLsb'_adjacent {n : Nat} {v : BitVec n} (start len : Nat) {len' : Nat} {a : BitVec len'}
    (h : a = v.extractLsb' (start + len) len') : a ++ v.extractLsb' start len = v.extractLsb' start (len' + len) := by
  rw [h, extractLsb'_adjacent]

theorem encodeB_of_fields {w : Word} {op : BitVec 7} {f3 : BitVec 3} (ho : opcodeField w = op)
    (h3 : funct3Field w = f3) : encodeB (bField w) (rs2Field w) (rs1Field w) f3 op = w := by
  have h12 : (bField w).extractLsb' 12 1 = w.extractLsb' 31 1 :=
    (extractLsb'_append_high _ _ 12 1 (by decide)).trans <| (extractLsb'_append_high _ _ 11 1 (by decide)).trans <|
    (extractLsb'_append_high _ _ 7 1 (by decide)).trans <| (extractLsb'_append_high _ _ 1 1 (by decide)).trans <|
    extractLsb'_whole _
  have h5 : (bField w).extractLsb' 5 6 = w.extractLsb' 25 6 :=
    (extractLsb'_append_high _ _ 5 6 (by decide)).trans <| (extractLsb'_append_high _ _ 4 6 (by decide)).trans <|
    (extractLsb'_append_low _ _ 0 6 (by decide)).trans <| extractLsb'_whole _
  have h1 : (bField w).extractLsb' 1 4 = w.extractLsb' 8 4 :=
    (extractLsb'_append_high _ _ 1 4 (by decide)).trans <| (extractLsb'_append_low _ _ 0 4 (by decide)).trans <|
    extractLsb'_whole _
  have h11 : (bField w).extractLsb' 11 1 = w.extractLsb' 7 1 :=
    (extractLsb'_append_high _ _ 11 1 (by decide)).trans <| (extractLsb'_append_high _ _ 10 1 (by decide)).trans <|
    (extractLsb'_append_high _ _ 6 1 (by decide)).trans <| (extractLsb'_append_low _ _ 0 1 (by decide)).trans <|
    extractLsb'_whole _
  rw [encodeB, h12, h5, h1, h11, ← ho, ← h3]
  exact (append_extractLsb'_adjacent 0 7 <| append_extractLsb'_adjacent 7 1 <| append_extractLsb'_adjacent 8 4 <|
    append_extractLsb'_adjacent 12 3 <| append_extractLsb'_adjacent 15 5 <| append_extractLsb'_adjacent 20 5 <|
    append_extractLsb'_adjacent 25 6 rfl).trans (extractLsb'_whole w)

theorem encodeU_of_fields {w : Word} {op : BitVec 7} (ho : opcodeField w = op) :
    encodeU (uField w) (rdField w) op = w := by
  rw [← ho]
  exact (append_extractLsb'_adjacent 0 7 <| append_extractLsb'_adjacent 7 5 rfl).trans (extractLsb'_whole w)

theorem encodeJ_of_fields {w : Word} {op : BitVec 7} (ho : opcodeField w = op) :
    encodeJ (jField w) (rdField w) op = w := by
  have h20 : (jField w).extractLsb' 20 1 = w.extractLsb' 31 1 :=
    (extractLsb'_append_high _ _ 20 1 (by decide)).trans <| (extractLsb'_append_high _ _ 19 1 (by decide)).trans <|
    (extractLsb'_append_high _ _ 9 1 (by decide)).trans <| (extractLsb'_append_high _ _ 8 1 (by decide)).trans <|
    extractLsb'_whole _
  have h1 : (jField w).extractLsb' 1 10 = w.extractLsb' 21 10 :=
    (extractLsb'_append_high _ _ 1 10 (by decide)).trans <| (extractLsb'_append_low _ _ 0 10 (by decide)).trans <|
    extractLsb'_whole _
  have h11 : (jField w).extractLsb' 11 1 = w.extractLsb' 20 1 :=
    (extractLsb'_append_high _ _ 11 1 (by decide)).trans <| (extractLsb'_append_high _ _ 10 1 (by decide)).trans <|
    (extractLsb'_append_low _ _ 0 1 (by decide)).trans <| extractLsb'_whole _
  have h12 : (jField w).extractLsb' 12 8 = w.extractLsb' 12 8 :=
    (extractLsb'_append_high _ _ 12 8 (by decide)).trans <| (extractLsb'_append_high _ _ 11 8 (by decide)).trans <|
    (extractLsb'_append_high _ _ 1 8 (by decide)).trans <| (extractLsb'_append_low _ _ 0 8 (by decide)).trans <|
    extractLsb'_whole _
  rw [encodeJ, h20, h1, h11, h12, ← ho]
  exact (append_extractLsb'_adjacent 0 7 <| append_extractLsb'_adjacent 7 5 <| append_extractLsb'_adjacent 12 8 <|
    append_extractLsb'_adjacent 20 1 <| append_extractLsb'_adjacent 21 10 rfl).trans (extractLsb'_whole w)

/-! ### The rows' fixed bits, field by field -/

theorem and_0x7F (x : BitVec 7) : x &&& 0x7F#7 = x := BitVec.and_allOnes

theorem and_0x1F (x : BitVec 5) : x &&& 0x1F#5 = x := BitVec.and_allOnes

theorem and_7 (x : BitVec 3) : x &&& 7#3 = x := BitVec.and_allOnes

theorem covers_iff_opcode {r : OpcodeRow} {op : BitVec 7}
    (hr : r = ⟨encodeR 0#7 0#5 0#5 0#3 0#5 op, encodeR 0#7 0#5 0#5 0#3 0#5 0x7F#7⟩) (w : Word) :
    r.covers w = true ↔ opcodeField w = op := by
  rw [hr, OpcodeRow.covers_iff]
  simp [and_0x7F]

theorem covers_iff_funct3 {r : OpcodeRow} {f3 : BitVec 3} {op : BitVec 7}
    (hr : r = ⟨encodeR 0#7 0#5 0#5 f3 0#5 op, encodeR 0#7 0#5 0#5 7#3 0#5 0x7F#7⟩) (w : Word) :
    r.covers w = true ↔ funct3Field w = f3 ∧ opcodeField w = op := by
  rw [hr, OpcodeRow.covers_iff]
  simp [and_7, and_0x7F]

theorem covers_iff_funct7 {r : OpcodeRow} {f7 : BitVec 7} {f3 : BitVec 3} {op : BitVec 7}
    (hr : r = ⟨encodeR f7 0#5 0#5 f3 0#5 op, encodeR 0x7F#7 0#5 0#5 7#3 0#5 0x7F#7⟩) (w : Word) :
    r.covers w = true ↔ funct7Field w = f7 ∧ funct3Field w = f3 ∧ opcodeField w = op := by
  rw [hr, OpcodeRow.covers_iff]
  simp [and_7, and_0x7F]

/-- Of w[31:25] the right shift-immediates look at w[30] only (R88). -/
theorem funct7Field_and_0x20 (w : Word) : funct7Field w &&& 0x20#7 = if w.getLsbD 30 then 0x20#7 else 0#7 := by
  have hbit (x : BitVec 7) : x &&& 0x20#7 = if x.getLsbD 5 then 0x20#7 else 0#7 := by revert x; decide
  rw [hbit]
  simp [funct7Field]

theorem covers_iff_bit30 {r : OpcodeRow} {b : Bool} {f3 : BitVec 3} {op : BitVec 7}
    (hr : r = ⟨encodeR (if b then 0x20#7 else 0#7) 0#5 0#5 f3 0#5 op, encodeR 0x20#7 0#5 0#5 7#3 0#5 0x7F#7⟩)
    (w : Word) : r.covers w = true ↔ w.getLsbD 30 = b ∧ funct3Field w = f3 ∧ opcodeField w = op := by
  have hbit : ((if w.getLsbD 30 then 0x20#7 else 0#7) = if b then 0x20#7 else 0#7) ↔ w.getLsbD 30 = b := by
    cases w.getLsbD 30 <;> cases b <;> decide
  rw [hr, OpcodeRow.covers_iff, funct7Field_and_0x20, hbit]
  simp [and_7, and_0x7F]

theorem append_eq_append_iff {m n : Nat} (a a' : BitVec m) (b b' : BitVec n) :
    a ++ b = a' ++ b' ↔ a = a' ∧ b = b' := by
  constructor
  · intro h
    have hleft := congrArg (BitVec.extractLsb' n m) h
    have hright := congrArg (BitVec.extractLsb' 0 n) h
    rw [BitVec.extractLsb'_append_eq_left, BitVec.extractLsb'_append_eq_left] at hleft
    rw [BitVec.extractLsb'_append_eq_right, BitVec.extractLsb'_append_eq_right] at hright
    exact ⟨hleft, hright⟩
  · rintro ⟨rfl, rfl⟩
    rfl

theorem covers_iff_iField {r : OpcodeRow} {a : BitVec 7} {b : Reg} {f3 : BitVec 3} {op : BitVec 7}
    (hr : r = ⟨encodeR a b 0#5 f3 0#5 op, encodeR 0x7F#7 0x1F#5 0#5 7#3 0#5 0x7F#7⟩) (w : Word) :
    r.covers w = true ↔ iField w = a ++ b ∧ funct3Field w = f3 ∧ opcodeField w = op := by
  rw [hr, OpcodeRow.covers_iff, iField_eq_append, append_eq_append_iff]
  simp [and_7, and_0x7F, and_0x1F, and_assoc]

/-- The fields that select a row (R90 to R96), most significant first. -/
def Mnemonic.SelectedBy (w : Word) : Mnemonic → Prop
  | .addi => funct3Field w = 0#3 ∧ opcodeField w = 0b0010011#7
  | .slti => funct3Field w = 2#3 ∧ opcodeField w = 0b0010011#7
  | .sltiu => funct3Field w = 3#3 ∧ opcodeField w = 0b0010011#7
  | .xori => funct3Field w = 4#3 ∧ opcodeField w = 0b0010011#7
  | .ori => funct3Field w = 6#3 ∧ opcodeField w = 0b0010011#7
  | .andi => funct3Field w = 7#3 ∧ opcodeField w = 0b0010011#7
  | .slli => funct3Field w = 1#3 ∧ opcodeField w = 0b0010011#7
  | .srli => w.getLsbD 30 = false ∧ funct3Field w = 5#3 ∧ opcodeField w = 0b0010011#7
  | .srai => w.getLsbD 30 = true ∧ funct3Field w = 5#3 ∧ opcodeField w = 0b0010011#7
  | .add => funct7Field w = 0x00#7 ∧ funct3Field w = 0#3 ∧ opcodeField w = 0b0110011#7
  | .sub => funct7Field w = 0x20#7 ∧ funct3Field w = 0#3 ∧ opcodeField w = 0b0110011#7
  | .sll => funct7Field w = 0x00#7 ∧ funct3Field w = 1#3 ∧ opcodeField w = 0b0110011#7
  | .slt => funct7Field w = 0x00#7 ∧ funct3Field w = 2#3 ∧ opcodeField w = 0b0110011#7
  | .sltu => funct7Field w = 0x00#7 ∧ funct3Field w = 3#3 ∧ opcodeField w = 0b0110011#7
  | .xor => funct7Field w = 0x00#7 ∧ funct3Field w = 4#3 ∧ opcodeField w = 0b0110011#7
  | .srl => funct7Field w = 0x00#7 ∧ funct3Field w = 5#3 ∧ opcodeField w = 0b0110011#7
  | .sra => funct7Field w = 0x20#7 ∧ funct3Field w = 5#3 ∧ opcodeField w = 0b0110011#7
  | .or => funct7Field w = 0x00#7 ∧ funct3Field w = 6#3 ∧ opcodeField w = 0b0110011#7
  | .and => funct7Field w = 0x00#7 ∧ funct3Field w = 7#3 ∧ opcodeField w = 0b0110011#7
  | .lui => opcodeField w = 0b0110111#7
  | .auipc => opcodeField w = 0b0010111#7
  | .jal => opcodeField w = 0b1101111#7
  | .jalr => funct3Field w = 0#3 ∧ opcodeField w = 0b1100111#7
  | .beq => funct3Field w = 0#3 ∧ opcodeField w = 0b1100011#7
  | .bne => funct3Field w = 1#3 ∧ opcodeField w = 0b1100011#7
  | .blt => funct3Field w = 4#3 ∧ opcodeField w = 0b1100011#7
  | .bge => funct3Field w = 5#3 ∧ opcodeField w = 0b1100011#7
  | .bltu => funct3Field w = 6#3 ∧ opcodeField w = 0b1100011#7
  | .bgeu => funct3Field w = 7#3 ∧ opcodeField w = 0b1100011#7
  | .lb => funct3Field w = 0#3 ∧ opcodeField w = 0b0000011#7
  | .lh => funct3Field w = 1#3 ∧ opcodeField w = 0b0000011#7
  | .lw => funct3Field w = 2#3 ∧ opcodeField w = 0b0000011#7
  | .lbu => funct3Field w = 4#3 ∧ opcodeField w = 0b0000011#7
  | .lhu => funct3Field w = 5#3 ∧ opcodeField w = 0b0000011#7
  | .sb => funct3Field w = 0#3 ∧ opcodeField w = 0b0100011#7
  | .sh => funct3Field w = 1#3 ∧ opcodeField w = 0b0100011#7
  | .sw => funct3Field w = 2#3 ∧ opcodeField w = 0b0100011#7
  | .ecall => iField w = 0#12 ∧ funct3Field w = 0#3 ∧ opcodeField w = 0b1110011#7
  | .ebreak => iField w = 1#12 ∧ funct3Field w = 0#3 ∧ opcodeField w = 0b1110011#7
  | .csrrw => funct3Field w = 1#3 ∧ opcodeField w = 0b1110011#7
  | .csrrs => funct3Field w = 2#3 ∧ opcodeField w = 0b1110011#7
  | .csrrc => funct3Field w = 3#3 ∧ opcodeField w = 0b1110011#7

/-- The instruction that a row's layout reads from a word (R83 to R89). -/
def Mnemonic.readInstr (w : Word) : Mnemonic → Instr
  | .addi => .addi (rdField w) (rs1Field w) (iField w)
  | .slti => .slti (rdField w) (rs1Field w) (iField w)
  | .sltiu => .sltiu (rdField w) (rs1Field w) (iField w)
  | .xori => .xori (rdField w) (rs1Field w) (iField w)
  | .ori => .ori (rdField w) (rs1Field w) (iField w)
  | .andi => .andi (rdField w) (rs1Field w) (iField w)
  | .slli => .slli (rdField w) (rs1Field w) (rs2Field w)
  | .srli => .srli (rdField w) (rs1Field w) (rs2Field w)
  | .srai => .srai (rdField w) (rs1Field w) (rs2Field w)
  | .add => .add (rdField w) (rs1Field w) (rs2Field w)
  | .sub => .sub (rdField w) (rs1Field w) (rs2Field w)
  | .sll => .sll (rdField w) (rs1Field w) (rs2Field w)
  | .slt => .slt (rdField w) (rs1Field w) (rs2Field w)
  | .sltu => .sltu (rdField w) (rs1Field w) (rs2Field w)
  | .xor => .xor (rdField w) (rs1Field w) (rs2Field w)
  | .srl => .srl (rdField w) (rs1Field w) (rs2Field w)
  | .sra => .sra (rdField w) (rs1Field w) (rs2Field w)
  | .or => .or (rdField w) (rs1Field w) (rs2Field w)
  | .and => .and (rdField w) (rs1Field w) (rs2Field w)
  | .lui => .lui (rdField w) (uField w)
  | .auipc => .auipc (rdField w) (uField w)
  | .jal => .jal (rdField w) (jField w)
  | .jalr => .jalr (rdField w) (rs1Field w) (iField w)
  | .beq => .beq (rs1Field w) (rs2Field w) (bField w)
  | .bne => .bne (rs1Field w) (rs2Field w) (bField w)
  | .blt => .blt (rs1Field w) (rs2Field w) (bField w)
  | .bge => .bge (rs1Field w) (rs2Field w) (bField w)
  | .bltu => .bltu (rs1Field w) (rs2Field w) (bField w)
  | .bgeu => .bgeu (rs1Field w) (rs2Field w) (bField w)
  | .lb => .lb (rdField w) (rs1Field w) (iField w)
  | .lh => .lh (rdField w) (rs1Field w) (iField w)
  | .lw => .lw (rdField w) (rs1Field w) (iField w)
  | .lbu => .lbu (rdField w) (rs1Field w) (iField w)
  | .lhu => .lhu (rdField w) (rs1Field w) (iField w)
  | .sb => .sb (rs1Field w) (rs2Field w) (sField w)
  | .sh => .sh (rs1Field w) (rs2Field w) (sField w)
  | .sw => .sw (rs1Field w) (rs2Field w) (sField w)
  | .ecall => .ecall
  | .ebreak => .ebreak
  | .csrrw => .csrrw (rdField w) (iField w) (rs1Field w)
  | .csrrs => .csrrs (rdField w) (iField w) (rs1Field w)
  | .csrrc => .csrrc (rdField w) (iField w) (rs1Field w)

@[simp] theorem mnemonic_readInstr (w : Word) (m : Mnemonic) : (m.readInstr w).mnemonic = m := by
  cases m <;> rfl

/-- A row's mask and pattern fix the fields that select it. -/
theorem row_covers_iff (m : Mnemonic) (w : Word) : m.row.covers w = true ↔ m.SelectedBy w := by
  cases m with
  | lui | auipc | jal => exact covers_iff_opcode (by decide) w
  | addi | slti | sltiu | xori | ori | andi | slli | jalr | beq | bne | blt | bge | bltu | bgeu | lb | lh | lw | lbu | lhu
  | sb | sh | sw | csrrw | csrrs | csrrc => exact covers_iff_funct3 (by decide) w
  | add | sub | sll | slt | sltu | xor | srl | sra | or | and => exact covers_iff_funct7 (by decide) w
  | srli => exact covers_iff_bit30 (b := false) (by decide) w
  | srai => exact covers_iff_bit30 (b := true) (by decide) w
  | ecall => exact covers_iff_iField (a := 0#7) (b := 0#5) (by decide) w
  | ebreak => exact covers_iff_iField (a := 0#7) (b := 1#5) (by decide) w

end Sys2Proof
end

section
/-!
PROOF. The decoder is the opcode table (30_encoding.md R101): a word decodes to an instruction exactly when a row has the
word and its layout reads the instruction (`decode_eq_ok_iff`). What decodes is then well-formed, an encoded instruction
decodes to itself, and a decoded word is its instruction's encoding.
-/

namespace Sys2Proof

/-! ### The decoder answers what the rows say -/

/-- A word of a row decodes to what the row's layout reads from it. -/
theorem decode_of_selectedBy {w : Word} {m : Mnemonic} (h : m.SelectedBy w) : decode w = .ok (m.readInstr w) := by
  cases m with
  | lui | auipc | jal =>
    have hop : opcodeField w = _ := h
    simp [decode, hop, Mnemonic.readInstr]
  | addi | slti | sltiu | xori | ori | andi | slli =>
    obtain ⟨h3, hop⟩ := h
    simp [decode, decodeOpImm, h3, hop, Mnemonic.readInstr]
  | srli | srai =>
    obtain ⟨h30, h3, hop⟩ := h
    simpa [decode, decodeOpImm, h3, hop, Mnemonic.readInstr] using h30
  | add | sub | sll | slt | sltu | xor | srl | sra | or | and =>
    obtain ⟨h7, h3, hop⟩ := h
    simp [decode, decodeOp, h7, h3, hop, Mnemonic.readInstr]
  | jalr =>
    obtain ⟨h3, hop⟩ := h
    simp [decode, h3, hop, Mnemonic.readInstr]
  | beq | bne | blt | bge | bltu | bgeu =>
    obtain ⟨h3, hop⟩ := h
    simp [decode, decodeBranch, h3, hop, Mnemonic.readInstr]
  | lb | lh | lw | lbu | lhu =>
    obtain ⟨h3, hop⟩ := h
    simp [decode, decodeLoad, h3, hop, Mnemonic.readInstr]
  | sb | sh | sw =>
    obtain ⟨h3, hop⟩ := h
    simp [decode, decodeStore, h3, hop, Mnemonic.readInstr]
  | ecall | ebreak =>
    obtain ⟨hi, h3, hop⟩ := h
    simp [decode, decodeSystem, hi, h3, hop, Mnemonic.readInstr]
  | csrrw | csrrs | csrrc =>
    obtain ⟨h3, hop⟩ := h
    simp [decode, decodeSystem, h3, hop, Mnemonic.readInstr]

/-- The instruction is what its own row's layout reads from a word of that row. -/
def ReadByRow (w : Word) (i : Instr) : Prop := i.mnemonic.SelectedBy w ∧ i = i.mnemonic.readInstr w

theorem funct3_eq_or (f3 : BitVec 3) :
    f3 = 0#3 ∨ f3 = 1#3 ∨ f3 = 2#3 ∨ f3 = 3#3 ∨ f3 = 4#3 ∨ f3 = 5#3 ∨ f3 = 6#3 ∨ f3 = 7#3 := by
  revert f3; decide

theorem decodeOpImm_readByRow {w : Word} {i : Instr} (hop : opcodeField w = 0b0010011#7)
    (h : decodeOpImm w = .ok i) : ReadByRow w i := by
  have h5 := funct3_eq_or (funct3Field w)
  unfold decodeOpImm at h
  split_ifs at h with h0 h2 h3 h4 h6 h7 h1 h30 <;> cases h
  · exact ⟨⟨h0, hop⟩, rfl⟩
  · exact ⟨⟨h2, hop⟩, rfl⟩
  · exact ⟨⟨h3, hop⟩, rfl⟩
  · exact ⟨⟨h4, hop⟩, rfl⟩
  · exact ⟨⟨h6, hop⟩, rfl⟩
  · exact ⟨⟨h7, hop⟩, rfl⟩
  · exact ⟨⟨h1, hop⟩, rfl⟩
  · exact ⟨⟨h30, by tauto, hop⟩, rfl⟩
  · exact ⟨⟨by simpa using h30, by tauto, hop⟩, rfl⟩

theorem decodeOp_readByRow {w : Word} {i : Instr} (hop : opcodeField w = 0b0110011#7)
    (h : decodeOp w = .ok i) : ReadByRow w i := by
  have hlast := funct3_eq_or (funct3Field w)
  unfold decodeOp at h
  split_ifs at h with h7 h0 h1 h2 h3 h4 h5 h6 h20 h0 h5 <;> cases h
  · exact ⟨⟨h7, h0, hop⟩, rfl⟩
  · exact ⟨⟨h7, h1, hop⟩, rfl⟩
  · exact ⟨⟨h7, h2, hop⟩, rfl⟩
  · exact ⟨⟨h7, h3, hop⟩, rfl⟩
  · exact ⟨⟨h7, h4, hop⟩, rfl⟩
  · exact ⟨⟨h7, h5, hop⟩, rfl⟩
  · exact ⟨⟨h7, h6, hop⟩, rfl⟩
  · exact ⟨⟨h7, by tauto, hop⟩, rfl⟩
  · exact ⟨⟨h20, h0, hop⟩, rfl⟩
  · exact ⟨⟨h20, h5, hop⟩, rfl⟩

theorem decodeBranch_readByRow {w : Word} {i : Instr} (hop : opcodeField w = 0b1100011#7)
    (h : decodeBranch w = .ok i) : ReadByRow w i := by
  unfold decodeBranch at h
  split_ifs at h with h3 h3 h3 h3 h3 h3 <;> cases h <;> exact ⟨⟨h3, hop⟩, rfl⟩

theorem decodeLoad_readByRow {w : Word} {i : Instr} (hop : opcodeField w = 0b0000011#7)
    (h : decodeLoad w = .ok i) : ReadByRow w i := by
  unfold decodeLoad at h
  split_ifs at h with h3 h3 h3 h3 h3 <;> cases h <;> exact ⟨⟨h3, hop⟩, rfl⟩

theorem decodeStore_readByRow {w : Word} {i : Instr} (hop : opcodeField w = 0b0100011#7)
    (h : decodeStore w = .ok i) : ReadByRow w i := by
  unfold decodeStore at h
  split_ifs at h with h3 h3 h3 <;> cases h <;> exact ⟨⟨h3, hop⟩, rfl⟩

theorem decodeSystem_readByRow {w : Word} {i : Instr} (hop : opcodeField w = 0b1110011#7)
    (h : decodeSystem w = .ok i) : ReadByRow w i := by
  unfold decodeSystem at h
  split_ifs at h with h0 hi hi h3 h3 h3 <;> cases h
  · exact ⟨⟨hi, h0, hop⟩, rfl⟩
  · exact ⟨⟨hi, h0, hop⟩, rfl⟩
  · exact ⟨⟨h3, hop⟩, rfl⟩
  · exact ⟨⟨h3, hop⟩, rfl⟩
  · exact ⟨⟨h3, hop⟩, rfl⟩

/-- What the decoder gives is read by its row, by major opcode (R90). -/
theorem readByRow_of_decode {w : Word} {i : Instr} (h : decode w = .ok i) : ReadByRow w i := by
  unfold decode at h
  split_ifs at h with hop hop hop hop hop hop h3 hop hop hop hop
  · exact decodeOpImm_readByRow hop h
  · exact decodeOp_readByRow hop h
  · cases h; exact ⟨hop, rfl⟩
  · cases h; exact ⟨hop, rfl⟩
  · cases h; exact ⟨hop, rfl⟩
  · cases h; exact ⟨⟨h3, hop⟩, rfl⟩
  · exact decodeBranch_readByRow hop h
  · exact decodeLoad_readByRow hop h
  · exact decodeStore_readByRow hop h
  · exact decodeSystem_readByRow hop h

/-- The decoder is the table (R101). -/
theorem decode_eq_ok_iff (w : Word) (i : Instr) : decode w = .ok i ↔ ReadByRow w i := by
  refine ⟨readByRow_of_decode, fun ⟨hsel, hread⟩ => ?_⟩
  rw [hread]
  exact decode_of_selectedBy hsel

/-- Settles O3: a word of a row decodes by that row, and what decodes is read by its row. -/
theorem tableRowIffDecodes : Obligations.TableRowIffDecodes := by
  intro w m
  rw [row_covers_iff]
  constructor
  · intro h
    exact ⟨m.readInstr w, decode_of_selectedBy h, mnemonic_readInstr w m⟩
  · rintro ⟨i, hdecode, rfl⟩
    exact (readByRow_of_decode hdecode).1

/-- Settles O4, by major opcode (R90). -/
theorem decodedIsWellFormed : Obligations.DecodedIsWellFormed := fun _ _ h => decode_wf h

/-! ### Encode, then decode -/

/-- An instruction's word is a word of its row. -/
theorem covers_encode (i : Instr) : i.mnemonic.row.covers (encode i) = true := by
  cases i with
  | addi => exact Laws.EncodingInTable.addi _ _ _
  | slti => exact Laws.EncodingInTable.slti _ _ _
  | sltiu => exact Laws.EncodingInTable.sltiu _ _ _
  | xori => exact Laws.EncodingInTable.xori _ _ _
  | ori => exact Laws.EncodingInTable.ori _ _ _
  | andi => exact Laws.EncodingInTable.andi _ _ _
  | slli => exact Laws.EncodingInTable.slli _ _ _
  | srli => exact Laws.EncodingInTable.srli _ _ _
  | srai => exact Laws.EncodingInTable.srai _ _ _
  | add => exact Laws.EncodingInTable.add _ _ _
  | sub => exact Laws.EncodingInTable.sub _ _ _
  | sll => exact Laws.EncodingInTable.sll _ _ _
  | slt => exact Laws.EncodingInTable.slt _ _ _
  | sltu => exact Laws.EncodingInTable.sltu _ _ _
  | xor => exact Laws.EncodingInTable.xor _ _ _
  | srl => exact Laws.EncodingInTable.srl _ _ _
  | sra => exact Laws.EncodingInTable.sra _ _ _
  | or => exact Laws.EncodingInTable.or _ _ _
  | and => exact Laws.EncodingInTable.and _ _ _
  | lui => exact Laws.EncodingInTable.lui _ _
  | auipc => exact Laws.EncodingInTable.auipc _ _
  | jal => exact Laws.EncodingInTable.jal _ _
  | jalr => exact Laws.EncodingInTable.jalr _ _ _
  | beq => exact Laws.EncodingInTable.beq _ _ _
  | bne => exact Laws.EncodingInTable.bne _ _ _
  | blt => exact Laws.EncodingInTable.blt _ _ _
  | bge => exact Laws.EncodingInTable.bge _ _ _
  | bltu => exact Laws.EncodingInTable.bltu _ _ _
  | bgeu => exact Laws.EncodingInTable.bgeu _ _ _
  | lb => exact Laws.EncodingInTable.lb _ _ _
  | lh => exact Laws.EncodingInTable.lh _ _ _
  | lw => exact Laws.EncodingInTable.lw _ _ _
  | lbu => exact Laws.EncodingInTable.lbu _ _ _
  | lhu => exact Laws.EncodingInTable.lhu _ _ _
  | sb => exact Laws.EncodingInTable.sb _ _ _
  | sh => exact Laws.EncodingInTable.sh _ _ _
  | sw => exact Laws.EncodingInTable.sw _ _ _
  | ecall => exact Laws.EncodingInTable.ecall
  | ebreak => exact Laws.EncodingInTable.ebreak
  | csrrw => exact Laws.EncodingInTable.csrrw _ _ _
  | csrrs => exact Laws.EncodingInTable.csrrs _ _ _
  | csrrc => exact Laws.EncodingInTable.csrrc _ _ _

/-- A row's layout reads back the operands of a well-formed instruction; only the displacements need to be even
(R85, R87). -/
theorem readInstr_encode {i : Instr} (hwf : i.wf = true) : i.mnemonic.readInstr (encode i) = i := by
  cases i with
  | beq _ _ offset | bne _ _ offset | blt _ _ offset | bge _ _ offset | bltu _ _ offset | bgeu _ _ offset =>
    have heven : evenOffset offset = true := hwf
    simp [Instr.mnemonic, Mnemonic.readInstr, encode, bField_encodeB _ _ _ _ _ heven]
  | jal _ offset =>
    have heven : evenOffset offset = true := hwf
    simp [Instr.mnemonic, Mnemonic.readInstr, encode, jField_encodeJ _ _ _ heven]
  | _ => simp [Instr.mnemonic, Mnemonic.readInstr, encode]

theorem decode_encode {i : Instr} (hwf : i.wf = true) : decode (encode i) = .ok i := by
  rw [decode_eq_ok_iff]
  exact ⟨(row_covers_iff _ _).mp (covers_encode i), (readInstr_encode hwf).symm⟩

@[simp] theorem wordOfBytes_bytesOfWord (w : Word) :
    wordOfBytes (w.extractLsb' 0 8) (w.extractLsb' 8 8) (w.extractLsb' 16 8) (w.extractLsb' 24 8) = w :=
  (append_extractLsb'_adjacent 0 8 <| append_extractLsb'_adjacent 8 8 <|
    append_extractLsb'_adjacent 16 8 rfl).trans (extractLsb'_whole w)

/-- The first four bytes decode as the word laid out in them (R63, R80). -/
theorem decodeBytes_bytesOfWord {w : Word} {i : Instr} (h : decode w = .ok i) (rest : List Byte) :
    decodeBytes (bytesOfWord w ++ rest) = .ok (i, rest) := by
  simp [bytesOfWord, decodeBytes, h]

/-- Settles O1: the instruction's word is of its row, whose layout reads the operands back. -/
theorem decodeInvertsEncode : Obligations.DecodeInvertsEncode := by
  intro i hwf rest
  exact ⟨decode_encode hwf, decodeBytes_bytesOfWord (decode_encode hwf) rest⟩

/-! ### Decode, then encode -/

/-- Where the encoding ignores no bit, a word of a row is the encoding of what its layout reads from it. -/
theorem encode_readInstr {w : Word} {m : Mnemonic} (h : m.SelectedBy w)
    (hshift : ¬ (opcodeField w = 0b0010011#7 ∧ (funct3Field w = 1#3 ∨ funct3Field w = 5#3)))
    (hecall : m ≠ .ecall) (hebreak : m ≠ .ebreak) : encode (m.readInstr w) = w := by
  cases m with
  | lui | auipc => exact encodeU_of_fields h
  | jal => exact encodeJ_of_fields h
  | addi | slti | sltiu | xori | ori | andi | jalr | lb | lh | lw | lbu | lhu | csrrw | csrrs | csrrc =>
    obtain ⟨h3, hop⟩ := h
    exact encodeI_of_fields hop h3
  | slli =>
    obtain ⟨h3, hop⟩ := h
    exact absurd ⟨hop, .inl h3⟩ hshift
  | srli | srai =>
    obtain ⟨_, h3, hop⟩ := h
    exact absurd ⟨hop, .inr h3⟩ hshift
  | add | sub | sll | slt | sltu | xor | srl | sra | or | and =>
    obtain ⟨h7, h3, hop⟩ := h
    exact encodeR_of_fields hop h3 h7
  | beq | bne | blt | bge | bltu | bgeu =>
    obtain ⟨h3, hop⟩ := h
    exact encodeB_of_fields hop h3
  | sb | sh | sw =>
    obtain ⟨h3, hop⟩ := h
    exact encodeS_of_fields hop h3
  | ecall => exact absurd rfl hecall
  | ebreak => exact absurd rfl hebreak

/-- Settles O2: a decoded word is a word of its instruction's row, and its layout loses no bit of it. -/
theorem encodeInvertsDecode : Obligations.EncodeInvertsDecode := by
  intro w i hdecode hshift hecall hebreak
  obtain ⟨hsel, hread⟩ := readByRow_of_decode hdecode
  rw [hread] at hecall hebreak ⊢
  exact encode_readInstr hsel hshift (fun hm => hecall (by rw [hm]; rfl)) (fun hm => hebreak (by rw [hm]; rfl))

end Sys2Proof
end

section
/-!
PROOF. Each bit of the five immediates (30_encoding.md R83 to R87): the bits of the field, and above them its top bit.
-/

namespace Sys2Proof

theorem getLsbD_iField (w : Word) {j : Nat} (hj : j < 12) : (iField w).getLsbD j = w.getLsbD (j + 20) := by
  simp [iField, hj, Nat.add_comm]

theorem getLsbD_sField (w : Word) {j : Nat} (hj : j < 12) :
    (sField w).getLsbD j = if j ≤ 4 then w.getLsbD (j + 7) else w.getLsbD (j + 20) := by
  simp only [sField, BitVec.getLsbD_append, BitVec.getLsbD_extractLsb']
  grind

theorem getLsbD_bField (w : Word) {j : Nat} (hj : j < 13) :
    (bField w).getLsbD j =
      if j = 0 then false else if j ≤ 4 then w.getLsbD (j + 7) else if j ≤ 10 then w.getLsbD (j + 20)
      else if j = 11 then w.getLsbD 7 else w.getLsbD 31 := by
  simp only [bField, BitVec.getLsbD_append, BitVec.getLsbD_extractLsb']
  grind

theorem getLsbD_jField (w : Word) {j : Nat} (hj : j < 21) :
    (jField w).getLsbD j =
      if j = 0 then false else if j ≤ 10 then w.getLsbD (j + 20) else if j = 11 then w.getLsbD 20
      else if j ≤ 19 then w.getLsbD j else w.getLsbD 31 := by
  simp only [jField, BitVec.getLsbD_append, BitVec.getLsbD_extractLsb']
  grind

theorem getLsbD_upperImmediate_uField (w : Word) {j : Nat} (hj : j < 32) :
    (Machine.upperImmediate (uField w)).getLsbD j = if j ≤ 11 then false else w.getLsbD j := by
  simp only [Machine.upperImmediate, uField, BitVec.getLsbD_append, BitVec.getLsbD_extractLsb']
  grind

/-- A sign-extended value repeats its top bit. -/
theorem getLsbD_signExtend_eq_min {n : Nat} (a : BitVec (n + 1)) {j : Nat} (hj : j < 32) :
    (a.signExtend 32).getLsbD j = a.getLsbD (min j n) := by
  rw [BitVec.getLsbD_signExtend, BitVec.msb_eq_getLsbD_last, decide_eq_true hj, Bool.true_and]
  split
  · rw [Nat.min_eq_left (by omega)]
  · rw [Nat.min_eq_right (by omega), Nat.add_sub_cancel]

/-- Settles O5: a bit of the field below its width, and its top bit from there on. -/
theorem immediateFieldsAssemble : Obligations.ImmediateFieldsAssemble := by
  intro w j hj
  refine ⟨?_, ?_, ?_, getLsbD_upperImmediate_uField w hj, ?_⟩
  · rw [Machine.imm12, getLsbD_signExtend_eq_min _ hj, getLsbD_iField w (by omega)]
    grind
  · rw [Machine.imm12, getLsbD_signExtend_eq_min _ hj, getLsbD_sField w (by omega)]
    grind
  · rw [Machine.displacement, getLsbD_signExtend_eq_min _ hj, getLsbD_bField w (by omega)]
    grind
  · rw [Machine.displacement, getLsbD_signExtend_eq_min _ hj, getLsbD_jField w (by omega)]
    grind

end Sys2Proof
end

section
/-!
PROOF. The words that are no instruction trap (30_encoding.md R90, R98), and the spec's example words.
-/

namespace Sys2Proof.Machine

/-- A word that does not decode is of no row (R101). -/
theorem not_covers_of_decode_error {w : Word} {e : Illegal} (h : decode w = .error e) (m : Mnemonic) :
    m.row.covers w = false := by
  rw [Bool.eq_false_iff]
  intro hcovers
  obtain ⟨i, hdecode, _⟩ := (tableRowIffDecodes w m).mp hcovers
  rw [h] at hdecode
  cases hdecode

/-- A word of no row does not decode (R101). -/
theorem decode_error_of_not_covers {w : Word} (h : ∀ m : Mnemonic, m.row.covers w = false) :
    ∃ e, decode w = .error e := by
  cases hdecode : decode w with
  | error e => exact ⟨e, rfl⟩
  | ok i =>
    have hcovers := (tableRowIffDecodes w i.mnemonic).mpr ⟨i, hdecode, rfl⟩
    rw [h] at hcovers
    cases hcovers

/-- The major opcodes are the ten of R90. -/
theorem decode_of_unlisted_opcode {w : Word}
    (h : opcodeField w ∉ [0b0010011#7, 0b0110011#7, 0b0110111#7, 0b0010111#7, 0b1101111#7, 0b1100111#7, 0b1100011#7,
      0b0000011#7, 0b0100011#7, 0b1110011#7]) : decode w = .error .opcode := by
  simp only [List.mem_cons, List.not_mem_nil, or_false, not_or] at h
  simp [decode, h]

theorem decode_allOnes : decode 0xFFFFFFFF#32 = .error .opcode := by decide

/-- Settles O8: a word of no row does not decode, and a fetched word that does not decode traps. -/
theorem illegalWordTraps : Obligations.IllegalWordTraps := by
  refine ⟨fun s w hs hw hrows => ?_, fun w hop => not_covers_of_decode_error (decode_of_unlisted_opcode hop),
    fun m => ⟨not_covers_of_decode_error decode_zero m, not_covers_of_decode_error decode_allOnes m⟩⟩
  obtain ⟨e, hdecode⟩ := decode_error_of_not_covers hrows
  exact step_traps_of_decode_error hs (fetch_of_wordAtPc hw) hdecode

/-- Settles O6, word by word. -/
theorem sampleWordsDecode : Obligations.SampleWordsDecode := by
  unfold Obligations.SampleWordsDecode
  decide

end Sys2Proof.Machine
end

section
/-!
PROOF. Which state has no step (40_step.md R111, 70_reset_and_hazards.md R293), and that only a load or a store can leave
an instruction without a next state (40_step.md R116, R119).
-/

namespace Sys2Proof.Machine

/-! ### The halted core -/

/-- A fetch stops at the end of RAM or at the serial port, and the halt latch is no part of it (R112). -/
theorem fetch_ne_fault_halted (s : State) : fetch s ≠ .fault .halted := by
  intro h
  rcases busLoad_fault h with ⟨hr, _⟩ | ⟨hr, _⟩ <;> cases hr

/-- No instruction stops because the core is halted: one that stops does so in its bus access. -/
theorem exec_ne_fault_halted (i : Instr) (s : State) : exec i s ≠ .fault .halted := by
  intro h
  obtain ⟨_, _, ⟨hr, _⟩ | ⟨hr, _⟩ | ⟨hr, _⟩⟩ := exec_fault h <;> cases hr

/-- A step looks at the configuration first, so one that stops was not refused (R52, log entry 9). -/
theorem busOk_of_step_fault {s : State} {r : Fault} (h : step s = .fault r) : busOk s.params.bus = true := by
  rw [← Bool.not_eq_false]
  intro hbad
  rw [(step_eq_refused_iff s .configuration).mpr ⟨rfl, hbad⟩] at h
  cases h

/-- Settles O11: a step that answers starts with the latch clear, and neither the fetch nor an instruction answers the
fault `halted`. -/
theorem haltedCoreHasNoStep : Obligations.HaltedCoreHasNoStep := by
  refine fun s => ⟨fun hhalted t h => ?_, fun h => ⟨busOk_of_step_fault h, ?_⟩, fun ⟨hbus, hhalted⟩ =>
    step_of_halted hbus hhalted⟩
  · obtain ⟨_, hrunning, _⟩ := step_next h
    rw [hhalted] at hrunning
    cases hrunning
  · rcases step_fault h with ⟨_, hhalted⟩ | hfetch | ⟨_, u, i, _, _, hexec⟩
    · exact hhalted
    · exact absurd hfetch (fetch_ne_fault_halted s)
    · exact absurd hexec (exec_ne_fault_halted i u)

/-! ### The instructions that always answer -/

/-- The loads and stores (R200). -/
def memoryMnemonics : List Mnemonic := [.lb, .lh, .lw, .lbu, .lhu, .sb, .sh, .sw]

theorem LoadsAt.mnemonic_mem {i : Instr} {s : State} {a : Word} {n : Nat} (h : LoadsAt i s a n) :
    i.mnemonic ∈ memoryMnemonics := by
  obtain ⟨rd, rs1, imm, _, hi⟩ := h
  simp only [List.mem_cons, List.not_mem_nil, or_false, Prod.mk.injEq] at hi
  rcases hi with ⟨rfl, _⟩ | ⟨rfl, _⟩ | ⟨rfl, _⟩ | ⟨rfl, _⟩ | ⟨rfl, _⟩ <;> simp [memoryMnemonics, Instr.mnemonic]

theorem StoresAt.mnemonic_mem {i : Instr} {s : State} {a : Word} {n : Nat} (h : StoresAt i s a n) :
    i.mnemonic ∈ memoryMnemonics := by
  obtain ⟨rs1, rs2, imm, _, hi⟩ := h
  simp only [List.mem_cons, List.not_mem_nil, or_false, Prod.mk.injEq] at hi
  rcases hi with ⟨rfl, _⟩ | ⟨rfl, _⟩ | ⟨rfl, _⟩ <;> simp [memoryMnemonics, Instr.mnemonic]

/-- Only the loads and stores have an access that can stop (R119, R293). -/
theorem AccessStops.mnemonic_mem {i : Instr} {s : State} {r : Fault} (h : AccessStops i s r) :
    i.mnemonic ∈ memoryMnemonics := by
  obtain ⟨_, _, ⟨_, hload | hstore, _⟩ | ⟨_, hload, _⟩ | ⟨_, hstore, _⟩⟩ := h
  exacts [hload.mnemonic_mem, hstore.mnemonic_mem, hload.mnemonic_mem, hstore.mnemonic_mem]

/-- Settles O14: no instruction is refused, and one that stops is a load or a store. -/
theorem nonMemoryInstructionsComplete : Obligations.NonMemoryInstructionsComplete := by
  intro i s hi
  cases h : exec i s with
  | next t => exact ⟨t, rfl⟩
  | fault r => exact absurd (exec_fault h).mnemonic_mem hi
  | refused r => exact absurd h (exec_not_refused i s r)

/-! ### The serial access that is not answered -/

theorem InputUnanswered.serialLoad_eq {s : State} (h : InputUnanswered s) :
    serialLoad s = .fault .awaitingSerialInput := by
  rw [InputUnanswered] at h
  simp only [serialLoad, h]

theorem OutputUnanswered.serialStore_eq {s : State} (h : OutputUnanswered s) (b : Byte) :
    serialStore b s = .fault .awaitingSerialOutput := by
  obtain ⟨sent, hout⟩ := h
  simp only [serialStore, hout]

theorem InputUnanswered.busLoad_eq {s : State} {a : Word} (h : InputUnanswered s) (n : Width) (ha : AtSerial s a) :
    busLoad n a s = .fault .awaitingSerialInput := by
  rw [busLoad_serial n ha, h.serialLoad_eq, andThen_fault]

theorem OutputUnanswered.busStore_eq {s : State} {a : Word} (h : OutputUnanswered s) (n : Width) (v : Word)
    (ha : AtSerial s a) : busStore n a v s = .fault .awaitingSerialOutput :=
  (busStore_serial n v ha).trans (h.serialStore_eq _)

/-- Settles O34: the bus access of each stops whatever its width, and so does what contains it. -/
theorem unansweredSerialAccessStops : Obligations.UnansweredSerialAccessStops := by
  refine ⟨fun s hs ha hin => ?_, fun s rd rs1 imm ha hin i hi => ?_, fun s rs1 rs2 imm ha hout i hi => ?_⟩
  · rw [step_eq hs.1 hs.2, fetch, hin.busLoad_eq .word ha, andThen_fault]
  · obtain ⟨q, hq, rfl⟩ : ∃ q ∈ loadForms rd rs1 imm, q.1 = i := List.mem_map.mp hi
    rw [exec_loadForm hq, loadAndRetire, hin.busLoad_eq q.2.1 ha, andThen_fault]
  · obtain ⟨q, hq, rfl⟩ : ∃ q ∈ storeForms rs1 rs2 imm, q.1 = i := List.mem_map.mp hi
    rw [exec_storeForm hq, storeAndRetire, hout.busStore_eq q.2 _ ha, andThen_fault]

end Sys2Proof.Machine
end

section
/-!
PROOF. The fetched instruction and the run (40_step.md R112, R114, R121): a step runs what decodes at the pc, and
`execute` stops at the first halted state of the run.
-/

namespace Sys2Proof.Machine

/-! ### The instruction at the pc -/

theorem decode_of_decodeBytes {b0 b1 b2 b3 : Byte} {i : Instr} {rest rest' : List Byte}
    (h : decodeBytes (b0 :: b1 :: b2 :: b3 :: rest) = .ok (i, rest')) : decode (wordOfBytes b0 b1 b2 b3) = .ok i := by
  cases hdecode : decode (wordOfBytes b0 b1 b2 b3) with
  | ok j =>
    simp only [decodeBytes, hdecode] at h
    cases h
    rfl
  | error e => simp [decodeBytes, hdecode] at h

/-- Settles O7: the bytes at the pc are the fetched word, and it decodes to the instruction. -/
theorem stepRunsInstructionAtPc : Obligations.StepRunsInstructionAtPc := by
  intro s k i hs hram hbytes
  exact step_eq_exec hs (fetch_of_wordAtPc ⟨k, hram, rfl⟩) (decode_of_decodeBytes hbytes)

/-! ### Execute -/

theorem execute_eq_halted_iff_of_halted {fuel : Nat} {s t : State} {v : Word} (h : s.halted = true) :
    execute fuel s = .halted v t ↔ v = t.haltValue ∧ s = t := by
  have hexecute : execute fuel s = .halted s.haltValue s := by cases fuel <;> simp [execute, h]
  rw [hexecute]
  constructor
  · rintro ⟨⟩
    exact ⟨rfl, rfl⟩
  · rintro ⟨rfl, rfl⟩
    rfl

theorem execute_zero_of_running {s : State} (h : s.halted = false) : execute 0 s = .outOfFuel s := by
  simp [execute, h]

/-- With fuel left, a core that is not halted ends where the execution after its next step ends (R121). -/
theorem execute_succ_eq_halted_iff {fuel : Nat} {s t : State} {v : Word} (h : s.halted = false) :
    execute (fuel + 1) s = .halted v t ↔ ∃ u, step s = .next u ∧ execute fuel u = .halted v t := by
  cases hstep : step s <;> simp [execute, h, hstep]

theorem run_zero_next {s t : State} : Host.Core.run Sys2Proof.core 0 s = .next t ↔ s = t :=
  ⟨Host.Outcome.next.inj, fun h => h ▸ rfl⟩

/-- `t` is the first halted state of the run from `s`, after `k` steps. -/
def FirstHaltAfter (k : Nat) (s t : State) : Prop :=
  t.halted = true ∧ Host.Core.run Sys2Proof.core k s = .next t ∧
    ∀ j, j < k → ∃ u, Host.Core.run Sys2Proof.core j s = .next u ∧ u.halted = false

theorem firstHaltAfter_zero {s t : State} : FirstHaltAfter 0 s t ↔ s.halted = true ∧ s = t := by
  constructor
  · rintro ⟨hhalted, hrun, _⟩
    obtain rfl := run_zero_next.mp hrun
    exact ⟨hhalted, rfl⟩
  · rintro ⟨hhalted, rfl⟩
    exact ⟨hhalted, rfl, fun j hj => absurd hj j.not_lt_zero⟩

/-- The first halt after `k + 1` steps from `s` is the first after `k` steps from the state that one step leaves. -/
theorem firstHaltAfter_succ {k : Nat} {s t : State} :
    FirstHaltAfter (k + 1) s t ↔ s.halted = false ∧ ∃ u, step s = .next u ∧ FirstHaltAfter k u t := by
  constructor
  · rintro ⟨hhalted, hrun, hbefore⟩
    obtain ⟨u, hstep, hrest⟩ := run_succ_next.mp hrun
    refine ⟨?_, u, hstep, hhalted, hrest, fun j hj => ?_⟩
    · obtain ⟨_, hrun, hrunning⟩ := hbefore 0 k.succ_pos
      rwa [← run_zero_next.mp hrun] at hrunning
    · simpa only [run_succ_of_step hstep] using hbefore (j + 1) (Nat.succ_lt_succ hj)
  · rintro ⟨hrunning, u, hstep, hhalted, hrest, hbefore⟩
    refine ⟨hhalted, run_succ_next.mpr ⟨u, hstep, hrest⟩, fun j hj => ?_⟩
    cases j with
    | zero => exact ⟨s, rfl, hrunning⟩
    | succ j => simpa only [run_succ_of_step hstep] using hbefore j (Nat.lt_of_succ_lt_succ hj)

/-- The first halt of a run from a halted state is that state. -/
theorem exists_firstHaltAfter_of_halted {fuel : Nat} {s t : State} (h : s.halted = true) :
    (∃ k, k ≤ fuel ∧ FirstHaltAfter k s t) ↔ s = t := by
  constructor
  · rintro ⟨k, _, hfirst⟩
    cases k with
    | zero => exact (firstHaltAfter_zero.mp hfirst).2
    | succ k => simp [firstHaltAfter_succ, h] at hfirst
  · rintro rfl
    exact ⟨0, fuel.zero_le, firstHaltAfter_zero.mpr ⟨h, rfl⟩⟩

/-- From a state that is not halted, the first halt lies past one step. -/
theorem exists_firstHaltAfter_of_running {fuel : Nat} {s t : State} (h : s.halted = false) :
    (∃ k, k ≤ fuel + 1 ∧ FirstHaltAfter k s t) ↔ ∃ u, step s = .next u ∧ ∃ k, k ≤ fuel ∧ FirstHaltAfter k u t := by
  constructor
  · rintro ⟨k, hk, hfirst⟩
    cases k with
    | zero => simp [firstHaltAfter_zero, h] at hfirst
    | succ k =>
      obtain ⟨_, u, hstep, hrest⟩ := firstHaltAfter_succ.mp hfirst
      exact ⟨u, hstep, k, Nat.le_of_succ_le_succ hk, hrest⟩
  · rintro ⟨u, hstep, k, hk, hrest⟩
    exact ⟨k + 1, Nat.succ_le_succ hk, firstHaltAfter_succ.mpr ⟨h, u, hstep, hrest⟩⟩

/-- `execute` ends at the first halted state that its fuel reaches: at once where the core is halted, and else by one step
and what is left of the fuel. -/
theorem execute_eq_halted_iff (fuel : Nat) (s t : State) (v : Word) :
    execute fuel s = .halted v t ↔ v = t.haltValue ∧ ∃ k, k ≤ fuel ∧ FirstHaltAfter k s t := by
  induction fuel generalizing s with
  | zero =>
    cases h : s.halted with
    | true => rw [execute_eq_halted_iff_of_halted h, exists_firstHaltAfter_of_halted h]
    | false => simp [execute_zero_of_running h, firstHaltAfter_zero, h]
  | succ fuel ih =>
    cases h : s.halted with
    | true => rw [execute_eq_halted_iff_of_halted h, exists_firstHaltAfter_of_halted h]
    | false =>
      rw [execute_succ_eq_halted_iff h, exists_firstHaltAfter_of_running h]
      simp only [ih, and_left_comm, exists_and_left]

/-- Settles O60: `execute_eq_halted_iff`, with the latch of the last state said before the number of steps. -/
theorem executeEndsAtFirstHalt : Obligations.ExecuteEndsAtFirstHalt := by
  intro fuel s t v
  rw [execute_eq_halted_iff]
  simp only [FirstHaltAfter, and_left_comm, exists_and_left]

end Sys2Proof.Machine
end

section
/-!
PROOF. OP-IMM (41_integer_immediate.md R130 to R138): what each instruction computes, and the words that decode to it.
-/

namespace Sys2Proof.Machine

/-! ### Computing into a register -/

/-- An instruction that writes `u s` to `rd` and goes on to the next word computes whatever `u s` equals. -/
theorem computes_of_writeAndRetire {i : Instr} {rd : Reg} {u v : State → Word}
    (hexec : ∀ s, exec i s = writeAndRetire rd (u s) s) (hvalue : ∀ s, u s = v s) : Computes i rd v := by
  intro s
  rw [hexec, hvalue]
  exact writeAndRetire_writes rd (v s) s

/-! ### Comparisons -/

theorem bitValue_lessSigned (a b : Word) : bitValue (lessSigned a b) = if a.toInt < b.toInt then 1#32 else 0#32 := by
  simp [bitValue, lessSigned]

theorem bitValue_lessUnsigned (a b : Word) :
    bitValue (lessUnsigned a b) = if a.toNat < b.toNat then 1#32 else 0#32 := by
  simp [bitValue, lessUnsigned]

@[simp] theorem toInt_imm12 (imm : BitVec 12) : (imm12 imm).toInt = imm.toInt :=
  BitVec.toInt_signExtend_of_le (by decide)

/-- Settles O15: adding the immediate is what an effective address does, and the two comparisons read the
sign-extended immediate, SLTI as the integer that it stands for and SLTIU as an unsigned word (R139). -/
theorem immediateArithmeticResults : Obligations.ImmediateArithmeticResults := by
  intro rd rs1 imm
  refine ⟨⟨decode_encode (i := .addi rd rs1 imm) rfl, ?_⟩, ⟨decode_encode (i := .slti rd rs1 imm) rfl, ?_⟩,
    ⟨decode_encode (i := .sltiu rd rs1 imm) rfl, ?_⟩⟩
  · exact computes_of_writeAndRetire (fun _ => rfl) fun s => ea_eq_ofInt s rs1 imm
  · refine computes_of_writeAndRetire (fun _ => rfl) fun s => ?_
    rw [bitValue_lessSigned, toInt_imm12]
  · exact computes_of_writeAndRetire (fun _ => rfl) fun s => bitValue_lessUnsigned (s.reg rs1) (imm12 imm)

/-! ### Bitwise operations -/

/-- A bit vector is given by its bits. -/
theorem eq_ofFnLE {n : Nat} {v : BitVec n} {f : Fin n → Bool} (h : ∀ j : Fin n, v.getLsbD j = f j) :
    v = BitVec.ofFnLE f := by
  ext j hj
  rw [BitVec.getElem_ofFnLE, ← h ⟨j, hj⟩, BitVec.getLsbD_eq_getElem hj]

theorem getLsbD_imm12 (imm : BitVec 12) (j : Fin 32) : (imm12 imm).getLsbD j = imm.getLsbD (min j 11) :=
  getLsbD_signExtend_eq_min imm j.isLt

/-- Settles O16, bit by bit: the immediate operand repeats bit 11 of the immediate. -/
theorem immediateLogicResults : Obligations.ImmediateLogicResults := by
  intro rd rs1 imm
  refine ⟨⟨decode_encode (i := .xori rd rs1 imm) rfl, ?_⟩, ⟨decode_encode (i := .ori rd rs1 imm) rfl, ?_⟩,
    ⟨decode_encode (i := .andi rd rs1 imm) rfl, ?_⟩⟩ <;>
    refine computes_of_writeAndRetire (fun _ => rfl) fun s => eq_ofFnLE fun j => ?_
  · rw [BitVec.getLsbD_xor, getLsbD_imm12]
  · rw [BitVec.getLsbD_or, getLsbD_imm12]
  · rw [BitVec.getLsbD_and, getLsbD_imm12]

/-! ### Shifts -/

theorem shiftLeft_eq_ofNat (a : Word) (n : Nat) : a <<< n = BitVec.ofNat 32 (a.toNat * 2 ^ n) := by
  apply BitVec.eq_of_toNat_eq
  rw [BitVec.toNat_shiftLeft, BitVec.toNat_ofNat, Nat.shiftLeft_eq]

theorem ushiftRight_eq_ofNat (a : Word) (n : Nat) : a >>> n = BitVec.ofNat 32 (a.toNat / 2 ^ n) := by
  rw [← Nat.shiftRight_eq_div_pow, ← BitVec.toNat_ushiftRight, BitVec.ofNat_toNat, BitVec.setWidth_eq]

theorem sshiftRight_eq_ofInt (a : Word) (n : Nat) : a.sshiftRight n = BitVec.ofInt 32 (a.toInt / 2 ^ n) := by
  rw [BitVec.sshiftRight, Int.shiftRight_eq_div_pow, Nat.cast_pow, Nat.cast_ofNat]

/-- w[30] is bit 5 of w[31:25]. -/
theorem getLsbD_30_encodeR (f7 : BitVec 7) (b a : Reg) (f3 : BitVec 3) (d : Reg) (op : BitVec 7) :
    (encodeR f7 b a f3 d op).getLsbD 30 = f7.getLsbD 5 := by
  have hbit := congrArg (·.getLsbD 5) (funct7Field_encodeR f7 b a f3 d op)
  simpa [funct7Field] using hbit

/-- Settles O17: the rows of the three shifts look at funct3 and the opcode, and the right shifts at w[30] too; each
reads w[24:20] as its amount. -/
theorem immediateShiftResults : Obligations.ImmediateShiftResults := by
  intro rd rs1 shamt high
  refine ⟨⟨?_, ?_⟩, fun hbit => ?_, ?_, fun hbit => ?_, ?_⟩
  · exact (decode_eq_ok_iff _ _).mpr ⟨⟨funct3Field_encodeR .., opcodeField_encodeR ..⟩,
      by simp [Instr.mnemonic, Mnemonic.readInstr]⟩
  · exact computes_of_writeAndRetire (fun _ => rfl) fun s => shiftLeft_eq_ofNat (s.reg rs1) shamt.toNat
  · have h30 := (getLsbD_30_encodeR high shamt rs1 5#3 rd 0b0010011#7).trans hbit
    exact (decode_eq_ok_iff _ _).mpr ⟨⟨h30, funct3Field_encodeR .., opcodeField_encodeR ..⟩,
      by simp [Instr.mnemonic, Mnemonic.readInstr]⟩
  · exact computes_of_writeAndRetire (fun _ => rfl) fun s => ushiftRight_eq_ofNat (s.reg rs1) shamt.toNat
  · have h30 := (getLsbD_30_encodeR high shamt rs1 5#3 rd 0b0010011#7).trans hbit
    exact (decode_eq_ok_iff _ _).mpr ⟨⟨h30, funct3Field_encodeR .., opcodeField_encodeR ..⟩,
      by simp [Instr.mnemonic, Mnemonic.readInstr]⟩
  · exact computes_of_writeAndRetire (fun _ => rfl) fun s => sshiftRight_eq_ofInt (s.reg rs1) shamt.toNat

end Sys2Proof.Machine
end

section
/-!
PROOF. OP (42_integer_register.md R150 to R159): what each instruction computes from the values of its two source
registers, and the words that decode to it. The comparisons and shifts are those of OP-IMM, with x[rs2] in place of the
immediate.
-/

namespace Sys2Proof.Machine

/-! ### Addition and subtraction -/

/-- Settles O18: `BitVec.ofInt` keeps sums and negation, so a sum or a difference is the exact one modulo 2^32. -/
theorem registerAddSubResults : Obligations.RegisterAddSubResults := by
  intro rd rs1 rs2
  refine ⟨⟨decode_encode (i := .add rd rs1 rs2) rfl, ?_⟩, ⟨decode_encode (i := .sub rd rs1 rs2) rfl, ?_⟩⟩ <;>
    refine computes_of_writeAndRetire (fun _ => rfl) fun s => ?_
  · rw [BitVec.ofInt_add, BitVec.ofInt_toInt, BitVec.ofInt_toInt]
  · rw [Int.sub_eq_add_neg, BitVec.ofInt_add, BitVec.ofInt_neg, BitVec.ofInt_toInt, BitVec.ofInt_toInt,
      BitVec.sub_eq_add_neg]

/-! ### Comparisons -/

/-- Settles O19: SLT compares the registers as signed words and SLTU as unsigned ones, and each writes the bit as a
word. -/
theorem registerCompareResults : Obligations.RegisterCompareResults := by
  intro rd rs1 rs2
  refine ⟨⟨decode_encode (i := .slt rd rs1 rs2) rfl, ?_⟩, ⟨decode_encode (i := .sltu rd rs1 rs2) rfl, ?_⟩⟩
  · exact computes_of_writeAndRetire (fun _ => rfl) fun s => bitValue_lessSigned (s.reg rs1) (s.reg rs2)
  · exact computes_of_writeAndRetire (fun _ => rfl) fun s => bitValue_lessUnsigned (s.reg rs1) (s.reg rs2)

/-! ### Bitwise operations -/

/-- Settles O20: a word is given by its bits, and each operation acts on every bit alone. -/
theorem registerLogicResults : Obligations.RegisterLogicResults := by
  intro rd rs1 rs2
  refine ⟨⟨decode_encode (i := .xor rd rs1 rs2) rfl, ?_⟩, ⟨decode_encode (i := .or rd rs1 rs2) rfl, ?_⟩,
    ⟨decode_encode (i := .and rd rs1 rs2) rfl, ?_⟩⟩ <;>
    refine computes_of_writeAndRetire (fun _ => rfl) fun s => eq_ofFnLE fun j => ?_
  · exact BitVec.getLsbD_xor
  · exact BitVec.getLsbD_or
  · exact BitVec.getLsbD_and

/-! ### Shifts -/

/-- The low five bits of a word are its value modulo 32 (R152). -/
@[simp] theorem toNat_shiftAmount (v : Word) : (shiftAmount v).toNat = v.toNat % 32 :=
  BitVec.toNat_setWidth 5 v

/-- Settles O21: the shifts of OP-IMM by an amount that is x[rs2] modulo 32. -/
theorem registerShiftResults : Obligations.RegisterShiftResults := by
  intro rd rs1 rs2
  refine ⟨⟨decode_encode (i := .sll rd rs1 rs2) rfl, ?_⟩, ⟨decode_encode (i := .srl rd rs1 rs2) rfl, ?_⟩,
    ⟨decode_encode (i := .sra rd rs1 rs2) rfl, ?_⟩⟩ <;>
    refine computes_of_writeAndRetire (fun _ => rfl) fun s => ?_
  · rw [shiftLeft_eq_ofNat, toNat_shiftAmount]
  · rw [ushiftRight_eq_ofNat, toNat_shiftAmount]
  · rw [sshiftRight_eq_ofInt, toNat_shiftAmount]

end Sys2Proof.Machine
end

section
/-!
PROOF. Upper immediates (43_upper_immediate.md R170, R171): what LUI and AUIPC compute, and the words that decode to
them.
-/

namespace Sys2Proof.Machine

/-- Twelve zero bits below the immediate multiply it by 2^12. -/
theorem upperImmediate_eq_ofNat (imm20 : BitVec 20) :
    upperImmediate imm20 = BitVec.ofNat 32 (imm20.toNat * 2 ^ 12) := by
  apply BitVec.eq_of_toNat_eq
  rw [BitVec.toNat_ofNat, Nat.mod_eq_of_lt (by omega), upperImmediate, BitVec.toNat_append, Nat.shiftLeft_eq]
  exact Nat.or_zero _

/-- Settles O22: LUI writes the shifted immediate, and AUIPC adds it to the pc, the instruction's own address;
`BitVec.ofNat` keeps sums. -/
theorem upperImmediateResults : Obligations.UpperImmediateResults := by
  intro rd imm20
  refine ⟨⟨decode_encode (i := .lui rd imm20) rfl, ?_⟩, ⟨decode_encode (i := .auipc rd imm20) rfl, ?_⟩⟩ <;>
    refine computes_of_writeAndRetire (fun _ => rfl) fun s => ?_
  · exact upperImmediate_eq_ofNat imm20
  · rw [BitVec.ofNat_add, BitVec.ofNat_toNat, BitVec.setWidth_eq, upperImmediate_eq_ofNat]

end Sys2Proof.Machine
end

section
/-!
PROOF. Jumps and branches (44_control_transfer.md R180 to R187): where each goes, when a branch is taken, and the words
that decode to them.
-/

namespace Sys2Proof.Machine

/-! ### Targets -/

/-- Adding a sign-extended displacement adds its value modulo 2^32 (R85, R87). -/
theorem add_displacement_eq_ofInt {n : Nat} (a : Word) (offset : BitVec n) :
    a + displacement offset = BitVec.ofInt 32 (a.toInt + offset.toInt) := by
  rw [displacement, BitVec.signExtend, BitVec.ofInt_add, BitVec.ofInt_toInt]

/-- Clearing bit 0 takes the even number below, as a shift right and back does. -/
theorem and_0xFFFFFFFE_eq_ofNat (a : Word) : a &&& 0xFFFFFFFE#32 = BitVec.ofNat 32 (2 * (a.toNat / 2)) :=
  calc a &&& 0xFFFFFFFE#32
    _ = a &&& BitVec.allOnes 32 <<< 1 := rfl
    _ = a >>> 1 <<< 1 := BitVec.shiftLeft_ushiftRight.symm
    _ = BitVec.ofNat 32 (2 * (a.toNat / 2)) := by
      rw [shiftLeft_eq_ofNat, BitVec.toNat_ushiftRight, Nat.shiftRight_eq_div_pow, Nat.pow_one, Nat.mul_comm]

/-! ### Jumps -/

/-- A JALR-opcode word needs funct3 000 (R97). -/
theorem decode_error_of_jalrOpcode {w : Word} (hop : opcodeField w = 0b1100111#7) (hf : funct3Field w ≠ 0#3) :
    decode w = .error .funct3 := by
  simp [decode, hop, hf]

/-- Settles O23: JAL and JALR are one link-and-jump, whose target is fixed before `rd` is written, and JALR's opcode has
the one funct3. -/
theorem jumpResults : Obligations.JumpResults := by
  refine ⟨fun rd offset => ⟨fun heven => decode_encode (i := .jal rd offset) heven, fun s => ?_⟩,
    fun rd rs1 imm => ⟨decode_encode (i := .jalr rd rs1 imm) rfl, fun s => ?_⟩, fun s w hs hw hop hf => ?_⟩
  · rw [← add_displacement_eq_ofInt]
    exact linkAndJump_writes rd (s.pc + displacement offset) s
  · rw [← ea_eq_ofInt, ← and_0xFFFFFFFE_eq_ofNat]
    exact linkAndJump_writes rd (s.ea rs1 imm &&& 0xFFFFFFFE#32) s
  · exact step_traps_of_decode_error hs (fetch_of_wordAtPc hw) (decode_error_of_jalrOpcode hop hf)

/-! ### Branches -/

/-- An instruction that branches on a bit of the state branches on what the bit decides. -/
theorem branches_of_branchIf {i : Instr} {offset : BitVec 13} {bit : State → Bool} {taken : State → Prop}
    (hexec : ∀ s, exec i s = branchIf (bit s) offset s) (hbit : ∀ s, bit s = true ↔ taken s) :
    Branches i offset taken := by
  intro s
  obtain ⟨t, hnext, hmoves⟩ := branchIf_moves (bit s) offset s
  refine ⟨t, (hexec s).trans hnext, fun htaken => ?_, fun hnot => ?_⟩
  · rwa [if_pos ((hbit s).mpr htaken), add_displacement_eq_ofInt] at hmoves
  · rwa [if_neg (mt (hbit s).mp hnot)] at hmoves

/-- Settles O24: the branch bit is the equality of the two registers, or its negation. -/
theorem equalityBranchResults : Obligations.EqualityBranchResults := by
  intro rs1 rs2 offset
  refine ⟨decode_encode (i := .beq rs1 rs2 offset), ?_, decode_encode (i := .bne rs1 rs2 offset), ?_⟩ <;>
    exact branches_of_branchIf (fun _ => rfl) fun _ => decide_eq_true_iff

/-- Settles O25: BLT's bit compares the registers as signed words and BLTU's as unsigned ones. -/
theorem lessThanBranchResults : Obligations.LessThanBranchResults := by
  intro rs1 rs2 offset
  refine ⟨decode_encode (i := .blt rs1 rs2 offset), ?_, decode_encode (i := .bltu rs1 rs2 offset), ?_⟩ <;>
    exact branches_of_branchIf (fun _ => rfl) fun _ => decide_eq_true_iff

theorem atLeastSigned_iff (strict : Bool) (a b : Word) :
    atLeastSigned strict a b = true ↔
      (strict = false ∧ a.toInt ≥ b.toInt) ∨ (strict = true ∧ a.toInt > b.toInt) := by
  cases strict <;> simp [atLeastSigned]

theorem atLeastUnsigned_iff (strict : Bool) (a b : Word) :
    atLeastUnsigned strict a b = true ↔
      (strict = false ∧ a.toNat ≥ b.toNat) ∨ (strict = true ∧ a.toNat > b.toNat) := by
  cases strict <;> simp [atLeastUnsigned]

/-- Settles O26: P_BGE_STRICT selects between ≥ and >, for BGE on signed words and for BGEU on unsigned ones. -/
theorem greaterOrEqualBranchResults : Obligations.GreaterOrEqualBranchResults := by
  intro rs1 rs2 offset
  refine ⟨decode_encode (i := .bge rs1 rs2 offset), ?_, decode_encode (i := .bgeu rs1 rs2 offset), ?_⟩
  · exact branches_of_branchIf (fun _ => rfl) fun s => atLeastSigned_iff s.params.bgeStrict (s.reg rs1) (s.reg rs2)
  · exact branches_of_branchIf (fun _ => rfl) fun s => atLeastUnsigned_iff s.params.bgeStrict (s.reg rs1) (s.reg rs2)

end Sys2Proof.Machine
end

section
/-!
PROOF. What traps by its own meaning: a CSR access that fails a check of R224, ECALL and EBREAK (46_system.md R221, R222,
R224), and the words that decode to the last two.
-/

namespace Sys2Proof.Machine

/-! ### An access that fails a check of R224 -/

/-- An access fails a check by an invalid number, or by an rs1 field other than 0 in the read-only range (R224). -/
theorem csrAccessIllegal_iff (csr : CsrNumber) (rs1 : Reg) :
    csrAccessIllegal csr rs1 = true ↔ csr ∉ validCsrNumbers ∨ (0xC00 ≤ csr.toNat ∧ rs1 ≠ 0#5) := by
  simp [csrAccessIllegal]

theorem csrAccess_traps {csr : CsrNumber} {rs1 : Reg} (w : Word) (rd : Reg) (f : Word → Word → Word) (s : State)
    (h : csrAccessIllegal csr rs1 = true) :
    ∃ t, csrAccess w csr rd rs1 f s = .next t ∧ TrapTaken 2#32 w s t := by
  rcases csrAccess_eq w csr rd rs1 f s with ⟨_, htrap⟩ | ⟨hlegal, _⟩
  · exact ⟨_, htrap, takeException_trap .illegalInstruction w s⟩
  · exact absurd h (by simp [hlegal])

/-- A CSR instruction's word is its encoding: its layout leaves no bit open (R89). -/
theorem encode_eq_of_decode_csr {w : Word} {i : Instr} {rd rs1 : Reg} {csr : CsrNumber}
    (hi : i ∈ [Instr.csrrw rd csr rs1, .csrrs rd csr rs1, .csrrc rd csr rs1]) (hdecode : decode w = .ok i) :
    encode i = w := by
  obtain ⟨hsel, hread⟩ := readByRow_of_decode hdecode
  have hsystem : opcodeField w = 0b1110011#7 ∧ i ≠ .ecall ∧ i ≠ .ebreak := by
    simp only [List.mem_cons, List.not_mem_nil, or_false] at hi
    rcases hi with rfl | rfl | rfl <;> exact ⟨hsel.2, nofun, nofun⟩
  obtain ⟨hop, hecall, hebreak⟩ := hsystem
  exact encodeInvertsDecode w i hdecode (by simp [hop]) hecall hebreak

/-- A decoded CSR instruction is an access whose trap value is the decoded word (R224). -/
theorem exec_eq_csrAccess_of_decode {w : Word} {i : Instr} {rd rs1 : Reg} {csr : CsrNumber}
    (hi : i ∈ [Instr.csrrw rd csr rs1, .csrrs rd csr rs1, .csrrc rd csr rs1]) (hdecode : decode w = .ok i)
    (s : State) : ∃ f, exec i s = csrAccess w csr rd rs1 f s := by
  rw [← encode_eq_of_decode_csr hi hdecode]
  simp only [List.mem_cons, List.not_mem_nil, or_false] at hi
  rcases hi with rfl | rfl | rfl <;> exact ⟨_, rfl⟩

/-- Settles O38: the instruction is an access that carries its word as the trap value, and an access that fails a check
traps. -/
theorem illegalCsrAccessTraps : Obligations.IllegalCsrAccessTraps := by
  intro w rd csr rs1 s i hi hdecode hbad
  obtain ⟨f, hexec⟩ := exec_eq_csrAccess_of_decode hi hdecode s
  have hillegal : csrAccessIllegal csr rs1 = true :=
    (csrAccessIllegal_iff csr rs1).mpr (hbad.imp_right fun ⟨hrange, _, h0⟩ => ⟨hrange, h0⟩)
  rw [hexec]
  exact csrAccess_traps w rd f s hillegal

/-! ### ECALL and EBREAK -/

/-- For funct3 000 of SYSTEM only w[31:20] selects: rd and rs1 may hold anything (R96). -/
theorem decode_ecall_word (rd rs1 : Reg) : decode (encodeI 0#12 rs1 0#3 rd 0b1110011#7) = .ok .ecall :=
  decode_of_selectedBy (m := .ecall) ⟨iField_encodeI .., funct3Field_encodeI .., opcodeField_encodeI ..⟩

theorem decode_ebreak_word (rd rs1 : Reg) : decode (encodeI 1#12 rs1 0#3 rd 0b1110011#7) = .ok .ebreak :=
  decode_of_selectedBy (m := .ebreak) ⟨iField_encodeI .., funct3Field_encodeI .., opcodeField_encodeI ..⟩

/-- Settles O35: each instruction only takes its exception, at its own address. -/
theorem ecallAndEbreakTrap : Obligations.EcallAndEbreakTrap := by
  refine ⟨fun rd rs1 => ⟨decode_ecall_word rd rs1, decode_ebreak_word rd rs1⟩, fun s => ?_, fun s => ?_⟩
  · exact ⟨_, rfl, takeException_trap .ecallFromM s.pc s⟩
  · exact ⟨_, rfl, takeException_trap .breakpoint s.pc s⟩

end Sys2Proof.Machine
end

section
/-!
PROOF. Which steps trap, and what a trap does to the CSRs and the counters (60_exceptions.md R250 to R255, R265 to R267).
Every step either traps and counts as R266 says, or completes and counts as R265 says (`step_counters`).
-/

namespace Sys2Proof.Machine

/-! ### The counters of a step -/

theorem stepTraps_of_decode_ok {s u : State} {w : Word} {i : Instr} (hfetch : fetch s = .next (w, u))
    (hdecode : decode w = .ok i) : stepTraps s = instrTraps i := by
  simp [stepTraps, hfetch, hdecode]

theorem stepTraps_of_decode_error {s u : State} {w : Word} {e : Illegal} (hfetch : fetch s = .next (w, u))
    (hdecode : decode w = .error e) : stepTraps s = true := by
  simp [stepTraps, hfetch, hdecode]

/-- An instruction that completes has trapped and counted no instruction, or has not trapped and counted one (R265,
R266). -/
theorem Did.counters {i : Instr} {s t : State} (h : Did i s t) :
    (instrTraps i = true ∧ CountersTrapped s t) ∨ (instrTraps i = false ∧ CountersRetired s t) := by
  cases h with
  | compute _ _ _ _ ht => exact .inr ⟨ht, by simp [CountersRetired]⟩
  | load _ _ _ _ u _ hload ht =>
    obtain ⟨_, _, rfl⟩ := busLoad_frame hload
    exact .inr ⟨ht, by simp [CountersRetired]⟩
  | store _ _ _ u hstore ht =>
    obtain ⟨_, _, rfl⟩ := busStore_frame hstore
    exact .inr ⟨ht, rfl, rfl, rfl⟩
  | csr _ _ _ _ _ u hcsr _ _ ht =>
    obtain ⟨_, _, _, hcount, _⟩ := writesCsr_of_csrWrite hcsr
    exact .inr ⟨ht, hcount⟩
  | trap _ _ ht => exact .inl ⟨ht, rfl, rfl, rfl⟩

/-- A step that answers has trapped and counted no instruction, or has not trapped and counted one (R265, R266). -/
theorem step_counters {s t : State} (h : step s = .next t) :
    (stepTraps s = true ∧ CountersTrapped s t) ∨ (stepTraps s = false ∧ CountersRetired s t) := by
  obtain ⟨_, _, w, u, hfetch, hrun⟩ := step_next h
  rcases runWord_next hrun with ⟨i, hdecode, hexec⟩ | ⟨e, hdecode, rfl⟩
  · rw [stepTraps_of_decode_ok hfetch hdecode]
    obtain ⟨_, _, rfl⟩ := fetch_frame hfetch
    exact (exec_did hexec).counters
  · obtain ⟨_, _, rfl⟩ := fetch_frame hfetch
    exact .inl ⟨stepTraps_of_decode_error hfetch hdecode, rfl, rfl, rfl⟩

/-- Settles O51: whether the step traps decides which of the two counter rules it follows. -/
theorem stepCounters : Obligations.StepCounters := by
  intro s t h
  rcases step_counters h with ⟨htraps, hcycle, htime, hinstret⟩ | ⟨htraps, hcycle, htime, hinstret⟩
  · exact ⟨hcycle, htime, by rw [htraps, hinstret, if_pos rfl]⟩
  · exact ⟨hcycle, htime, by rw [htraps, hinstret, if_neg Bool.false_ne_true]⟩

/-! ### The counters of a run -/

theorem trapCount_succ_of_step {s u : State} (n : Nat) (h : step s = .next u) :
    trapCount (n + 1) s = (if stepTraps s then 1 else 0) + trapCount n u := by
  simp only [trapCount, h]

/-- One step counts in instret or in the number of traps. -/
theorem instret_add_trap_of_step {s u : State} (h : step s = .next u) :
    u.instret + BitVec.ofNat 64 (if stepTraps s then 1 else 0) = s.instret + 1#64 := by
  obtain ⟨_, _, hinstret⟩ := stepCounters s u h
  rw [hinstret]
  cases stepTraps s <;> simp

/-- A run of `n` steps adds `n` to cycle and to time, and `n` to instret and the number of traps together. -/
theorem run_counters {n : Nat} {s t : State} (h : Host.Core.run Sys2Proof.core n s = .next t) :
    t.cycle = s.cycle + BitVec.ofNat 64 n ∧ t.time = s.time + BitVec.ofNat 64 n ∧
      t.instret + BitVec.ofNat 64 (trapCount n s) = s.instret + BitVec.ofNat 64 n := by
  induction n generalizing s with
  | zero =>
    obtain rfl := run_zero_next.mp h
    simp [trapCount]
  | succ n ih =>
    obtain ⟨u, hstep, hrun⟩ := run_succ_next.mp h
    obtain ⟨hcycle, htime, hinstret⟩ := ih hrun
    obtain ⟨hcycle1, htime1, _⟩ := stepCounters s u hstep
    have hinstret1 := instret_add_trap_of_step hstep
    rw [hcycle1] at hcycle
    rw [htime1] at htime
    rw [trapCount_succ_of_step n hstep, BitVec.ofNat_add, BitVec.ofNat_add]
    refine ⟨by rw [hcycle]; ac_rfl, by rw [htime]; ac_rfl, ?_⟩
    calc t.instret + (BitVec.ofNat 64 (if stepTraps s then 1 else 0) + BitVec.ofNat 64 (trapCount n u))
      _ = t.instret + BitVec.ofNat 64 (trapCount n u) + BitVec.ofNat 64 (if stepTraps s then 1 else 0) := by ac_rfl
      _ = u.instret + BitVec.ofNat 64 (if stepTraps s then 1 else 0) + BitVec.ofNat 64 n := by rw [hinstret]; ac_rfl
      _ = s.instret + (BitVec.ofNat 64 n + 1#64) := by rw [hinstret1]; ac_rfl

/-- Settles O52: all three counters are 0 at reset, so both sides of each equation are the number of steps. -/
theorem counterIdentity : Obligations.CounterIdentity := by
  intro params resetPc contents input output n t h
  obtain ⟨hcycle, htime, hinstret⟩ := run_counters h
  exact ⟨hcycle.trans htime.symm, hcycle.trans hinstret.symm⟩

/-! ### The causes -/

/-- The instructions that trap (R250). -/
theorem instrTraps_cases {i : Instr} (h : instrTraps i = true) :
    i = .ecall ∨ i = .ebreak ∨ ∃ rd csr rs1, i ∈ [Instr.csrrw rd csr rs1, .csrrs rd csr rs1, .csrrc rd csr rs1] ∧
      csrAccessIllegal csr rs1 = true := by
  cases i with
  | ecall => exact .inl rfl
  | ebreak => exact .inr (.inl rfl)
  | csrrw rd csr rs1 | csrrs rd csr rs1 | csrrc rd csr rs1 => exact .inr (.inr ⟨rd, csr, rs1, by simp, h⟩)
  | _ => cases h

/-- A decoded instruction that traps enters the handler with its cause and trap value (R250, R255). -/
theorem exec_trapTaken {w : Word} {i : Instr} {u t : State} (hdecode : decode w = .ok i) (ht : instrTraps i = true)
    (h : exec i u = .next t) :
    TrapTaken 2#32 w u t ∨ (i = .ebreak ∧ TrapTaken 3#32 u.pc u t) ∨ (i = .ecall ∧ TrapTaken 11#32 u.pc u t) := by
  rcases instrTraps_cases ht with rfl | rfl | ⟨rd, csr, rs1, hi, hillegal⟩
  · cases h
    exact .inr (.inr ⟨rfl, takeException_trap .ecallFromM u.pc u⟩)
  · cases h
    exact .inr (.inl ⟨rfl, takeException_trap .breakpoint u.pc u⟩)
  · obtain ⟨f, hexec⟩ := exec_eq_csrAccess_of_decode hi hdecode u
    obtain ⟨t', haccess, htrap⟩ := csrAccess_traps w rd f u hillegal
    obtain rfl : t' = t := by simpa [hexec, haccess] using h
    exact .inl htrap

/-- Settles O53: an illegal word and a failed CSR check trap with the word, ECALL and EBREAK with their own address,
which the fetch leaves in the pc. -/
theorem trappingStepEntersTheHandler : Obligations.TrappingStepEntersTheHandler := by
  intro s t h htraps
  obtain ⟨_, _, w, u, hfetch, hrun⟩ := step_next h
  refine ⟨w, u, hfetch, ?_⟩
  rcases runWord_next hrun with ⟨i, hdecode, hexec⟩ | ⟨_, _, rfl⟩
  · have ht : instrTraps i = true := (stepTraps_of_decode_ok hfetch hdecode).symm.trans htraps
    have hpc : u.pc = s.pc := by
      obtain ⟨_, _, rfl⟩ := fetch_frame hfetch
      rfl
    rw [hdecode, ← hpc]
    simpa using exec_trapTaken hdecode ht hexec
  · exact .inl (takeException_trap .illegalInstruction w u)

end Sys2Proof.Machine
end

section
/-!
PROOF. The handler (60_exceptions.md R259, R261): its return through mepc, and the loop of a trap vector in no region.
-/

namespace Sys2Proof.Machine

/-! ### Even addresses -/

/-- Clearing bit 0 of an even word leaves it as it is. -/
theorem and_0xFFFFFFFE_of_even {a : Word} (h : a.getLsbD 0 = false) : a &&& 0xFFFFFFFE#32 = a := by
  have heven : a.toNat % 2 = 0 := by simpa [BitVec.getLsbD, Nat.testBit_zero] using h
  apply BitVec.eq_of_toNat_eq
  rw [and_0xFFFFFFFE_eq_ofNat, BitVec.toNat_ofNat]
  omega

/-- An even immediate added to an even register gives an even address. -/
theorem ea_even {s : State} {rs1 : Reg} {imm : BitVec 12} (hreg : (s.reg rs1).getLsbD 0 = false)
    (himm : imm.getLsbD 0 = false) : (s.ea rs1 imm).getLsbD 0 = false :=
  even_add hreg ((getLsbD_imm12 imm 0).trans himm)

/-! ### The return -/

/-- An instruction that traps and completes has taken an exception. -/
theorem exec_eq_takeException {i : Instr} {s t : State} (ht : instrTraps i = true) (h : exec i s = .next t) :
    ∃ cause tval, t = takeException cause tval s := by
  cases exec_did h with
  | trap cause tval => exact ⟨cause, tval, rfl⟩
  | compute _ _ _ _ hf | load _ _ _ _ _ _ _ hf | store _ _ _ _ _ hf | csr _ _ _ _ _ _ _ _ _ hf =>
    exact absurd ht (by simp [hf])

theorem SameTrapCsrs.trans {s t u : State} (h : SameTrapCsrs s t) (h' : SameTrapCsrs t u) : SameTrapCsrs s u := by
  obtain ⟨hmtvec, hmepc, hmcause, hmtval, hmscratch⟩ := h
  obtain ⟨hmtvec', hmepc', hmcause', hmtval', hmscratch'⟩ := h'
  exact ⟨hmtvec'.trans hmtvec, hmepc'.trans hmepc, hmcause'.trans hmcause, hmtval'.trans hmtval,
    hmscratch'.trans hmscratch⟩

theorem SameHalt.trans {s t u : State} (h : SameHalt s t) (h' : SameHalt t u) : SameHalt s u :=
  ⟨h'.1.trans h.1, h'.2.trans h.2⟩

theorem SameSerial.trans {s t u : State} (h : SameSerial s t) (h' : SameSerial t u) : SameSerial s u := by
  obtain ⟨hin, hout, hdraws⟩ := h
  obtain ⟨hin', hout', hdraws'⟩ := h'
  exact ⟨hin'.trans hin, hout'.trans hout, hdraws'.trans hdraws⟩

/-- After an instruction that only writes a register, one that only writes x0 changes nothing but the pc and the
counters. -/
theorem WritesRegister.then_x0 {rd : Reg} {v v' p q : Word} {s t u : State} (h : WritesRegister rd v p s t)
    (h' : WritesRegister 0#5 v' q t u) :
    u.pc = q ∧ RegsAfterWrite rd v s u ∧ SameTrapCsrs s u ∧ SameHalt s u ∧ SameMemory s u ∧ SameSerial s u := by
  obtain ⟨⟨_, _, htrap, hhalt, hserial, _⟩, hregs, hmem⟩ := h
  obtain ⟨⟨hpc', _, htrap', hhalt', hserial', _⟩, hregs', hmem'⟩ := h'
  refine ⟨hpc', fun r => ?_, htrap.trans htrap', hhalt.trans hhalt', fun k => (hmem' k).trans (hmem k),
    hserial.trans hserial'⟩
  rw [hregs' r, hregs r]
  split_ifs <;> rfl

/-- From an even mepc, the read of mepc and the jump go to mepc plus the immediate (R36, R181). -/
theorem return_through_mepc (s : State) {rd : Reg} {imm : BitVec 12} (hepc : s.mepc.getLsbD 0 = false)
    (h0 : rd ≠ 0#5) (himm : imm.getLsbD 0 = false) :
    ∃ u, exec (.csrrs rd 0x341#12 0#5) s = .next u ∧ ∃ v, exec (.jalr 0#5 rd imm) u = .next v ∧
      v.pc = BitVec.ofInt 32 (s.mepc.toInt + imm.toInt) ∧ RegsAfterWrite rd s.mepc s v ∧ SameTrapCsrs s v ∧
      SameHalt s v ∧ SameMemory s v ∧ SameSerial s v := by
  obtain ⟨u, hread, hu⟩ := csrAccess_reads (encode (.csrrs rd 0x341#12 0#5)) .mepc rd (csrrsFunction s.params.csrrsOp) s
  rw [show csrRead s .mepc = s.mepc from and_0xFFFFFFFE_of_even hepc] at hu
  obtain ⟨v, hjump, hv⟩ := linkAndJump_writes 0#5 (u.ea rd imm &&& 0xFFFFFFFE#32) u
  have ⟨_, hregs, _⟩ := hu
  have hreg : u.reg rd = s.mepc := by simpa [h0] using hregs rd
  have heven : (u.ea rd imm).getLsbD 0 = false := ea_even (hreg ▸ hepc) himm
  rw [and_0xFFFFFFFE_of_even heven, ea_eq_ofInt, hreg] at hv
  exact ⟨u, hread, v, hjump, hu.then_x0 hv⟩

/-- Settles O40: trap entry keeps an even pc whole in mepc, and changes no register, halt latch, memory or stream. -/
theorem handlerReturnsThroughMepc : Obligations.HandlerReturnsThroughMepc := by
  intro s t i rd imm hpc ht h h0 himm
  obtain ⟨cause, tval, rfl⟩ := exec_eq_takeException ht h
  have hepc : (takeException cause tval s).mepc = s.pc := and_0xFFFFFFFE_of_even hpc
  have hreturn := return_through_mepc (takeException cause tval s) (hepc.symm ▸ hpc) h0 himm
  rwa [hepc] at hreturn

/-! ### A trap vector in no region -/

/-- The core can step, its pc is the trap vector, and the vector lies in no region. -/
def AtUnmappedVector (s : State) : Prop :=
  Runnable s ∧ s.pc = s.mtvec &&& 0xFFFFFFFC#32 ∧ Unmapped s s.pc

/-- The state after `n` steps, `n` not 0, at a trap vector in no region: that of one trap, with `n` steps counted. -/
def afterVectorTraps (n : Nat) (s : State) : State :=
  { takeException .illegalInstruction 0#32 s with
    cycle := s.cycle + BitVec.ofNat 64 n
    time := s.time + BitVec.ofNat 64 n }

/-- The fetch reads 0, which is no instruction (R53, R90, R251). -/
theorem AtUnmappedVector.step_eq {s : State} (h : AtUnmappedVector s) :
    step s = .next (takeException .illegalInstruction 0#32 s) := by
  obtain ⟨⟨hbus, hrunning⟩, _, hunmapped⟩ := h
  rw [Machine.step_eq hbus hrunning, fetch, busLoad_unmapped .word hunmapped, andThen_next, runWord, decode_zero]

/-- The trap leads back to the vector (R255). -/
theorem AtUnmappedVector.pc_after_trap {s : State} (h : AtUnmappedVector s) :
    (takeException .illegalInstruction 0#32 s).pc = s.pc := by
  obtain ⟨_, hpc, _⟩ := h
  exact hpc.symm

theorem AtUnmappedVector.after_trap {s : State} (h : AtUnmappedVector s) :
    AtUnmappedVector (takeException .illegalInstruction 0#32 s) := by
  have hpc := h.pc_after_trap
  obtain ⟨hrunnable, _, hunmapped⟩ := h
  refine ⟨hrunnable, rfl, ?_⟩
  rw [hpc]
  exact hunmapped

theorem AtUnmappedVector.mepc_after_trap {s : State} (h : AtUnmappedVector s) :
    (takeException .illegalInstruction 0#32 s).mepc = s.pc := by
  obtain ⟨_, hpc, _⟩ := h
  exact and_0xFFFFFFFE_of_even (by simp [hpc])

/-- A trap and `n` steps after it are `n + 1` steps. -/
theorem AtUnmappedVector.afterVectorTraps_takeException {s : State} (h : AtUnmappedVector s) (n : Nat) :
    afterVectorTraps n (takeException .illegalInstruction 0#32 s) = afterVectorTraps (n + 1) s := by
  have hcount (c : DWord) : c + 1#64 + BitVec.ofNat 64 n = c + BitVec.ofNat 64 (n + 1) := by
    rw [BitVec.ofNat_add]
    ac_rfl
  have hpc : s.mtvec &&& 0xFFFFFFFC#32 = s.pc := h.pc_after_trap
  simp only [afterVectorTraps, takeException, readMtvec, hpc, hcount]

/-- Every number of steps from the vector ends there. -/
theorem AtUnmappedVector.run_eq {s : State} (h : AtUnmappedVector s) (n : Nat) :
    Host.Core.run Sys2Proof.core (n + 1) s = .next (afterVectorTraps (n + 1) s) := by
  induction n generalizing s with
  | zero => exact run_succ_of_step h.step_eq
  | succ n ih => rw [run_succ_of_step h.step_eq, ih h.after_trap, h.afterVectorTraps_takeException]

/-- Settles O59: after `n + 1` steps the state is that of one trap with `n + 1` steps counted. -/
theorem unmappedVectorLoops : Obligations.UnmappedVectorLoops := by
  intro s hrunnable hpc hunmapped n
  have h : AtUnmappedVector s := ⟨hrunnable, hpc, hunmapped⟩
  exact ⟨_, h.run_eq n, hpc.symm, h.mepc_after_trap, rfl, rfl, hrunnable.2, rfl, rfl, rfl, fun _ => rfl, fun _ => rfl⟩

end Sys2Proof.Machine
end

section
/-!
PROOF. RAM's canonical form, which every step keeps (log entry 4), and the state before the first step
(70_reset_and_hazards.md R280).
-/

namespace Sys2Proof.Machine

/-! ### RAM stays in its canonical form -/

theorem Did.keeps_memoryCanonical {i : Instr} {s t : State} (h : Did i s t) (hs : MemoryCanonical s) :
    MemoryCanonical t := by
  cases h with
  | compute => simpa [MemoryCanonical] using hs
  | load _ _ _ _ u _ hload =>
    obtain ⟨_, _, rfl⟩ := busLoad_frame hload
    simpa [MemoryCanonical] using hs
  | store _ _ _ u hstore =>
    have hu : MemoryCanonical u := busStore_keeps_wf hstore hs
    exact hu
  | csr _ _ _ _ _ u hcsr =>
    obtain ⟨_, _, _, _, _, _, hmem, _⟩ := csrWrite_next hcsr
    simpa [MemoryCanonical, hmem] using hs
  | trap => exact hs

/-- Settles O47: only a store changes memory, and writing bytes keeps the canonical form. -/
theorem stepKeepsMemoryCanonical : Obligations.StepKeepsMemoryCanonical := by
  intro s t hs h
  exact step_keeps (fun _ _ _ hs => hs) (fun _ => Did.keeps_memoryCanonical) (fun _ _ _ hs => hs) hs h

/-! ### The state before the first step -/

theorem boot_reg (params : Params) (resetPc : Word) (contents : List (List Byte)) (input : SerialIn)
    (output : SerialOut) (r : Reg) : (State.boot params resetPc contents input output).reg r = 0#32 := by
  simp [State.reg, State.boot]

/-- The board takes the image, and the halt latch is off (R280). -/
theorem board_runnable (image : List Byte) (input : SerialIn) (output : SerialOut)
    (h : image.length ≤ Config.maxImageLength) : Runnable (State.board image input output) :=
  ⟨decide_eq_true h, rfl⟩

/-- Each image byte is in RAM (R76). -/
theorem board_readCell (image : List Byte) (input : SerialIn) (output : SerialOut)
    (h : image.length ≤ Config.maxImageLength) (j : Nat) (hj : j < image.length) :
    readCell (State.board image input output).mem (0x100 + j) = image[j] := by
  rw [board_mem image input output h]
  exact readCell_imageCells _ _ _ hj

/-- Settles O45: the registers, the image in RAM, and the configuration are one lemma each; the rest is the boot state's
own fields. -/
theorem resetState : Obligations.ResetState := by
  intro image input output h
  exact ⟨boot_reg _ _ _ _ _, rfl, rfl, rfl, rfl, rfl, rfl, rfl, rfl, rfl, rfl, rfl, board_readCell image input output h,
    board_runnable image input output h⟩

end Sys2Proof.Machine
end
